-- ==== Sys2Proof/Word.lean ====
section
/-! DEFINITION. The words of the machine: register and bus words (R9, R21, R60), symbols (R6) and
code storage (R7, R40). Types only. -/

namespace Sys2Proof

/-- A register or a memory word on the host port: 32 bits, bit 0 least significant (R9, R60). -/
abbrev Word := BitVec 32

/-- A symbol, an unsigned `SYM_W`-bit value (R6), held zero-extended in 12 bits, the widest
`SYM_W` the spec allows.  That a symbol stays below `2 ^ SYM_W` is an invariant
(`Sys2Proof.Machine.Inv`), not a property of this type. -/
abbrev Symbol := BitVec 12

/-- A bit-string (R10): a sequence of two-valued tokens, index 0 first; `true` is the token 1. -/
abbrev Bits := List Bool

/-- The `CODE` storage of one code-table entry (R40): `L_MAX` bits, held zero-extended in 4095
bits, the largest `L_MAX` the spec allows (`2 ^ 12 - 1`, R7).  Bit `j` is bit `j` of the code. -/
abbrev CodeBits := BitVec 4095

end Sys2Proof
end

