-- ==== Sys2Proof/Config.lean ====
section
/-! DEFINITION. What an instance of the hardware fixes at build time (R6, R7, R20): `SYM_W`, `N_MAX`,
`B_MAX` and the capacities derived from them; and the one free value of the model. -/

namespace Sys2Proof

/-- The parameters of one instance of `huffman_core` (R6, R7).  They are a field of `State` that no
step changes, so every statement over all states is a statement over all parameters. -/
structure Config where
  /-- `SYM_W`, the width of a symbol in bits, 1 to 12 (R6). -/
  symW : Nat
  /-- `N_MAX`, the capacity of `SYM` in symbols, 1 to 2^26 (R7). -/
  nMax : Nat
  /-- `B_MAX`, the capacity of `BIT` in bits, 1 to 2^26 (R7). -/
  bMax : Nat
deriving DecidableEq, Repr

namespace Config

/-- `K_MAX` = 2^SYM_W, the largest number of distinct symbols (R7). -/
def kMax (c : Config) : Nat := 2 ^ c.symW

/-- `L_MAX` = max(1, K_MAX − 1), the bits of code storage of one table entry (R7). -/
def lMax (c : Config) : Nat := max 1 (c.kMax - 1)

/-- `O_MAX` = B_MAX, the capacity of `OUT` in symbols (R7). -/
def oMax (c : Config) : Nat := c.bMax

/-- `NODE_MAX` = 2·K_MAX − 1, the tree nodes the builder can store (R7). -/
def nodeMax (c : Config) : Nat := 2 * c.kMax - 1

/-- The reference instance: `SYM_W` = 8 (R6) and `N_MAX` = `B_MAX` = 64, the values of
spec/95_test_vectors.md.  DESIGN CHOICE, notes/assumptions/1.md. -/
def reference : Config := { symW := 8, nMax := 64, bMax := 64 }

/-- The value an unspecified host read returns, at its `n`-th use (R246, U8, U9): nothing
constrains it.  notes/assumptions/4.md. -/
opaque freeWord : Nat → Word

end Config

end Sys2Proof
end

