-- ==== Sys2Proof/Syntax.lean ====
section
/-! DEFINITION. The commands of `huffman_core`, one constructor per row of spec/opcode_table.json
(R92).  A command word carries no operand (R91). -/

namespace Sys2Proof

/-- The four commands (R92). -/
inductive Instr where
  /-- `NOP`, opcode 0x0 (R116). -/
  | nop
  /-- `BUILD`, opcode 0x1 (R130). -/
  | build
  /-- `ENCODE`, opcode 0x2 (R170). -/
  | encode
  /-- `DECODE`, opcode 0x3 (R190). -/
  | decode
deriving DecidableEq, Repr

end Sys2Proof
end

