-- ==== Sys2Proof/HostSyntax.lean ====
section
/-! DEFINITION. The host's side as syntax: the register names of R21, the host-program primitives of
R97 and the pseudo-instructions of R98 (`HostStmt`), and the port-level steps they expand to
(`HostOp`).  Meanings are in Machine/Bus.lean and Machine/Host.lean. -/

namespace Sys2Proof

/-- The registers of R21, in the order of their offsets. -/
inductive Reg where
  | id | cfgSymw | cfgNmax | cfgBmax | ctrl | cmd | status
  | errCode | errInfo | inLen | bitLen | encLen | outLen | nsym
deriving DecidableEq, Repr

/-- The agents of R8. -/
inductive Agent where
  | host
  | core
deriving DecidableEq, Repr

/-- A value the host writes: a literal, or a host variable an earlier `RD` filled (R97). -/
inductive HostVal where
  | lit (v : Word)
  | var (name : Nat)
deriving DecidableEq, Repr

/-- One step of the host: a bus access (R60), a poll, or the reset input (R240). -/
inductive HostOp where
  /-- `MemWrite(addr, 4, v)`. -/
  | write (addr : Word) (v : HostVal)
  /-- `MemRead(addr, 4)` into the host variable `name`. -/
  | read (addr : Word) (name : Nat)
  /-- `WAIT` (R98): read `STATUS` into `name`, again and again while its bit 0 is 1. -/
  | poll (name : Nat)
  /-- Wait for the `irq` wire to be 1 (R244): no bus access. -/
  | waitIrq
  /-- Assertion of the reset input (R240). -/
  | reset
deriving DecidableEq, Repr

/-- A statement of a host program (R96, R97, R98).  Host variables are numbered. -/
inductive HostStmt where
  /-- `WR <reg>, <v>`. -/
  | wr (r : Reg) (v : HostVal)
  /-- `RD <reg> -> <name>`. -/
  | rd (r : Reg) (name : Nat)
  /-- `WRSYM <i>, <s>`. -/
  | wrsym (i : Nat) (s : Symbol)
  /-- `WRBIT <j>, <b>`. -/
  | wrbit (j : Nat) (b : Bool)
  /-- `RDBIT <j> -> <name>`. -/
  | rdbit (j : Nat) (name : Nat)
  /-- `RDOUT <j> -> <name>`. -/
  | rdout (j : Nat) (name : Nat)
  /-- `RDCTLEN <s> -> <name>`. -/
  | rdctlen (s : Nat) (name : Nat)
  /-- `CMDW <w>`. -/
  | cmdw (w : Word)
  /-- `<mnemonic>` (R96). -/
  | command (i : Instr)
  /-- `WAIT`, its polled value left in host variable `name`. -/
  | wait (name : Nat)
  /-- `RUN <mnemonic>`. -/
  | run (i : Instr) (name : Nat)
  /-- `LOADSYM [s0, s1, ...]`. -/
  | loadsym (ss : List Symbol)
  /-- `LOADBITS "b0b1..."`. -/
  | loadbits (bs : Bits)
  /-- `ACK`. -/
  | ack
  /-- `RESET`. -/
  | reset
deriving DecidableEq, Repr

end Sys2Proof
end

