-- ==== Sys2Proof/Machine/State.lean ====
section
/-! DEFINITION. The state of `huffman_core` as plain data (R20 to R52), the reasons a step can stop, and
the state after reset. -/

namespace Sys2Proof.Machine

/-- Element memory and tables: (index, element) pairs in one canonical form, indices strictly
rising (`Memory.wf`).  An index that is not listed holds no value (R52, D25). -/
abbrev Memory (α : Type) := List (Nat × α)

/-- The error codes of R211.  Codes 7 to 15 are never produced (U14) and have no constructor. -/
inductive ErrCode where
  | none
  | unknownSymbol
  | malformedCode
  | illegalCmd
  | notBuilt
  | length
  | overflow
deriving DecidableEq, Repr

/-- An entry of the code table with `VALID` = 1 (R40). -/
structure CodeEntry where
  /-- `LEN`, 16 bits: the length of the code in bits. -/
  len : BitVec 16
  /-- `CODE`: bit `j` is bit `j` of the code. -/
  code : CodeBits
deriving DecidableEq, Repr

/-- A Frequency Entry (R48): a symbol and its count. -/
structure FreqEntry where
  sym : Symbol
  count : Nat
deriving DecidableEq, Repr

/-- A tree node (R49): a leaf holds a symbol, an internal node holds two children; each has a weight
and a serial (R134). -/
inductive Node where
  | leaf (sym : Symbol) (weight serial : Nat)
  | internal (left right : Node) (weight serial : Nat)
deriving DecidableEq, Repr

/-- The snapshot taken when a command is accepted (R47, R111). -/
structure Snapshot where
  /-- The accepted command word. -/
  cmd : Word
  /-- The value of `IN_LEN` at acceptance. -/
  nIn : Word
  /-- The value of `BIT_LEN` at acceptance. -/
  nBits : Word
deriving DecidableEq, Repr

/-- The controller (R47): `IDLE`, or `BUSY` with the snapshot of the running command. -/
inductive Controller where
  | idle
  | busy (snap : Snapshot)
deriving DecidableEq, Repr

/-- The transient working state (R48 to R50): what the sub-blocks hold while a command runs. -/
structure Work where
  /-- The frequency list F (R48). -/
  freq : List FreqEntry
  /-- The priority queue Q, in the order of R135; its nodes and their descendants are the node
  store (R49). -/
  queue : List Node
  /-- The decoder's candidate bit-string (R50). -/
  cand : Bits
  /-- The index of the candidate's first bit (R50). -/
  start : Nat
deriving DecidableEq, Repr

/-- The whole state: the core's state of R20, and after it the host's side, which the step reads. -/
structure State where
  /-- `SYM_W`, `N_MAX`, `B_MAX` (R6, R7), read back by `CFG_SYMW`, `CFG_NMAX`, `CFG_BMAX` (R23 to R25);
  no step changes them. -/
  cfg : Config
  /-- `CTRL.IRQ_EN` (R26); the other bits of `CTRL` are RAZ/WI. -/
  irqEn : Bool
  /-- `CMD` (R27): the last accepted command word. -/
  cmd : Word
  /-- `STATUS.DONE` (R28).  `BUSY` is the controller's state and `ERR` a view of `ERR_CODE`. -/
  done : Bool
  /-- `STATUS.BUILT` (R28). -/
  built : Bool
  /-- `ERR_CODE` (R29). -/
  errCode : ErrCode
  /-- `ERR_INFO` (R30). -/
  errInfo : Word
  /-- `IN_LEN` (R31). -/
  inLen : Word
  /-- `BIT_LEN` (R32). -/
  bitLen : Word
  /-- `ENC_LEN` (R33). -/
  encLen : Word
  /-- `OUT_LEN` (R34). -/
  outLen : Word
  /-- `NSYM` (R35). -/
  nsym : Word
  /-- The code table `CT` (R40), by symbol value: listed exactly when `VALID` = 1. -/
  ct : Memory CodeEntry
  /-- The inverse table `IT` (R41): codes and their symbols. -/
  it : List (Bits × Symbol)
  /-- `SYM` (R44). -/
  sym : Memory Symbol
  /-- `BIT` (R45). -/
  bit : Memory Bool
  /-- `OUT` (R46). -/
  out : Memory Symbol
  /-- The controller and its snapshot (R47). -/
  ctl : Controller
  /-- The transient working state (R48 to R51). -/
  work : Work
  /-- The host's pending steps, first one next (R8, R76).  The model's own field,
  notes/assumptions/3.md. -/
  host : List HostOp
  /-- The host's variables (R97).  The model's own field, notes/assumptions/3.md. -/
  vars : Memory Word
  /-- Which agent moves at each coming step of a busy machine; the core when the list is empty.  The
  model's own field, notes/assumptions/2.md. -/
  turns : List Agent
  /-- How many free values the run has drawn.  The model's own field, notes/assumptions/4.md. -/
  draws : Nat
deriving DecidableEq, Repr

/-- What stops the machine.  The hardware itself never stops: an error of R211 is no fault. -/
inductive Fault where
  /-- `BUILD` or `ENCODE` reads `SYM[index]`, which the host has not written since reset: raised by
  `execBuild` and `execEncode` as D25 asks.  Safe: the hardware goes on with an unspecified symbol. -/
  | unwrittenSym (index : Nat)
  /-- `DECODE` reads `BIT[index]`, which nothing has written since reset: raised by `execDecode` as
  D25 asks.  Safe: the hardware goes on with an unspecified bit. -/
  | unwrittenBit (index : Nat)
deriving DecidableEq, Repr

/-- What the model refuses. -/
inductive Refusal where
  /-- A command without a meaning, rejected in its arm of `exec`; no arm does so.  Safe. -/
  | notModelled (mnemonic : String)
deriving DecidableEq, Repr

/-- The outcome of a step or of a meaning. -/
abbrev Result := Host.Outcome State Fault Refusal

/-- The transient state after reset, which R52 leaves unspecified and unobservable: empty.  DESIGN
CHOICE, notes/assumptions/5.md. -/
def Work.empty : Work := { freq := [], queue := [], cand := [], start := 0 }

/-- The state of R52 in an instance with the parameters `c`, the host's side empty. -/
def State.resetWith (c : Config) : State where
  cfg := c
  irqEn := false
  cmd := 0
  done := false
  built := false
  errCode := .none
  errInfo := 0
  inLen := 0
  bitLen := 0
  encLen := 0
  outLen := 0
  nsym := 0
  ct := []
  it := []
  sym := []
  bit := []
  out := []
  ctl := .idle
  work := Work.empty
  host := []
  vars := []
  turns := []
  draws := 0

/-- The state right after reset (R52, R240, R242) of the reference instance. -/
def State.reset : State := State.resetWith Config.reference

end Sys2Proof.Machine
end

