-- ==== Sys2Proof/Machine/Ops.lean ====
section
/-! DEFINITION. The named operations over memory and registers: element memory, code storage, the free
draws, and the command lifecycle: acceptance (R111), completion (R113), raising an error (R212) and
its acknowledgement (R223), and the reset input (R240). -/

namespace Sys2Proof.Machine

/-! ### Element memory -/

/-- The element at an index; `none` where nothing is listed. -/
def Memory.read {α : Type} : Memory α → Nat → Option α
  | [], _ => none
  | (k, v) :: m, i => if k = i then some v else Memory.read m i

/-- Write one element, keeping the indices strictly rising. -/
def Memory.write {α : Type} : Memory α → Nat → α → Memory α
  | [], i, v => [(i, v)]
  | (k, u) :: m, i, v =>
    if i < k then (i, v) :: (k, u) :: m
    else if i = k then (i, v) :: m
    else (k, u) :: Memory.write m i v

/-- Write consecutive elements from index `i` on, the first of the list at `i` (R71). -/
def Memory.writeSeq {α : Type} : Memory α → Nat → List α → Memory α
  | m, _, [] => m
  | m, i, v :: vs => Memory.writeSeq (Memory.write m i v) (i + 1) vs

/-- The canonical form: indices strictly rising. -/
abbrev Memory.wf {α : Type} (m : Memory α) : Prop := m.Pairwise (fun a b => a.1 < b.1)

/-- Every listed index is below `n`. -/
abbrev Memory.within {α : Type} (m : Memory α) (n : Nat) : Prop := ∀ c ∈ m, c.1 < n

/-! ### Code storage (R40) -/

/-- The number whose binary digits are the tokens of `p`, token `j` of weight 2^j. -/
def packBits : Bits → Nat
  | [] => 0
  | b :: p => b.toNat + 2 * packBits p

/-- The entry that stores the path `p` (R151): `LEN` its length, `CODE[j]` its token `j`, 0 above. -/
def CodeEntry.ofPath (p : Bits) : CodeEntry where
  len := BitVec.ofNat 16 p.length
  code := BitVec.ofNat 4095 (packBits p)

/-- `code(s)` of R40: the bit-string an entry stores. -/
def CodeEntry.bits (e : CodeEntry) : Bits :=
  (List.range e.len.toNat).map e.code.getLsbD

/-- `CT[s]` (R12, R40): the entry of `s`, `none` when `VALID` = 0. -/
def State.ctEntry (s : State) (x : Symbol) : Option CodeEntry := Memory.read s.ct x.toNat

/-- The symbol of a code in an inverse table, `none` where it is undefined (R41).  A match is equality
of the whole bit-string (R191). -/
def itLookup : List (Bits × Symbol) → Bits → Option Symbol
  | [], _ => none
  | (p, x) :: t, c => if p = c then some x else itLookup t c

/-! ### Fields the host writes -/

/-- `CTRL.IRQ_EN` takes `b` (R26). -/
def State.setIrqEn (s : State) (b : Bool) : State := { s with irqEn := b }

/-- `IN_LEN` takes `v` (R31). -/
def State.setInLen (s : State) (v : Word) : State := { s with inLen := v }

/-- `BIT_LEN` takes `v` (R32). -/
def State.setBitLen (s : State) (v : Word) : State := { s with bitLen := v }

/-- `SYM[i]` takes `x` (R64). -/
def State.setSym (s : State) (i : Nat) (x : Symbol) : State :=
  { s with sym := Memory.write s.sym i x }

/-- `BIT[j]` takes `b` (R65). -/
def State.setBit (s : State) (j : Nat) (b : Bool) : State :=
  { s with bit := Memory.write s.bit j b }

/-- The host variable `name` takes `v` (R97). -/
def State.setVar (s : State) (name : Nat) (v : Word) : State :=
  { s with vars := Memory.write s.vars name v }

/-! ### Free draws (U8, U9) -/

/-- The free value of the coming draw. -/
def State.freeValue (s : State) : Word := Config.freeWord s.draws

/-- The state after a draw. -/
def State.drawn (s : State) : State := { s with draws := s.draws + 1 }

/-! ### The command lifecycle -/

/-- Acceptance of the command word `w` (R111): one indivisible step. -/
def State.accept (s : State) (w : Word) : State :=
  { s with
    cmd := w
    ctl := .busy { cmd := w, nIn := s.inLen, nBits := s.bitLen }
    errCode := .none
    errInfo := 0
    done := false }

/-- Completion (R113) with `ERR_CODE` = `code` and `ERR_INFO` = `info`: `BUSY` falls, `DONE` rises and
the core is `IDLE`. -/
def State.complete (s : State) (code : ErrCode) (info : Nat) : State :=
  { s with
    errCode := code
    errInfo := BitVec.ofNat 32 info
    ctl := .idle
    done := true }

/-- `raise Err(code, info)` (R212): the command ends here and completes with the error; what it wrote
before stays.  The counterpart of taking an exception: there is no trap (R210, R222). -/
def State.raise (s : State) (code : ErrCode) (info : Nat) : Result :=
  .next (s.complete code info)

/-- The normal end of a command (R113): completion without an error. -/
def State.finish (s : State) : Result := .next (s.complete .none 0)

/-- Acknowledgement (R223): `DONE` is cleared.  The counterpart of returning from an exception. -/
def State.ack (s : State) : State := { s with done := false }

/-- The reset input (R240, R241): the core's state becomes that of R52, a running command is
abandoned; the parameters and the host's side stay. -/
def State.resetInput (s : State) : State :=
  { State.resetWith s.cfg with
    host := s.host
    vars := s.vars
    turns := s.turns
    draws := s.draws }

end Sys2Proof.Machine
end

