-- ==== Sys2Proof/Machine/Operands.lean ====
section
/-! DEFINITION. The operands of the commands (R91, R111, R112): the snapshot and the element sequences
`SYM[0..n_in)` and `BIT[0..n_bits)`. -/

namespace Sys2Proof.Machine

/-- The snapshot a command executes with (R112).  While the core is `IDLE` no command runs and `exec`
is not called; there it is the snapshot that acceptance would take now. -/
def State.snapshot (s : State) : Snapshot :=
  match s.ctl with
  | .busy sn => sn
  | .idle => { cmd := s.cmd, nIn := s.inLen, nBits := s.bitLen }

/-- `n_in` as a number (R91: used as it is). -/
def State.nIn (s : State) : Nat := s.snapshot.nIn.toNat

/-- `n_bits` as a number. -/
def State.nBits (s : State) : Nat := s.snapshot.nBits.toNat

/-- The elements 0 to `n - 1` of a memory, in index order (R71); `none` for one never written. -/
def Memory.seq {α : Type} (m : Memory α) (n : Nat) : List (Option α) :=
  (List.range n).map (Memory.read m)

/-- The values of a sequence from index `i` on, or the first index that holds none. -/
def written {α : Type} : List (Option α) → Nat → Except Nat (List α)
  | [], _ => .ok []
  | none :: _, i => .error i
  | some v :: vs, i =>
    match written vs (i + 1) with
    | .ok l => .ok (v :: l)
    | .error j => .error j

/-- `SYM[0..n_in)`, the operand of `BUILD` and `ENCODE`. -/
def State.symOperand (s : State) : List (Option Symbol) := Memory.seq s.sym s.nIn

/-- `BIT[0..n_bits)`, the operand of `DECODE`. -/
def State.bitOperand (s : State) : List (Option Bool) := Memory.seq s.bit s.nBits

end Sys2Proof.Machine
end

