-- ==== Sys2Proof/Machine/TreeBuilder.lean ====
section
/-! DEFINITION. `huffman_tree_builder` (R130 to R142): the frequency counter and the priority merge
engine. -/

namespace Sys2Proof.Machine

/-! ### Frequency counter (R132) -/

/-- The distinct symbols of a sequence, in order of first occurrence. -/
def distinct : List Symbol → List Symbol
  | [] => []
  | x :: xs => x :: (distinct xs).filter (fun y => y ≠ x)

/-- Put an entry before the first one whose count is not larger. -/
def insertFreq (e : FreqEntry) : List FreqEntry → List FreqEntry
  | [] => [e]
  | f :: fs => if f.count ≤ e.count then e :: f :: fs else f :: insertFreq e fs

/-- Sort by count, descending, stably: equal counts keep their order. -/
def sortFreq : List FreqEntry → List FreqEntry
  | [] => []
  | e :: es => insertFreq e (sortFreq es)

/-- `count(S)` (R132). -/
def countSymbols (xs : List Symbol) : List FreqEntry :=
  sortFreq ((distinct xs).map (fun x => { sym := x, count := xs.count x }))

/-! ### Priority merge engine (R134 to R138) -/

/-- The weight of a node. -/
def Node.weight : Node → Nat
  | .leaf _ w _ => w
  | .internal _ _ w _ => w

/-- The serial of a node (R134). -/
def Node.serial : Node → Nat
  | .leaf _ _ n => n
  | .internal _ _ _ n => n

/-- The priority order of R135: by weight, then by serial. -/
abbrev Node.precedes (a b : Node) : Prop :=
  a.weight < b.weight ∨ (a.weight = b.weight ∧ a.serial < b.serial)

/-- Insert a node into a queue kept in the order of R135, so that the queue's head is the node
`removeMin` takes. -/
def enqueue (n : Node) : List Node → List Node
  | [] => [n]
  | m :: q => if n.precedes m then n :: m :: q else m :: enqueue n q

/-- The leaves of a frequency list, serials from `j` on (R134). -/
def leavesFrom : Nat → List FreqEntry → List Node
  | _, [] => []
  | j, f :: fs => .leaf f.sym f.count j :: leavesFrom (j + 1) fs

/-- The queue with all leaves inserted, in the order of F (R134). -/
def initialQueue (fs : List FreqEntry) : List Node :=
  (leavesFrom 0 fs).foldl (fun q n => enqueue n q) []

/-- The internal node of one merge (R136): the first node removed is the left child. -/
def mergeNode (a b : Node) (next : Nat) : Node := .internal a b (a.weight + b.weight) next

/-- The merge loop of R136, at most `fuel` merges, `next` being the next serial: while the queue holds
more than one node, its two first nodes become one. -/
def mergeLoop : Nat → Nat → List Node → List Node
  | 0, _, q => q
  | _ + 1, _, [] => []
  | _ + 1, _, [a] => [a]
  | fuel + 1, next, a :: b :: q => mergeLoop fuel (next + 1) (enqueue (mergeNode a b next) q)

/-- `merge(F)` (R134 to R137): the queue at the end of the merging, its one node the root.  With k
leaves at most k merges are needed, and `next` starts at k. -/
def mergeTree (fs : List FreqEntry) : List Node :=
  mergeLoop fs.length fs.length (initialQueue fs)

/-- The sub-block's effect on the working state: F, and for k ≥ 2 the merged queue (R130, R138). -/
def treeBuilder (xs : List Symbol) (s : State) : State :=
  let fs := countSymbols xs
  { s with work :=
    { s.work with
      freq := fs
      queue := if 2 ≤ fs.length then mergeTree fs else [] } }

end Sys2Proof.Machine
end

