-- ==== Sys2Proof/Machine/CodeTableGen.lean ====
section
/-! DEFINITION. `huffman_code_table_gen` (R150 to R159), and the command `BUILD` (R130), which runs the
two sub-blocks in turn. -/

namespace Sys2Proof.Machine

/-- `gen(node, p)` (R151): the leaves below a node with their paths, a left edge 0 and a right edge 1,
the edge nearest the root first (R152). -/
def Node.paths : Node → Bits → List (Symbol × Bits)
  | .leaf x _ _, p => [(x, p)]
  | .internal l r _ _, p => Node.paths l (p ++ [false]) ++ Node.paths r (p ++ [true])

/-- The codes of `gen_tables(F, k, root)`: the tree's paths (R151), the single-symbol code "0" (R153),
or none (R154). -/
def codeList : List FreqEntry → List Node → List (Symbol × Bits)
  | [], _ => []
  | [f], _ => [(f.sym, [false])]
  | _ :: _ :: _, [] => []
  | _ :: _ :: _, root :: _ => root.paths []

/-- The code table that holds exactly the given codes (R150: nothing of an earlier one). -/
def codeTable (cs : List (Symbol × Bits)) : Memory CodeEntry :=
  cs.foldl (fun t c => Memory.write t c.1.toNat (CodeEntry.ofPath c.2)) []

/-- The inverse table that holds exactly the given codes. -/
def inverseTable (cs : List (Symbol × Bits)) : List (Bits × Symbol) :=
  cs.map (fun c => (c.2, c.1))

/-- The sub-block's effect: both tables from the working state the tree builder left (R141, R150). -/
def codeTableGen (s : State) : State :=
  let cs := codeList s.work.freq s.work.queue
  { s with ct := codeTable cs, it := inverseTable cs }

/-- The commit of R155. -/
def commitBuild (s : State) : State :=
  { s with nsym := BitVec.ofNat 32 s.work.freq.length, built := true }

/-- `BUILD` (R130). -/
def execBuild (s : State) : Result :=
  if s.nIn > s.cfg.nMax then s.raise .length 0
  else
    match written s.symOperand 0 with
    | .error i => .fault (.unwrittenSym i)
    | .ok xs => (commitBuild (codeTableGen (treeBuilder xs s))).finish

end Sys2Proof.Machine
end

