-- ==== Sys2Proof/Machine/Flags.lean ====
section
/-! DEFINITION. The status flags and the wire they drive: `STATUS` (R28, R39), `CTRL` (R26), the error
codes (R211) and `irq` (R220). -/

namespace Sys2Proof.Machine

/-- The number of an error code (R211). -/
def ErrCode.code : ErrCode → BitVec 4
  | .none => 0
  | .unknownSymbol => 1
  | .malformedCode => 2
  | .illegalCmd => 3
  | .notBuilt => 4
  | .length => 5
  | .overflow => 6

/-- `STATUS.BUSY`: the controller is in `BUSY` (R47). -/
def State.busy (s : State) : Bool :=
  match s.ctl with
  | .idle => false
  | .busy _ => true

/-- `STATUS.ERR`: `ERR_CODE` is not 0 (R28). -/
def State.err (s : State) : Bool := decide (s.errCode.code ≠ 0)

/-- `STATUS` (R28): bit 0 `BUSY`, bit 1 `DONE`, bit 2 `ERR`, bit 3 `BUILT`, bits 31:4 zero. -/
def State.statusWord (s : State) : Word :=
  (0 : BitVec 28) ++ BitVec.ofBool s.built ++ BitVec.ofBool s.err ++ BitVec.ofBool s.done ++
    BitVec.ofBool s.busy

/-- `CTRL` (R26): bit 0 `IRQ_EN`, bits 31:1 zero. -/
def State.ctrlWord (s : State) : Word := (0 : BitVec 31) ++ BitVec.ofBool s.irqEn

/-- `ERR_CODE` (R29): the code in bits 3:0, bits 31:4 zero. -/
def State.errCodeWord (s : State) : Word := (0 : BitVec 28) ++ s.errCode.code

/-- The interrupt output (R220): `STATUS.DONE AND CTRL.IRQ_EN`. -/
def State.irq (s : State) : Bool := s.done && s.irqEn

end Sys2Proof.Machine
end

