-- ==== Sys2Proof/Machine/Command.lean ====
section
/-! DEFINITION. The commands without data (R116, R117). -/

namespace Sys2Proof.Machine

/-- `NOP` (R116): nothing but its completion. -/
def execNop (s : State) : Result := s.finish

/-- An illegal command word (R117, R215): `ILLEGAL_CMD` with `ERR_INFO` = 0 and no other effect. -/
def execIllegal (s : State) : Result := s.raise .illegalCmd 0

end Sys2Proof.Machine
end

