-- ==== Sys2Proof/Machine/Decoder.lean ====
section
/-! DEFINITION. `huffman_decoder`: the command `DECODE` (R190 to R198). -/

namespace Sys2Proof.Machine

/-- How the bit loop of R190 ends: the symbols it emitted, the candidate left and the index of the
candidate's first bit. -/
structure Decoded where
  syms : List Symbol
  cand : Bits
  start : Nat
deriving DecidableEq, Repr

/-- The bit loop of R190 and R191 over the bits from index `i` on, with the candidate `cand` that
starts at index `start`. -/
def decodeLoop (it : List (Bits × Symbol)) : Bits → Nat → Bits → Nat → Decoded
  | [], _, cand, start => { syms := [], cand := cand, start := start }
  | b :: bs, i, cand, start =>
    match itLookup it (cand ++ [b]) with
    | some x =>
      let d := decodeLoop it bs (i + 1) [] (i + 1)
      { d with syms := x :: d.syms }
    | none => decodeLoop it bs (i + 1) (cand ++ [b]) start

/-- `OUT[0..OUT_LEN)` and `OUT_LEN` take the emitted symbols and their number; the candidate stays in
the working state. -/
def storeDecoded (d : Decoded) (s : State) : State :=
  { s with
    out := Memory.writeSeq s.out 0 d.syms
    outLen := BitVec.ofNat 32 d.syms.length
    work := { s.work with cand := d.cand, start := d.start } }

/-- `DECODE` (R190). -/
def execDecode (s : State) : Result :=
  if !s.built then s.raise .notBuilt 0
  else if s.nBits > s.cfg.bMax then s.raise .length 0
  else
    match written s.bitOperand 0 with
    | .error j => .fault (.unwrittenBit j)
    | .ok bs =>
      let d := decodeLoop s.it bs 0 [] 0
      if d.cand = [] then (storeDecoded d s).finish
      else (storeDecoded d s).raise .malformedCode d.start

end Sys2Proof.Machine
end

