-- ==== Sys2Proof/Machine/Encoder.lean ====
section
/-! DEFINITION. `huffman_encoder`: the command `ENCODE` (R170 to R177). -/

namespace Sys2Proof.Machine

/-- How the symbol loop of R170 ends: the bits it emitted, and its error with its index. -/
structure Encoded where
  bits : Bits
  code : ErrCode
  info : Nat
deriving DecidableEq, Repr

/-- The symbol loop of R170 and R172 over the symbols from index `i` on, `pos` bits being emitted
already.  The emitted bits are those of R173 and R174, the code of each symbol right behind the one
before. -/
def encodeLoop (bMax : Nat) (ct : Memory CodeEntry) :
    List (Option Symbol) → Nat → Nat → Except Fault Encoded
  | [], _, _ => .ok { bits := [], code := .none, info := 0 }
  | none :: _, i, _ => .error (.unwrittenSym i)
  | some x :: xs, i, pos =>
    match Memory.read ct x.toNat with
    | none => .ok { bits := [], code := .unknownSymbol, info := i }
    | some e =>
      if pos + e.len.toNat > bMax then .ok { bits := [], code := .overflow, info := i }
      else
        match encodeLoop bMax ct xs (i + 1) (pos + e.len.toNat) with
        | .error f => .error f
        | .ok r => .ok { r with bits := e.bits ++ r.bits }

/-- `BIT[0..ENC_LEN)` and `ENC_LEN` take the emitted bits and their number. -/
def storeEncoded (bits : Bits) (s : State) : State :=
  { s with
    bit := Memory.writeSeq s.bit 0 bits
    encLen := BitVec.ofNat 32 bits.length }

/-- `ENCODE` (R170): it completes with the loop's error, or with `NONE` when the loop met none (R212). -/
def execEncode (s : State) : Result :=
  if !s.built then s.raise .notBuilt 0
  else if s.nIn > s.cfg.nMax then s.raise .length 0
  else
    match encodeLoop s.cfg.bMax s.ct s.symOperand 0 0 with
    | .error f => .fault f
    | .ok r => .next ((storeEncoded r.bits s).complete r.code r.info)

end Sys2Proof.Machine
end

