-- ==== Sys2Proof/WellFormed.lean ====
section
/-! DEFINITION. The checks on terms: a legal instance of the hardware (R6, R7), a well-formed command
(R91: no operand, so nothing to check) and a host statement whose element index has an address in
its region (R61, R97). -/

namespace Sys2Proof

/-- The parameter ranges of R6 and R7. -/
def Config.wf (c : Config) : Bool :=
  decide (1 ≤ c.symW) && decide (c.symW ≤ 12) &&
  decide (1 ≤ c.nMax) && decide (c.nMax ≤ 2 ^ 26) &&
  decide (1 ≤ c.bMax) && decide (c.bMax ≤ 2 ^ 26)

/-- A command carries no operand and no immediate (R91), so every command is well-formed. -/
def Instr.wf : Instr → Bool
  | .nop => true
  | .build => true
  | .encode => true
  | .decode => true

/-- An element index has an address in its region exactly when it fits the 26-bit word index of
R61. -/
def indexOk (i : Nat) : Bool := decide (i < 2 ^ 26)

/-- A symbol is a `SYM_W`-bit value (R6). -/
def symbolOk (c : Config) (s : Symbol) : Bool := decide (s.toNat < c.kMax)

/-- The host statements whose expansion of R97 and R98 denotes what their syntax says. -/
def HostStmt.wf (c : Config) : HostStmt → Bool
  | .wr _ _ => true
  | .rd _ _ => true
  | .wrsym i s => indexOk i && symbolOk c s
  | .wrbit j _ => indexOk j
  | .rdbit j _ => indexOk j
  | .rdout j _ => indexOk j
  | .rdctlen s _ => indexOk s
  | .cmdw _ => true
  | .command _ => true
  | .wait _ => true
  | .run _ _ => true
  | .loadsym ss => decide (ss.length ≤ 2 ^ 26) && ss.all (symbolOk c)
  | .loadbits bs => decide (bs.length ≤ 2 ^ 26)
  | .ack => true
  | .reset => true

end Sys2Proof
end

