-- ==== Sys2Proof/Decode.lean ====
section
/-! DEFINITION. The command word (R90 to R95): `decodeCmd`, total on all 2^32 words, refusing by name;
`encode`, the word of a command; and the host's view of the decoder, `decodeTableWord`. -/

namespace Sys2Proof

/-- Why a command word is illegal (R93, R94). -/
inductive IllegalWord where
  /-- `RSVD` (bits 31:4) is not 0. -/
  | reservedBits
  /-- `RSVD` is 0 and `OPC` is 0x4 to 0xF. -/
  | reservedOpcode
deriving DecidableEq, Repr

/-- `OPC`, bits 3:0 of a command word (R90). -/
def opcField (w : Word) : BitVec 4 := w.extractLsb' 0 4

/-- `RSVD`, bits 31:4 of a command word (R90). -/
def rsvdField (w : Word) : BitVec 28 := w.extractLsb' 4 28

/-- `decode_cmd` of R93: the command a word selects, or why it is illegal. -/
def decodeCmd (w : Word) : Except IllegalWord Instr :=
  if rsvdField w ≠ 0 then .error .reservedBits
  else
    match (opcField w).toNat with
    | 0 => .ok .nop
    | 1 => .ok .build
    | 2 => .ok .encode
    | 3 => .ok .decode
    | _ => .error .reservedOpcode

/-- The opcode of a command (R92). -/
def opcodeOf : Instr → BitVec 4
  | .nop => 0x0
  | .build => 0x1
  | .encode => 0x2
  | .decode => 0x3

/-- The command word of a command (R90, R92): `OPC` in bits 3:0, `RSVD` zero. -/
def encode (i : Instr) : Word := (0 : BitVec 28) ++ opcodeOf i

/-- The command the decoder reads from the `nbits` bits of `w`, numbered as the opcode table numbers
them; the bits above `nbits` are 0. -/
def decodeTableWord (nbits w : Nat) : Option Instr :=
  match decodeCmd (BitVec.ofNat 32 (w % 2 ^ nbits)) with
  | .ok i => some i
  | .error _ => none

end Sys2Proof
end

