-- ==== Sys2Proof/Machine/Bus.lean ====
section
/-! DEFINITION. The host port (R60 to R73): address decode, the region map, and the read and the write of
one 32-bit word. -/

namespace Sys2Proof.Machine

/-! ### Address decode (R61, R62) -/

/-- The regions of R62. -/
inductive Region where
  | registers | sym | bit | out | ctLen | ctBits | reserved
deriving DecidableEq, Repr

/-- `region` = addr[31:28] (R61). -/
def regionField (addr : Word) : BitVec 4 := addr.extractLsb' 28 4

/-- `index` = addr[27:2] (R61); addr[1:0] is ignored. -/
def indexField (addr : Word) : Nat := (addr.extractLsb' 2 26).toNat

/-- The region map of R62. -/
def regionOf (addr : Word) : Region :=
  match (regionField addr).toNat with
  | 0 => .registers
  | 1 => .sym
  | 2 => .bit
  | 3 => .out
  | 4 => .ctLen
  | 5 => .ctBits
  | _ => .reserved

/-- The register at a word index of the register region (R21, R63): byte offset 4·index.  `none` for
the reserved offsets (R36) and for `index` ≥ 64 (R63). -/
def regOfIndex : Nat → Option Reg
  | 0 => some .id
  | 1 => some .cfgSymw
  | 2 => some .cfgNmax
  | 3 => some .cfgBmax
  | 4 => some .ctrl
  | 5 => some .cmd
  | 6 => some .status
  | 7 => some .errCode
  | 8 => some .errInfo
  | 9 => some .inLen
  | 10 => some .bitLen
  | 11 => some .encLen
  | 12 => some .outLen
  | 13 => some .nsym
  | _ => none

/-- `offset(reg)`: the byte offset of a register (R21). -/
def Reg.offset : Reg → Word
  | .id => 0x00
  | .cfgSymw => 0x04
  | .cfgNmax => 0x08
  | .cfgBmax => 0x0C
  | .ctrl => 0x10
  | .cmd => 0x14
  | .status => 0x18
  | .errCode => 0x1C
  | .errInfo => 0x20
  | .inLen => 0x24
  | .bitLen => 0x28
  | .encLen => 0x2C
  | .outLen => 0x30
  | .nsym => 0x34

/-! ### Registers (R21 to R36) -/

/-- What a read of a register returns (R22 to R35).  Register reads are exact, also while a command
runs (R246). -/
def readReg (s : State) : Reg → Word
  | .id => 0x48554631
  | .cfgSymw => BitVec.ofNat 32 s.cfg.symW
  | .cfgNmax => BitVec.ofNat 32 s.cfg.nMax
  | .cfgBmax => BitVec.ofNat 32 s.cfg.bMax
  | .ctrl => s.ctrlWord
  | .cmd => s.cmd
  | .status => s.statusWord
  | .errCode => s.errCodeWord
  | .errInfo => s.errInfo
  | .inLen => s.inLen
  | .bitLen => s.bitLen
  | .encLen => s.encLen
  | .outLen => s.outLen
  | .nsym => s.nsym

/-- What a write of a register does (R22 to R36, R110, R118, R245). -/
def writeReg (s : State) (v : Word) : Reg → State
  | .id => s
  | .cfgSymw => s
  | .cfgNmax => s
  | .cfgBmax => s
  | .ctrl => s.setIrqEn (v.getLsbD 0)
  | .cmd => if s.busy then s else s.accept v
  | .status => if v.getLsbD 1 then s.ack else s
  | .errCode => s
  | .errInfo => s
  | .inLen => if s.busy then s else s.setInLen v
  | .bitLen => if s.busy then s else s.setBitLen v
  | .encLen => s
  | .outLen => s
  | .nsym => s

/-! ### Elements in words (R64 to R68, R70) -/

/-- `v[SYM_W-1:0]` of a word, as a symbol. -/
def symbolOfWord (c : Config) (v : Word) : Symbol := BitVec.ofNat 12 (v.toNat % c.kMax)

/-- `zext_32` of a symbol. -/
def wordOfSymbol (x : Symbol) : Word := x.setWidth 32

/-- `v[0]` of a word, as a token. -/
def bitOfWord (v : Word) : Bool := v.getLsbD 0

/-- `zext_32` of a token. -/
def wordOfBit (b : Bool) : Word := (BitVec.ofBool b).setWidth 32

/-- The `CT_LEN` view of symbol value `i` (R67). -/
def ctLenWord (s : State) (i : Nat) : Word :=
  if i < s.cfg.kMax then
    match Memory.read s.ct i with
    | none => 0
    | some e => (1#32 <<< 31) ||| e.len.setWidth 32
  else 0

/-- The symbol part of a `CT_BITS` index (R68). -/
def ctBitsSymbol (c : Config) (i : Nat) : Nat := i >>> c.symW

/-- The bit position part of a `CT_BITS` index (R68). -/
def ctBitsPos (c : Config) (i : Nat) : Nat := i &&& (2 ^ c.symW - 1)

/-- The `CT_BITS` view at word index `i` (R68). -/
def ctBitsWord (s : State) (i : Nat) : Word :=
  if ctBitsSymbol s.cfg i < s.cfg.kMax then
    match Memory.read s.ct (ctBitsSymbol s.cfg i) with
    | none => 0
    | some e =>
      if ctBitsPos s.cfg i < e.len.toNat then wordOfBit (e.code.getLsbD (ctBitsPos s.cfg i))
      else 0
  else 0

/-! ### Reads (R64 to R69, R246) -/

/-- A read of `SYM` (R64): its contents, also while busy (R246).  An element never written is any
symbol (U8). -/
def readSym (s : State) (i : Nat) : Word × State :=
  if i < s.cfg.nMax then
    match Memory.read s.sym i with
    | some x => (wordOfSymbol x, s)
    | none => (wordOfSymbol (symbolOfWord s.cfg s.freeValue), s.drawn)
  else (0, s)

/-- A read of `BIT` (R65): any word while busy (R246), else its contents, an element never written
being any token (U8). -/
def readBit (s : State) (j : Nat) : Word × State :=
  if s.busy then (s.freeValue, s.drawn)
  else if j < s.cfg.bMax then
    match Memory.read s.bit j with
    | some b => (wordOfBit b, s)
    | none => (wordOfBit (bitOfWord s.freeValue), s.drawn)
  else (0, s)

/-- A read of `OUT` (R66), as of `BIT`. -/
def readOut (s : State) (j : Nat) : Word × State :=
  if s.busy then (s.freeValue, s.drawn)
  else if j < s.cfg.oMax then
    match Memory.read s.out j with
    | some x => (wordOfSymbol x, s)
    | none => (wordOfSymbol (symbolOfWord s.cfg s.freeValue), s.drawn)
  else (0, s)

/-- `MemRead(addr, 4)`: the data, and the state, which only counts the free values drawn (R73: no read
has a side effect). -/
def busRead (s : State) (addr : Word) : Word × State :=
  match regionOf addr with
  | .registers =>
    match regOfIndex (indexField addr) with
    | some r => (readReg s r, s)
    | none => (0, s)
  | .sym => readSym s (indexField addr)
  | .bit => readBit s (indexField addr)
  | .out => readOut s (indexField addr)
  | .ctLen =>
    if s.busy then (s.freeValue, s.drawn) else (ctLenWord s (indexField addr), s)
  | .ctBits =>
    if s.busy then (s.freeValue, s.drawn) else (ctBitsWord s (indexField addr), s)
  | .reserved => (0, s)

/-! ### Writes (R64 to R69, R245) -/

/-- A write of `SYM[i]` (R64). -/
def writeSym (s : State) (i : Nat) (v : Word) : State :=
  if i < s.cfg.nMax ∧ s.busy = false then s.setSym i (symbolOfWord s.cfg v) else s

/-- A write of `BIT[j]` (R65). -/
def writeBit (s : State) (j : Nat) (v : Word) : State :=
  if j < s.cfg.bMax ∧ s.busy = false then s.setBit j (bitOfWord v) else s

/-- `MemWrite(addr, 4, v)`. -/
def busWrite (s : State) (addr v : Word) : State :=
  match regionOf addr with
  | .registers =>
    match regOfIndex (indexField addr) with
    | some r => writeReg s v r
    | none => s
  | .sym => writeSym s (indexField addr) v
  | .bit => writeBit s (indexField addr) v
  | .out => s
  | .ctLen => s
  | .ctBits => s
  | .reserved => s

end Sys2Proof.Machine
end

