-- ==== Sys2Proof/Machine/Host.lean ====
section
/-! DEFINITION. The host agent (R8, R76): one step of it, the expansion of its programs (R96 to R98), and
whose turn it is. -/

namespace Sys2Proof.Machine

/-- The value of a host operand; a variable no read has filled has any value. -/
def evalVal (s : State) : HostVal → Word × State
  | .lit v => (v, s)
  | .var name =>
    match Memory.read s.vars name with
    | some v => (v, s)
    | none => (s.freeValue, s.drawn)

/-- `MemRead(addr, 4)` into a host variable. -/
def readInto (s : State) (addr : Word) (name : Nat) : State :=
  let r := busRead s addr
  r.2.setVar name r.1

/-- Take the host's first pending step off its list. -/
def State.popHost (s : State) : State := { s with host := s.host.tail }

/-- One host step, the access taking effect before the next one (R76).  `poll` and `waitIrq` stay
pending until the value they wait for is seen (R98, R244).  With nothing pending, nothing
happens (R242, R229). -/
def hostStep (s : State) : State :=
  match s.host with
  | [] => s
  | .write addr v :: _ =>
    let r := evalVal s v
    (busWrite r.2 addr r.1).popHost
  | .read addr name :: _ => (readInto s addr name).popHost
  | .poll name :: _ =>
    if (readReg s .status).getLsbD 0 then readInto s (Reg.offset .status) name
    else (readInto s (Reg.offset .status) name).popHost
  | .waitIrq :: _ => if s.irq then s.popHost else s
  | .reset :: _ => s.resetInput.popHost

/-- The agent that moves next.  While the core is `IDLE` only the host can (R8); while it is `BUSY`,
`turns` says, and the core moves where `turns` is empty or the host has nothing pending (R114,
R247, R260). -/
def State.nextAgent (s : State) : Agent :=
  if s.busy then
    match s.turns, s.host with
    | .host :: _, _ :: _ => .host
    | _, _ => .core
  else .host

/-- A step of a busy machine uses up one turn. -/
def State.popTurn (s : State) : State := if s.busy then { s with turns := s.turns.tail } else s

/-! ### Host programs -/

/-- The byte address of an element of the region with the given number (R61, R97). -/
def elementAddr (region : BitVec 4) (i : Nat) : Word := region ++ BitVec.ofNat 26 i ++ (0 : BitVec 2)

/-- `WRSYM <i>, <s>` (R97). -/
def wrsymOp (i : Nat) (x : Symbol) : HostOp := .write (elementAddr 1 i) (.lit (wordOfSymbol x))

/-- `WRBIT <j>, <b>` (R97). -/
def wrbitOp (j : Nat) (b : Bool) : HostOp := .write (elementAddr 2 j) (.lit (wordOfBit b))

/-- `CMDW <w>` (R97). -/
def cmdwOp (w : Word) : HostOp := .write (Reg.offset .cmd) (.lit w)

/-- `WRSYM` of consecutive elements from index `i` on. -/
def wrsymOps : Nat → List Symbol → List HostOp
  | _, [] => []
  | i, x :: xs => wrsymOp i x :: wrsymOps (i + 1) xs

/-- `WRBIT` of consecutive elements from index `j` on. -/
def wrbitOps : Nat → Bits → List HostOp
  | _, [] => []
  | j, b :: bs => wrbitOp j b :: wrbitOps (j + 1) bs

/-- The expansion of a host statement (R96 to R98); it has no other meaning (R98). -/
def expandStmt : HostStmt → List HostOp
  | .wr r v => [.write (Reg.offset r) v]
  | .rd r name => [.read (Reg.offset r) name]
  | .wrsym i x => [wrsymOp i x]
  | .wrbit j b => [wrbitOp j b]
  | .rdbit j name => [.read (elementAddr 2 j) name]
  | .rdout j name => [.read (elementAddr 3 j) name]
  | .rdctlen i name => [.read (elementAddr 4 i) name]
  | .cmdw w => [cmdwOp w]
  | .command i => [cmdwOp (encode i)]
  | .wait name => [.poll name]
  | .run i name => [cmdwOp (encode i), .poll name]
  | .loadsym xs => wrsymOps 0 xs ++
      [.write (Reg.offset .inLen) (.lit (BitVec.ofNat 32 xs.length))]
  | .loadbits bs => wrbitOps 0 bs ++
      [.write (Reg.offset .bitLen) (.lit (BitVec.ofNat 32 bs.length))]
  | .ack => [.write (Reg.offset .status) (.lit 0x00000002)]
  | .reset => [.reset]

/-- A host program as the steps of the host. -/
def expandProgram (p : List HostStmt) : List HostOp := p.flatMap expandStmt

end Sys2Proof.Machine
end

