-- ==== Sys2Proof/Machine/Step.lean ====
section
/-! DEFINITION. One step of the machine: the agent whose turn it is moves. -/

namespace Sys2Proof.Machine

/-- The core's move (R112): while `BUSY` it executes the command word of the snapshot to its
completion; while `IDLE` it does nothing. -/
def coreStep (s : State) : Host.Outcome State Fault Refusal :=
  match s.ctl with
  | .idle => .next s
  | .busy sn =>
    match decodeCmd sn.cmd with
    | .ok i => exec i s
    | .error _ => execIllegal s

/-- One step: the host's access, or the running command from its acceptance to its completion (R114:
a model runs a command as one step). -/
def step (s : State) : Host.Outcome State Fault Refusal :=
  match s.nextAgent with
  | .core => coreStep s.popTurn
  | .host => .next (hostStep s.popTurn)

/-- `s` with the command word `w` (its lowest `nbits` bits) accepted into the snapshot, where `coreStep`
fetches it (R111), and the core to move next. -/
def State.withFetchWord (s : State) (nbits w : Nat) : State :=
  { s.accept (BitVec.ofNat 32 (w % 2 ^ nbits)) with turns := [] }

end Sys2Proof.Machine
end

