-- ==== Sys2Proof/Safety.lean ====
section
/-! DEFINITION. The terms claims are written in: what a legal state of a legal instance is (`Inv`: R40 to
R43, R44 to R46, R28 to R35), when the operands of a command have been written (D25), and when a run
is over (R253). -/

namespace Sys2Proof.Machine

/-! ### Vocabulary -/

/-- The core is `IDLE` (R47). -/
abbrev State.isIdle (s : State) : Prop := s.ctl = .idle

/-- A memory holds the elements of `xs` from index 0 on. -/
abbrev Memory.holds {α : Type} (m : Memory α) (xs : List α) : Prop :=
  ∀ i, i < xs.length → Memory.read m i = xs[i]?

/-- `code(x)` (R40): the code of a symbol in the code table, `none` when `VALID` = 0. -/
def State.codeOf (s : State) (x : Symbol) : Option Bits := (s.ctEntry x).map CodeEntry.bits

/-- code(x₀) ++ code(x₁) ++ ..., an absent symbol adding nothing. -/
def State.encoding (s : State) (xs : List Symbol) : Bits :=
  xs.flatMap (fun x => (s.codeOf x).getD [])

/-- Every symbol of `xs` has a code. -/
abbrev State.allCoded (s : State) (xs : List Symbol) : Prop := ∀ x ∈ xs, (s.ctEntry x).isSome

/-- The operands that command `i` reads have all been written since reset (D25). -/
def State.operandsWritten (s : State) : Instr → Prop
  | .nop => True
  | .build => ∀ i, i < s.nIn → (Memory.read s.sym i).isSome
  | .encode => ∀ i, i < s.nIn → (Memory.read s.sym i).isSome
  | .decode => ∀ j, j < s.nBits → (Memory.read s.bit j).isSome

/-- A host's run is over (R253): its last access is done and the core is `IDLE`. -/
abbrev State.runOver (s : State) : Prop := s.host = [] ∧ s.isIdle

/-! ### Trees (R49, R134 to R137, R151, R152) -/

/-- The leaves below a node with their weights, left to right. -/
def Node.leaves : Node → List (Symbol × Nat)
  | .leaf x w _ => [(x, w)]
  | .internal l r _ _ => Node.leaves l ++ Node.leaves r

/-- How many nodes a tree has. -/
def Node.size : Node → Nat
  | .leaf _ _ _ => 1
  | .internal l r _ _ => Node.size l + Node.size r + 1

/-- Every internal node's weight is the sum of its children's weights (R49). -/
def Node.weighted : Node → Prop
  | .leaf _ _ _ => True
  | .internal l r w _ => w = l.weight + r.weight ∧ Node.weighted l ∧ Node.weighted r

/-- The leaf at the end of a path: a bit 0 takes the left edge, a bit 1 the right one (R152). -/
def Node.follow : Node → Bits → Option Symbol
  | .leaf x _ _, [] => some x
  | .leaf _ _ _, _ :: _ => none
  | .internal _ _ _ _, [] => none
  | .internal l _ _ _, false :: p => Node.follow l p
  | .internal _ r _ _, true :: p => Node.follow r p

/-- Merging as R135 and R136 say it, over a queue in any order: while more than one node is left, the
node that precedes every other one and the next such node become the children of a new node, whose
serial is the next one. -/
inductive Merges : Nat → List Node → Node → Prop
  | root (next : Nat) (n : Node) : Merges next [n] n
  | merge (next : Nat) (q r : List Node) (a b n : Node) :
      q.Perm (a :: b :: r) → a.precedes b → (∀ c ∈ r, b.precedes c) →
      Merges (next + 1) (.internal a b (a.weight + b.weight) next :: r) n → Merges next q n

/-! ### Code lengths (R140) -/

/-- The weighted sum of the lengths of the bit-strings `code` gives the symbols of `xs`: what encoding
`xs` with them takes. -/
def weightedLength (xs : List Symbol) (code : Symbol → Bits) : Nat :=
  (xs.map (fun x => (code x).length)).sum

/-- A binary prefix code for the symbols of `xs`. -/
def PrefixCode (xs : List Symbol) (code : Symbol → Bits) : Prop :=
  ∀ x ∈ xs, ∀ y ∈ xs, code x <+: code y → x = y

/-! ### The invariant -/

/-- The data memories and the host's variables are in canonical form, within their capacities, and
every symbol is a `SYM_W`-bit value (R6, R7, R44 to R46). -/
structure MemoriesOk (s : State) : Prop where
  symWf : Memory.wf s.sym
  symWithin : Memory.within s.sym s.cfg.nMax
  symValues : ∀ c ∈ s.sym, c.2.toNat < s.cfg.kMax
  bitWf : Memory.wf s.bit
  bitWithin : Memory.within s.bit s.cfg.bMax
  outWf : Memory.wf s.out
  outWithin : Memory.within s.out s.cfg.oMax
  outValues : ∀ c ∈ s.out, c.2.toNat < s.cfg.kMax
  varsWf : Memory.wf s.vars

/-- The tables are a codec state (R40 to R43): codes of legal length, prefix-free, `IT` the exact
inverse of `CT`, `NSYM` their number, and none before a `BUILD`. -/
structure TablesOk (s : State) : Prop where
  ctWf : Memory.wf s.ct
  ctWithin : Memory.within s.ct s.cfg.kMax
  lengths : ∀ c ∈ s.ct, 1 ≤ c.2.len.toNat ∧ c.2.len.toNat ≤ s.cfg.lMax
  highBits : ∀ c ∈ s.ct, c.2.code.toNat < 2 ^ c.2.len.toNat
  inverse : ∀ (c : Bits) (x : Symbol), itLookup s.it c = some x ↔ s.codeOf x = some c
  prefixFree : ∀ (x y : Symbol) (c d : Bits),
    s.codeOf x = some c → s.codeOf y = some d → c <+: d → x = y
  nsymCount : s.nsym.toNat = s.ct.length
  unbuilt : s.built = false → s.ct = []

/-- The registers agree with each other (R28 to R35, R111): result lengths within their memories,
`ERR_INFO` zero where the error carries no index, and while a command runs `DONE`, `ERR_CODE` and
`ERR_INFO` are zero and `CMD`, `IN_LEN` and `BIT_LEN` are as the snapshot took them. -/
structure RegistersOk (s : State) : Prop where
  encLen : s.encLen.toNat ≤ s.cfg.bMax
  outLen : s.outLen.toNat ≤ s.cfg.oMax
  nsym : s.nsym.toNat ≤ s.cfg.kMax
  info : s.errCode ∈ [ErrCode.none, .illegalCmd, .notBuilt, .length] → s.errInfo = 0
  running : ∀ sn, s.ctl = .busy sn →
    s.done = false ∧ s.errCode = .none ∧ s.errInfo = 0 ∧
      sn.cmd = s.cmd ∧ sn.nIn = s.inLen ∧ sn.nBits = s.bitLen

/-- The invariant of the machine: a legal instance in a legal state. -/
structure Inv (s : State) : Prop where
  config : s.cfg.wf = true
  memories : MemoriesOk s
  tables : TablesOk s
  registers : RegistersOk s

/-- All memories and the code table are in canonical form. -/
abbrev CanonicalMemories (s : State) : Prop :=
  Memory.wf s.sym ∧ Memory.wf s.bit ∧ Memory.wf s.out ∧ Memory.wf s.ct ∧ Memory.wf s.vars

end Sys2Proof.Machine
end

