-- ==== Sys2Proof/Certificates/Slice0/Obligations.lean ====
section
/-! DEFINITION. The statements of this row, one definition each, each citing the rules it states. -/

open Sys2Proof Sys2Proof.Machine

/-! ### Command words (R90 to R95) -/

/-- R93: a word is legal exactly when bits 31:4 are 0 and bits 3:0 are at most 3; it then selects the
command of R92; every other word is illegal. -/
def Obligations.CommandWordSelectsItsCommand : Prop :=
  ∀ w : Word,
    (∀ i : Instr, decodeCmd w = .ok i ↔
      w.extractLsb' 4 28 = 0 ∧
        ((w.extractLsb' 0 4 = 0x0 ∧ i = .nop) ∨ (w.extractLsb' 0 4 = 0x1 ∧ i = .build) ∨
         (w.extractLsb' 0 4 = 0x2 ∧ i = .encode) ∨ (w.extractLsb' 0 4 = 0x3 ∧ i = .decode))) ∧
    ((∃ e, decodeCmd w = .error e) ↔
      w.extractLsb' 4 28 ≠ 0 ∨ 3 < (w.extractLsb' 0 4).toNat)

/-- R90, R92: decoding a command's word gives the command, and no other word does. -/
def Obligations.DecodeReadsBackEncode : Prop :=
  (∀ i : Instr, decodeCmd (encode i) = .ok i) ∧
  (∀ (w : Word) (i : Instr), decodeCmd w = .ok i → w = encode i)

/-- R92: the four command words of the opcode table, and illegal words of each kind of R94. -/
def Obligations.OpcodeTableWordsDecode : Prop :=
  decodeCmd 0x00000000 = .ok .nop ∧ decodeCmd 0x00000001 = .ok .build ∧
  decodeCmd 0x00000002 = .ok .encode ∧ decodeCmd 0x00000003 = .ok .decode ∧
  decodeCmd 0x00000004 = .error .reservedOpcode ∧ decodeCmd 0x0000000F = .error .reservedOpcode ∧
  decodeCmd 0x00000012 = .error .reservedBits ∧ decodeCmd 0xFFFFFFFF = .error .reservedBits

/-! ### Lifecycle (R110 to R118) and the step -/

/-- R110, R111, R118: a write of `CMD` is accepted exactly when `BUSY` is 0, whatever the word; what
acceptance writes and what it leaves; while `BUSY` is 1 the write has no effect at all. -/
def Obligations.CommandWriteIsAcceptedWhenIdle : Prop :=
  ∀ (s : State) (a w : Word), a.extractLsb' 28 4 = 0 → a.extractLsb' 2 26 = 5 →
    (s.ctl = .idle → busWrite s a w =
      { s with
        cmd := w
        ctl := .busy { cmd := w, nIn := s.inLen, nBits := s.bitLen }
        errCode := .none
        errInfo := 0
        done := false }) ∧
    (∀ sn, s.ctl = .busy sn → busWrite s a w = s)

/-- R112: a step of a busy machine whose host has no turn executes the command that the snapshot's
word encodes, and uses up one turn.  The turns are the model's choice, notes/assumptions/2.md. -/
def Obligations.StepRunsDecodedCommand : Prop :=
  ∀ (s : State) (sn : Snapshot) (i : Instr),
    s.ctl = .busy sn → (s.host = [] ∨ s.turns.head? ≠ some .host) → decodeCmd sn.cmd = .ok i →
    step s = exec i { s with turns := s.turns.tail }

/-- R8, R229, R242: the core moves only to run a command; an idle machine's step is the host's, a busy
machine's is the host's when it has a turn (the model's choice, notes/assumptions/2.md) and an access
pending, and an idle machine with nothing pending stays as it is. -/
def Obligations.HostMovesWhenCoreDoesNot : Prop :=
  ∀ s : State,
    (s.ctl = .idle → step s = .next (hostStep s)) ∧
    (s.ctl = .idle → s.host = [] → step s = .next s) ∧
    (∀ sn op ops ts, s.ctl = .busy sn → s.host = op :: ops → s.turns = .host :: ts →
      step s = .next (hostStep { s with turns := ts }))

/-- R117, R215: an accepted illegal word ends with `ERR_CODE` = 3 and `ERR_INFO` = 0, whether or not a
`BUILD` has run, `CMD` holding the word and nothing else changed; from a machine that is not built
`STATUS` then reads 0x00000006. -/
def Obligations.IllegalWordEndsWithIllegalCmd : Prop :=
  ∀ (s : State) (w : Word), s.ctl = .idle →
    (w.extractLsb' 4 28 ≠ 0 ∨ 3 < (w.extractLsb' 0 4).toNat) →
    ∃ t, step { busWrite s 0x14 w with turns := [] } = .next t ∧
      t = { s with
        cmd := w
        turns := []
        errCode := .illegalCmd
        errInfo := 0
        ctl := .idle
        done := true } ∧
      (busRead t 0x1C).1 = 3 ∧ (busRead t 0x20).1 = 0 ∧ (busRead t 0x14).1 = w ∧
      (s.built = false → (busRead t 0x18).1 = 0x00000006)

/-- R116: `NOP` does nothing but complete without an error; from reset it ends with `STATUS` =
0x00000002 and `ERR_CODE` = 0. -/
def Obligations.NopOnlyCompletes : Prop :=
  (∀ s : State, exec .nop s =
    .next { s with errCode := .none, errInfo := 0, ctl := .idle, done := true }) ∧
  ∃ t, step { busWrite State.reset 0x14 0x00000000 with turns := [] } = .next t ∧
    (busRead t 0x18).1 = 0x00000002 ∧ (busRead t 0x1C).1 = 0

/-- R113, R114: a command whose operands have been written completes: the core is `IDLE` and `DONE` is
1.  A command faults only on an operand never written (the treatment D25 asks of a model,
notes/assumptions/6.md), and none is refused. -/
def Obligations.EveryCommandCompletes : Prop :=
  ∀ (i : Instr) (s : State),
    (s.operandsWritten i → ∃ t, exec i s = .next t ∧ t.ctl = .idle ∧ t.done = true) ∧
    (∀ f, exec i s = .fault f →
      (∃ k, f = .unwrittenSym k ∧ (i = .build ∨ i = .encode) ∧ k < s.nIn ∧
        Memory.read s.sym k = none) ∨
      (∃ k, f = .unwrittenBit k ∧ i = .decode ∧ k < s.nBits ∧ Memory.read s.bit k = none)) ∧
    (∀ r, exec i s ≠ .refused r)

/-- R114: a running command is over after at most one step more than the host has turns (the model's
choice, notes/assumptions/2.md); it never hangs, whatever the host does meanwhile. -/
def Obligations.RunningCommandEnds : Prop :=
  ∀ (s : State) (sn : Snapshot), s.ctl = .busy sn →
    ∃ k, k ≤ s.turns.length + 1 ∧
      ((∃ t, core.run k s = .next t ∧ t.ctl = .idle) ∨ (∃ f, core.run k s = .fault f))

/-- R247: of two commands issued back to back the second is dropped when the first (here a `NOP`) has
not completed, and is accepted when it has; the model admits both, by its turns
(notes/assumptions/2.md). -/
def Obligations.BackToBackCommandsBothOutcomes : Prop :=
  ∀ (s : State) (w : Word), s.ctl = .idle →
    s.host = [.write 0x14 (.lit 0), .write 0x14 (.lit w)] →
    (∃ t sn, core.run 2 { s with turns := [.host] } = .next t ∧ t.host = [] ∧ t.cmd = 0 ∧
      t.ctl = .busy sn ∧ sn.cmd = 0) ∧
    (∃ t sn, core.run 3 { s with turns := [] } = .next t ∧ t.host = [] ∧ t.cmd = w ∧
      t.ctl = .busy sn ∧ sn.cmd = w)

/-- R220: `irq` is `DONE` AND `IRQ_EN` at all times; what raises it and what lowers it. -/
def Obligations.InterruptFollowsDoneAndEnable : Prop :=
  ∀ s : State,
    (s.irq = true ↔ s.done = true ∧ s.irqEn = true) ∧
    (∀ i t, exec i s = .next t → t.irq = s.irqEn) ∧
    (∀ t, execIllegal s = .next t → t.irq = s.irqEn) ∧
    (∀ v : Word, v.getLsbD 0 = true → s.done = true → (busWrite s 0x10 v).irq = true) ∧
    (∀ v : Word, v.getLsbD 1 = true → (busWrite s 0x18 v).irq = false) ∧
    (∀ w : Word, s.ctl = .idle → (busWrite s 0x14 w).irq = false) ∧
    (∀ v : Word, v.getLsbD 0 = false → (busWrite s 0x10 v).irq = false) ∧
    s.resetInput.irq = false

/-! ### Registers (R21 to R39) -/

/-- R22, R23, R24, R25: the four constants read their values at all times, ignore writes, and no step
changes the parameters they show.  R21: the other read-only registers, `ERR_CODE`, `ERR_INFO`,
`ENC_LEN`, `OUT_LEN` and `NSYM`, ignore writes too. -/
def Obligations.ConstantRegisters : Prop :=
  ∀ (s : State) (v : Word), s.cfg.wf = true →
    (busRead s 0x00).1 = 0x48554631 ∧
    (busRead s 0x04).1.toNat = s.cfg.symW ∧ s.cfg.symW < 2 ^ 5 ∧
    (busRead s 0x08).1.toNat = s.cfg.nMax ∧
    (busRead s 0x0C).1.toNat = s.cfg.bMax ∧
    busWrite s 0x00 v = s ∧ busWrite s 0x04 v = s ∧ busWrite s 0x08 v = s ∧
    busWrite s 0x0C v = s ∧
    busWrite s 0x1C v = s ∧ busWrite s 0x20 v = s ∧ busWrite s 0x2C v = s ∧
    busWrite s 0x30 v = s ∧ busWrite s 0x34 v = s ∧
    (∀ t, step s = .next t → t.cfg = s.cfg)

/-- R36, R69: the reserved offsets (and the word indices 64 and up of the register region) and the
reserved regions read 0 and ignore writes, with no side effect. -/
def Obligations.ReservedAddressesReadZero : Prop :=
  ∀ (s : State) (a v : Word),
    ((a.extractLsb' 28 4 = 0 ∧ 14 ≤ (a.extractLsb' 2 26).toNat) ∨
      6 ≤ (a.extractLsb' 28 4).toNat) →
    busRead s a = (0, s) ∧ busWrite s a v = s

/-- R26: `CTRL` keeps bit 0 of a write, at any time, and reads its other bits as 0; after reset bit 0
is 0. -/
def Obligations.ControlRegister : Prop :=
  ∀ (s : State) (v : Word),
    busWrite s 0x10 v = { s with irqEn := v.getLsbD 0 } ∧
    (busRead s 0x10).1 = (if s.irqEn then 1 else 0) ∧ (busRead s 0x10).2 = s ∧
    s.resetInput.irqEn = false

/-- R28: the fields of `STATUS`, its reserved bits, and that a write affects only `DONE`, cleared by
bit 1. -/
def Obligations.StatusRegister : Prop :=
  ∀ (s : State) (v : Word),
    ((busRead s 0x18).1.getLsbD 0 = true ↔ ∃ sn, s.ctl = .busy sn) ∧
    (busRead s 0x18).1.getLsbD 1 = s.done ∧
    ((busRead s 0x18).1.getLsbD 2 = true ↔ (busRead s 0x1C).1 ≠ 0) ∧
    (busRead s 0x18).1.getLsbD 3 = s.built ∧
    (busRead s 0x18).1.toNat < 2 ^ 4 ∧
    (busRead s 0x18).2 = s ∧
    busWrite s 0x18 v = { s with done := s.done && !v.getLsbD 1 }

/-- R31, R32: `IN_LEN` and `BIT_LEN` store every 32-bit value, except that writes while `BUSY` are
ignored; reads give them back; no command writes them; a value above the capacity makes the command
that uses it fail with `LENGTH`; after reset they are 0. -/
def Obligations.OperandLengthRegisters : Prop :=
  ∀ s : State,
    (∀ v, s.ctl = .idle → busWrite s 0x24 v = { s with inLen := v } ∧
      busWrite s 0x28 v = { s with bitLen := v }) ∧
    (∀ v sn, s.ctl = .busy sn → busWrite s 0x24 v = s ∧ busWrite s 0x28 v = s) ∧
    (busRead s 0x24).1 = s.inLen ∧ (busRead s 0x28).1 = s.bitLen ∧
    (∀ i t, exec i s = .next t → t.inLen = s.inLen ∧ t.bitLen = s.bitLen) ∧
    (s.ctl = .idle → s.built = true → s.cfg.nMax < s.inLen.toNat →
      (∃ t, exec .build (busWrite s 0x14 1) = .next t ∧ t.errCode = .length) ∧
      (∃ t, exec .encode (busWrite s 0x14 2) = .next t ∧ t.errCode = .length)) ∧
    (s.ctl = .idle → s.built = true → s.cfg.bMax < s.bitLen.toNat →
      (∃ t, exec .decode (busWrite s 0x14 3) = .next t ∧ t.errCode = .length)) ∧
    s.resetInput.inLen = 0 ∧ s.resetInput.bitLen = 0

/-- R33, R34, R35, R42, R74: what each command leaves alone when it completes, with or without an
error: `SYM`, the host's registers, and every result, table and memory that is another command's. -/
def Obligations.CommandsWriteOnlyTheirResults : Prop :=
  ∀ (i : Instr) (s t : State), exec i s = .next t →
    (t.cfg = s.cfg ∧ t.irqEn = s.irqEn ∧ t.cmd = s.cmd ∧ t.inLen = s.inLen ∧
      t.bitLen = s.bitLen ∧ t.sym = s.sym ∧ t.host = s.host ∧ t.vars = s.vars ∧
      t.turns = s.turns ∧ t.draws = s.draws) ∧
    (i ≠ .encode → t.encLen = s.encLen ∧ t.bit = s.bit) ∧
    (i ≠ .decode → t.outLen = s.outLen ∧ t.out = s.out) ∧
    (i ≠ .build → t.nsym = s.nsym ∧ t.built = s.built ∧ t.ct = s.ct ∧ t.it = s.it) ∧
    (s.built = true → t.built = true)

/-- R42: the tables, `BUILT` and `NSYM` change only in a step of the core that runs a `BUILD` to an end
without an error, and in a step of the host that asserts reset. -/
def Obligations.TablesPersist : Prop :=
  ∀ s t : State, step s = .next t →
    (t.ct = s.ct ∧ t.it = s.it ∧ t.built = s.built ∧ t.nsym = s.nsym) ∨
    (s.nextAgent = .core ∧
      ∃ sn, s.ctl = .busy sn ∧ sn.cmd = 1 ∧ t.ctl = .idle ∧ t.errCode = .none) ∨
    (s.nextAgent = .host ∧ s.host.head? = some .reset)

/-! ### The memories and the port (R60 to R80) -/

/-- R64: a write of `SYM[i]` below `N_MAX` while idle stores the low `SYM_W` bits there and nothing
else; any other is ignored; a read gives the element, and 0 from `N_MAX` on.  An element never
written reads as some `SYM_W`-bit value (notes/assumptions/4.md). -/
def Obligations.SymMemoryAccess : Prop :=
  ∀ (s : State) (a v : Word), s.cfg.wf = true → Memory.wf s.sym → a.extractLsb' 28 4 = 1 →
    ((a.extractLsb' 2 26).toNat < s.cfg.nMax → s.ctl = .idle →
      busWrite s a v = { s with sym := (busWrite s a v).sym } ∧
      (∃ x, Memory.read (busWrite s a v).sym (a.extractLsb' 2 26).toNat = some x ∧
        x.toNat = v.toNat % 2 ^ s.cfg.symW) ∧
      (∀ j, j ≠ (a.extractLsb' 2 26).toNat →
        Memory.read (busWrite s a v).sym j = Memory.read s.sym j)) ∧
    (¬((a.extractLsb' 2 26).toNat < s.cfg.nMax ∧ s.ctl = .idle) → busWrite s a v = s) ∧
    ((a.extractLsb' 2 26).toNat < s.cfg.nMax →
      ∀ x, Memory.read s.sym (a.extractLsb' 2 26).toNat = some x →
        busRead s a = (x.setWidth 32, s)) ∧
    ((a.extractLsb' 2 26).toNat < s.cfg.nMax →
      Memory.read s.sym (a.extractLsb' 2 26).toNat = none →
        (busRead s a).1.toNat < 2 ^ s.cfg.symW) ∧
    (s.cfg.nMax ≤ (a.extractLsb' 2 26).toNat → busRead s a = (0, s))

/-- R65: the same of `BIT`, whose element is bit 0 of the word; the reads are those of an idle core, an
element never written reading as 0 or 1 (notes/assumptions/4.md). -/
def Obligations.BitMemoryAccess : Prop :=
  ∀ (s : State) (a v : Word), Memory.wf s.bit → a.extractLsb' 28 4 = 2 →
    ((a.extractLsb' 2 26).toNat < s.cfg.bMax → s.ctl = .idle →
      busWrite s a v = { s with bit := (busWrite s a v).bit } ∧
      Memory.read (busWrite s a v).bit (a.extractLsb' 2 26).toNat = some (v.getLsbD 0) ∧
      (∀ j, j ≠ (a.extractLsb' 2 26).toNat →
        Memory.read (busWrite s a v).bit j = Memory.read s.bit j)) ∧
    (¬((a.extractLsb' 2 26).toNat < s.cfg.bMax ∧ s.ctl = .idle) → busWrite s a v = s) ∧
    (s.ctl = .idle → (a.extractLsb' 2 26).toNat < s.cfg.bMax →
      ∀ b, Memory.read s.bit (a.extractLsb' 2 26).toNat = some b →
        busRead s a = (if b then 1 else 0, s)) ∧
    (s.ctl = .idle → (a.extractLsb' 2 26).toNat < s.cfg.bMax →
      Memory.read s.bit (a.extractLsb' 2 26).toNat = none → (busRead s a).1.toNat < 2) ∧
    (s.ctl = .idle → s.cfg.bMax ≤ (a.extractLsb' 2 26).toNat → busRead s a = (0, s))

/-- R66: `OUT` ignores every write; of an idle core it reads its elements, and 0 from `O_MAX` on.  An
element never written reads as some `SYM_W`-bit value (notes/assumptions/4.md). -/
def Obligations.OutMemoryIsReadOnly : Prop :=
  ∀ (s : State) (a v : Word), s.cfg.wf = true → a.extractLsb' 28 4 = 3 →
    busWrite s a v = s ∧
    (s.ctl = .idle → (a.extractLsb' 2 26).toNat < s.cfg.oMax →
      ∀ x, Memory.read s.out (a.extractLsb' 2 26).toNat = some x →
        busRead s a = (x.setWidth 32, s)) ∧
    (s.ctl = .idle → (a.extractLsb' 2 26).toNat < s.cfg.oMax →
      Memory.read s.out (a.extractLsb' 2 26).toNat = none →
        (busRead s a).1.toNat < 2 ^ s.cfg.symW) ∧
    (s.ctl = .idle → s.cfg.oMax ≤ (a.extractLsb' 2 26).toNat → busRead s a = (0, s))

/-- R67, R68: the views `CT_LEN` and `CT_BITS` of an idle core, for every word index: entry present,
entry absent, symbol out of range, bit at or behind the code's end; writes are ignored; every code
bit and every symbol's block has an address. -/
def Obligations.CodeTableViews : Prop :=
  ∀ (s : State) (a v : Word) (n : Nat), s.ctl = .idle → n = (a.extractLsb' 2 26).toNat →
    (a.extractLsb' 28 4 = 4 → busWrite s a v = s ∧ (busRead s a).2 = s ∧
      (∀ e, n < s.cfg.kMax → Memory.read s.ct n = some e →
        (busRead s a).1.toNat = 2 ^ 31 + e.len.toNat) ∧
      (n < s.cfg.kMax → Memory.read s.ct n = none → (busRead s a).1 = 0) ∧
      (s.cfg.kMax ≤ n → (busRead s a).1 = 0)) ∧
    (a.extractLsb' 28 4 = 5 → busWrite s a v = s ∧ (busRead s a).2 = s ∧
      (∀ x j e, n = x * 2 ^ s.cfg.symW + j → j < 2 ^ s.cfg.symW → x < s.cfg.kMax →
        Memory.read s.ct x = some e →
        (busRead s a).1 = (if j < e.len.toNat ∧ e.code.getLsbD j = true then 1 else 0)) ∧
      (∀ x j, n = x * 2 ^ s.cfg.symW + j → j < 2 ^ s.cfg.symW →
        (x < s.cfg.kMax → Memory.read s.ct x = none) → (busRead s a).1 = 0)) ∧
    (s.cfg.wf = true → s.cfg.lMax < 2 ^ s.cfg.symW ∧ s.cfg.kMax * 2 ^ s.cfg.symW ≤ 2 ^ 24)

/-- R61, R72: bits 1:0 of an address do not matter. -/
def Obligations.AddressLowBitsIgnored : Prop :=
  ∀ (s : State) (a b v : Word), a.extractLsb' 2 30 = b.extractLsb' 2 30 →
    busRead s a = busRead s b ∧ busWrite s a v = busWrite s b v

/-- R73: no read has a side effect (the model only counts the free values it has drawn), and repeating
a write leaves the same state. -/
def Obligations.ReadsAndRepeatedWritesChangeNothing : Prop :=
  ∀ (s : State) (a v : Word),
    (∃ n, (busRead s a).2 = { s with draws := n }) ∧
    busWrite (busWrite s a v) a v = busWrite s a v

/-- R246: while a command runs, a read of `BIT`, `OUT`, `CT_LEN` or `CT_BITS` is a fresh free value
(notes/assumptions/4.md); a read of `SYM` gives its contents.  In every state, so while a command runs
too, a read of a register gives its value; R29, R30, R211: `ERR_CODE` reads as the number of the error
and `ERR_INFO` as its index (`CTRL` and `STATUS` are read in `ControlRegister` and `StatusRegister`). -/
def Obligations.ReadsWhileBusy : Prop :=
  (∀ (s : State) (sn : Snapshot) (a : Word), s.ctl = .busy sn →
    (2 ≤ (a.extractLsb' 28 4).toNat → (a.extractLsb' 28 4).toNat ≤ 5 →
      busRead s a = (Config.freeWord s.draws, { s with draws := s.draws + 1 })) ∧
    (∀ x, a.extractLsb' 28 4 = 1 → (a.extractLsb' 2 26).toNat < s.cfg.nMax →
      Memory.read s.sym (a.extractLsb' 2 26).toNat = some x → busRead s a = (x.setWidth 32, s))) ∧
  ∀ s : State,
    busRead s 0x14 = (s.cmd, s) ∧
    (s.errCode = .none → busRead s 0x1C = (0, s)) ∧
    (s.errCode = .unknownSymbol → busRead s 0x1C = (1, s)) ∧
    (s.errCode = .malformedCode → busRead s 0x1C = (2, s)) ∧
    (s.errCode = .illegalCmd → busRead s 0x1C = (3, s)) ∧
    (s.errCode = .notBuilt → busRead s 0x1C = (4, s)) ∧
    (s.errCode = .length → busRead s 0x1C = (5, s)) ∧
    (s.errCode = .overflow → busRead s 0x1C = (6, s)) ∧
    busRead s 0x20 = (s.errInfo, s) ∧ busRead s 0x24 = (s.inLen, s) ∧
    busRead s 0x28 = (s.bitLen, s) ∧ busRead s 0x2C = (s.encLen, s) ∧
    busRead s 0x30 = (s.outLen, s) ∧ busRead s 0x34 = (s.nsym, s)

/-- R245: while a command runs, writes of `IN_LEN`, `BIT_LEN`, `CMD`, `SYM` and `BIT` have no effect;
writes of `CTRL` and the clearing of `DONE` take effect. -/
def Obligations.WritesWhileBusyAreDropped : Prop :=
  ∀ (s : State) (sn : Snapshot) (a v : Word), s.ctl = .busy sn →
    (a.extractLsb' 28 4 = 0 → (a.extractLsb' 2 26 = 9 ∨ a.extractLsb' 2 26 = 10 ∨
      a.extractLsb' 2 26 = 5) → busWrite s a v = s) ∧
    (a.extractLsb' 28 4 = 1 ∨ a.extractLsb' 28 4 = 2 → busWrite s a v = s) ∧
    (a.extractLsb' 28 4 = 0 → a.extractLsb' 2 26 = 4 →
      busWrite s a v = { s with irqEn := v.getLsbD 0 }) ∧
    (a.extractLsb' 28 4 = 0 → a.extractLsb' 2 26 = 6 → v.getLsbD 1 = true →
      busWrite s a v = { s with done := false })

/-- R98, R64, R31: the steps of `LOADSYM xs` on an idle machine leave `xs` in `SYM` and its length in
`IN_LEN`, and change nothing else. -/
def Obligations.LoadsymLoadsTheOperand : Prop :=
  ∀ (s : State) (xs : List Symbol) (rest : List HostOp), s.ctl = .idle → Memory.wf s.sym →
    s.cfg.wf = true → (HostStmt.loadsym xs).wf s.cfg = true → xs.length ≤ s.cfg.nMax →
    s.host = expandStmt (.loadsym xs) ++ rest →
    ∃ t, core.run (xs.length + 1) s = .next t ∧
      t = { s with sym := t.sym, inLen := t.inLen, host := rest } ∧
      t.inLen.toNat = xs.length ∧ Memory.holds t.sym xs ∧
      (∀ j, xs.length ≤ j → Memory.read t.sym j = Memory.read s.sym j)

/-! ### Reset (R240 to R242) -/

/-- R52, R240, R241: the reset input, also while a command runs, leaves every register at its reset
value, the tables empty, the core `IDLE` and the data memories unwritten; the parameters stay. -/
def Obligations.ResetInputResetsEverything : Prop :=
  ∀ (s : State) (ops : List HostOp), s.host = .reset :: ops →
    (s.ctl = .idle ∨ s.turns.head? = some .host) →
    ∃ t, step s = .next t ∧ t.host = ops ∧ t.cfg = s.cfg ∧ t.ctl = .idle ∧
      (busRead t 0x10).1 = 0 ∧ (busRead t 0x14).1 = 0 ∧ (busRead t 0x18).1 = 0 ∧
      (busRead t 0x1C).1 = 0 ∧ (busRead t 0x20).1 = 0 ∧ (busRead t 0x24).1 = 0 ∧
      (busRead t 0x28).1 = 0 ∧ (busRead t 0x2C).1 = 0 ∧ (busRead t 0x30).1 = 0 ∧
      (busRead t 0x34).1 = 0 ∧ (∀ x, t.ctEntry x = none) ∧ (∀ c, itLookup t.it c = none) ∧
      (∀ i, Memory.read t.sym i = none) ∧ (∀ i, Memory.read t.bit i = none) ∧
      (∀ i, Memory.read t.out i = none) ∧ t.irq = false

/-- R242: after reset the core is `IDLE`, not built, the interrupt masked and low and all lengths 0,
and it runs nothing until the host writes `CMD`: no other step of an idle machine starts a command. -/
def Obligations.ResetStateIsIdle : Prop :=
  (∀ s t : State, s.ctl = .idle → step s = .next t → t.ctl ≠ .idle →
    ∃ a v ops, s.host = .write a v :: ops ∧ a.extractLsb' 28 4 = 0 ∧ a.extractLsb' 2 26 = 5) ∧
  ∀ c : Config,
    (State.resetWith c).ctl = .idle ∧ (State.resetWith c).built = false ∧
    (State.resetWith c).irqEn = false ∧ (State.resetWith c).irq = false ∧
    (State.resetWith c).inLen = 0 ∧ (State.resetWith c).bitLen = 0 ∧
    (State.resetWith c).encLen = 0 ∧ (State.resetWith c).outLen = 0 ∧
    step (State.resetWith c) = .next (State.resetWith c)

/-! ### `BUILD` (R130 to R159) -/

/-- R131: with `n_in` above `N_MAX`, `BUILD` ends with `LENGTH` and `ERR_INFO` = 0, whatever `SYM`
holds, and `CT`, `IT`, `NSYM`, `BUILT` and everything else keep their values. -/
def Obligations.BuildLengthCheck : Prop :=
  ∀ s : State, s.cfg.nMax < s.nIn → exec .build s =
    .next { s with errCode := .length, errInfo := 0, ctl := .idle, done := true }

/-- R155: `BUILD` of a sequence that is there completes without an error, with `NSYM` the number of its
distinct symbols and `BUILT` = 1, also for the empty one; the symbols with a code are exactly those
of the sequence; only the tables, `NSYM`, `BUILT`, the completion's registers and the transient
state change. -/
def Obligations.BuildCompletes : Prop :=
  ∀ (s : State) (xs : List Symbol), s.cfg.wf = true → xs.length = s.nIn → s.nIn ≤ s.cfg.nMax →
    Memory.holds s.sym xs → (∀ x ∈ xs, x.toNat < s.cfg.kMax) →
    ∃ t, exec .build s = .next t ∧
      t = { s with
        ct := t.ct
        it := t.it
        work := t.work
        nsym := t.nsym
        built := true
        errCode := .none
        errInfo := 0
        ctl := .idle
        done := true } ∧
      t.nsym.toNat = xs.toFinset.card ∧
      (∀ x, (t.ctEntry x).isSome = true ↔ x ∈ xs)

/-- R156 (a), (b), (c), (e), R43: after `BUILD` the code table is prefix-free, `IT` is its exact
inverse, each symbol of the sequence has a code and `NSYM` is their number; with one distinct symbol
the only code is "0". -/
def Obligations.BuiltTablesArePrefixFreeAndInverse : Prop :=
  ∀ (s t : State) (xs : List Symbol), s.cfg.wf = true → xs.length = s.nIn →
    s.nIn ≤ s.cfg.nMax → Memory.holds s.sym xs → (∀ x ∈ xs, x.toNat < s.cfg.kMax) →
    exec .build s = .next t →
    (∀ x y c d, t.codeOf x = some c → t.codeOf y = some d → c <+: d → x = y) ∧
    (∀ c x, itLookup t.it c = some x ↔ t.codeOf x = some c) ∧
    (∀ x, (∃ c, t.codeOf x = some c) ↔ x ∈ xs) ∧
    t.nsym.toNat = t.ct.length ∧ t.nsym.toNat = xs.toFinset.card ∧
    (xs.toFinset.card = 1 → ∀ x c, t.codeOf x = some c → c = [false])

/-- R156 (d): after `BUILD` of at least two distinct symbols the code is complete: the Kraft sum is 1,
and every infinite bit sequence has exactly one code as a prefix. -/
def Obligations.BuiltCodeIsComplete : Prop :=
  ∀ (s t : State) (xs : List Symbol), s.cfg.wf = true → xs.length = s.nIn →
    s.nIn ≤ s.cfg.nMax → Memory.holds s.sym xs → (∀ x ∈ xs, x.toNat < s.cfg.kMax) →
    2 ≤ xs.toFinset.card → exec .build s = .next t →
    (xs.toFinset.sum (fun x => (1 / 2 : ℚ) ^ ((t.codeOf x).getD []).length) = 1) ∧
    (∀ f : Nat → Bool, ∃! x : Symbol, ∃ p, t.codeOf x = some p ∧
      ∀ j, j < p.length → p[j]? = some (f j))

/-- R153, R154: `BUILD` of one distinct symbol gives it the one code "0" in both tables; `BUILD` of
nothing leaves both tables empty. -/
def Obligations.SingleSymbolAndEmptyBuild : Prop :=
  ∀ (s : State) (xs : List Symbol), xs.length = s.nIn → s.nIn ≤ s.cfg.nMax →
    Memory.holds s.sym xs →
    (∀ x, xs ≠ [] → (∀ y ∈ xs, y = x) → ∃ t, exec .build s = .next t ∧
      t.ctEntry x = some { len := 1, code := 0 } ∧ (∀ y, y ≠ x → t.ctEntry y = none) ∧
      (∀ c y, itLookup t.it c = some y ↔ c = [false] ∧ y = x) ∧ t.nsym = 1) ∧
    (xs = [] → ∃ t, exec .build s = .next t ∧ (∀ y, t.ctEntry y = none) ∧
      (∀ c, itLookup t.it c = none) ∧ t.nsym = 0 ∧ t.built = true)

/-- R151, R152: with at least two distinct symbols the codes are the root-to-leaf paths of the tree the
builder left, a left edge 0 and a right edge 1, the root's edge first, in both tables; `CODE` is 0
from `LEN` on. -/
def Obligations.CodesAreTreePaths : Prop :=
  ∀ (s t : State) (xs : List Symbol), s.cfg.wf = true → xs.length = s.nIn →
    s.nIn ≤ s.cfg.nMax → Memory.holds s.sym xs → (∀ x ∈ xs, x.toNat < s.cfg.kMax) →
    2 ≤ xs.toFinset.card → exec .build s = .next t →
    ∃ root, mergeTree (countSymbols xs) = [root] ∧
      (∀ x c, t.codeOf x = some c ↔ root.follow c = some x) ∧
      (∀ x c, itLookup t.it c = some x ↔ root.follow c = some x) ∧
      (∀ x e j, t.ctEntry x = some e → e.len.toNat ≤ j → e.code.getLsbD j = false)

/-- R157: for k ≥ 2 distinct symbols every code has 1 to k − 1 bits and k − 1 ≤ `L_MAX`; for k = 1 it
has 1 bit; no code is empty, so `LEN` and `CODE` hold every code. -/
def Obligations.CodeLengthsAreBounded : Prop :=
  ∀ (s t : State) (xs : List Symbol), s.cfg.wf = true → xs.length = s.nIn →
    s.nIn ≤ s.cfg.nMax → Memory.holds s.sym xs → (∀ x ∈ xs, x.toNat < s.cfg.kMax) →
    exec .build s = .next t → ∀ x e, t.ctEntry x = some e →
    1 ≤ e.len.toNat ∧ e.len.toNat ≤ s.cfg.lMax ∧
    (2 ≤ xs.toFinset.card → e.len.toNat ≤ xs.toFinset.card - 1 ∧
      xs.toFinset.card - 1 ≤ s.cfg.lMax) ∧
    (xs.toFinset.card = 1 → e.len.toNat = 1)

/-- R132: the frequency list has one pair per distinct symbol with its number of occurrences, in
descending order of counts, equal counts in the order of first occurrence. -/
def Obligations.FrequencyListIsSortedCount : Prop :=
  ∀ xs : List Symbol,
    (∀ f ∈ countSymbols xs, f.sym ∈ xs ∧ f.count = xs.count f.sym) ∧
    (∀ x ∈ xs, ∃ f ∈ countSymbols xs, f.sym = x) ∧
    (countSymbols xs).Pairwise (fun e f => e.sym ≠ f.sym ∧
      (f.count < e.count ∨ (e.count = f.count ∧ xs.idxOf e.sym < xs.idxOf f.sym)))

/-- R133: the counts are positive and sum to the length of the input; the list has at most as many
entries as the input has symbols and as there are symbol values, and is empty only for the empty
input. -/
def Obligations.FrequenciesPartitionTheInput : Prop :=
  ∀ (xs : List Symbol) (n : Nat), (∀ x ∈ xs, x.toNat < n) →
    (∀ f ∈ countSymbols xs, 0 < f.count) ∧
    ((countSymbols xs).map FreqEntry.count).sum = xs.length ∧
    (countSymbols xs).length ≤ min xs.length n ∧
    (countSymbols xs = [] ↔ xs = [])

/-- R137, R49: merging the entries of at least two distinct symbols ends in exactly one node; its
leaves are the entries, it has 2k − 1 nodes, every internal node's weight is the sum of its
children's, and its own is the length of the input. -/
def Obligations.MergeEndsInOneTree : Prop :=
  ∀ xs : List Symbol, 2 ≤ xs.toFinset.card →
    ∃ root, mergeTree (countSymbols xs) = [root] ∧
      root.leaves.Perm ((countSymbols xs).map (fun f => (f.sym, f.count))) ∧
      root.size = 2 * xs.toFinset.card - 1 ∧ root.weighted ∧ root.weight = xs.length

/-- R134, R135, R136: the model's merging, over a queue kept in order, is the merging of the rules: at
each step the two nodes that precede all others in (weight, serial) become left and right child;
and the rules leave it no choice. -/
def Obligations.MergeRemovesTheTwoLeastNodes : Prop :=
  ∀ fs : List FreqEntry, fs ≠ [] →
    ∃ root, mergeTree fs = [root] ∧ Merges fs.length (leavesFrom 0 fs) root ∧
      ∀ other, Merges fs.length (leavesFrom 0 fs) other → other = root

/-- R150, R42: the tables and `NSYM` after a `BUILD` depend on the symbol sequence alone: two machines
that differ in anything else, earlier tables included, end with the same. -/
def Obligations.BuildForgetsEarlierTables : Prop :=
  ∀ s s' t t' : State, s.nIn = s'.nIn → s.nIn ≤ s.cfg.nMax → s'.nIn ≤ s'.cfg.nMax →
    (∀ i, i < s.nIn → Memory.read s.sym i = Memory.read s'.sym i) →
    exec .build s = .next t → exec .build s' = .next t' →
    t.ct = t'.ct ∧ t.it = t'.it ∧ t.nsym = t'.nsym

/-- R140: the codes of a `BUILD` take the fewest bits over the sequence among all binary prefix codes
without an empty code. -/
def Obligations.BuiltCodeIsOptimal : Prop :=
  ∀ (s t : State) (xs : List Symbol) (code : Symbol → Bits), s.cfg.wf = true →
    xs.length = s.nIn → s.nIn ≤ s.cfg.nMax → Memory.holds s.sym xs →
    (∀ x ∈ xs, x.toNat < s.cfg.kMax) → exec .build s = .next t →
    PrefixCode xs code → (∀ x ∈ xs, code x ≠ []) →
    weightedLength xs (fun x => (t.codeOf x).getD []) ≤ weightedLength xs code

/-- R158: a symbol that occurs more often than another has a code that is not longer. -/
def Obligations.MoreFrequentSymbolsHaveShorterCodes : Prop :=
  ∀ (s t : State) (xs : List Symbol), s.cfg.wf = true → xs.length = s.nIn →
    s.nIn ≤ s.cfg.nMax → Memory.holds s.sym xs → (∀ x ∈ xs, x.toNat < s.cfg.kMax) →
    exec .build s = .next t →
    ∀ x y c d, t.codeOf x = some c → t.codeOf y = some d → xs.count y < xs.count x →
      c.length ≤ d.length

/-! ### `ENCODE` and `DECODE` (R170 to R198) -/

/-- R171, R192, R216, R217: `ENCODE` and `DECODE` check `BUILT` and then the length, and `BUILD` the
length, before any data is looked at; a failed check leaves everything but the completion's
registers unchanged. -/
def Obligations.PrechecksLeaveEverythingUnchanged : Prop :=
  ∀ s : State,
    (s.built = false → ∀ i : Instr, i = .encode ∨ i = .decode → exec i s =
      .next { s with errCode := .notBuilt, errInfo := 0, ctl := .idle, done := true }) ∧
    (s.built = true → s.cfg.nMax < s.nIn → exec .encode s =
      .next { s with errCode := .length, errInfo := 0, ctl := .idle, done := true }) ∧
    (s.built = true → s.cfg.bMax < s.nBits → exec .decode s =
      .next { s with errCode := .length, errInfo := 0, ctl := .idle, done := true }) ∧
    (s.cfg.nMax < s.nIn → exec .build s =
      .next { s with errCode := .length, errInfo := 0, ctl := .idle, done := true })

/-- R173, R176: `ENCODE` of symbols that all have codes which fit leaves the concatenation of their
codes at the start of `BIT`, its length (the sum of the code lengths) in `ENC_LEN`, and everything
else, the rest of `BIT` included, unchanged. -/
def Obligations.EncodeConcatenatesCodes : Prop :=
  ∀ (s : State) (xs : List Symbol), s.cfg.wf = true → Memory.wf s.bit → s.built = true →
    xs.length = s.nIn → s.nIn ≤ s.cfg.nMax → Memory.holds s.sym xs → s.allCoded xs →
    (s.encoding xs).length ≤ s.cfg.bMax →
    ∃ t, exec .encode s = .next t ∧
      t = { s with
        bit := t.bit
        encLen := t.encLen
        errCode := .none
        errInfo := 0
        ctl := .idle
        done := true } ∧
      t.encLen.toNat = (s.encoding xs).length ∧
      t.encLen.toNat = (xs.map (fun x => ((s.codeOf x).getD []).length)).sum ∧
      Memory.holds t.bit (s.encoding xs) ∧
      (∀ j, (s.encoding xs).length ≤ j → Memory.read t.bit j = Memory.read s.bit j)

/-- R174, R213, R218, R219: `ENCODE` stops at the first symbol that is absent (`UNKNOWN_SYMBOL`) or
whose code does not fit (`OVERFLOW`), its index in `ERR_INFO`; the codes of the symbols before it
are in `BIT`, their length in `ENC_LEN`, and nothing else is changed. -/
def Obligations.EncodeStopsAtTheFirstBadSymbol : Prop :=
  ∀ (s : State) (ys : List Symbol) (x : Symbol), s.cfg.wf = true → Memory.wf s.bit →
    s.built = true → ys.length < s.nIn → s.nIn ≤ s.cfg.nMax → Memory.holds s.sym (ys ++ [x]) →
    s.allCoded ys → (s.encoding ys).length ≤ s.cfg.bMax →
    (s.ctEntry x = none ∨ s.cfg.bMax < (s.encoding (ys ++ [x])).length) →
    ∃ t, exec .encode s = .next t ∧
      t = { s with
        bit := t.bit
        encLen := t.encLen
        errCode := if s.ctEntry x = none then .unknownSymbol else .overflow
        errInfo := t.errInfo
        ctl := .idle
        done := true } ∧
      t.errInfo.toNat = ys.length ∧ t.encLen.toNat = (s.encoding ys).length ∧
      Memory.holds t.bit (s.encoding ys) ∧
      (∀ j, (s.encoding ys).length ≤ j → Memory.read t.bit j = Memory.read s.bit j)

/-- R193: `DECODE` of a concatenation of codes gives back the symbols: they are at the start of `OUT`,
their number in `OUT_LEN`, no error, and everything else but the transient state unchanged. -/
def Obligations.DecodeInvertsEncoding : Prop :=
  ∀ (s : State) (ts : List Symbol), s.cfg.wf = true → TablesOk s → Memory.wf s.out →
    s.built = true → s.allCoded ts → (s.encoding ts).length = s.nBits → s.nBits ≤ s.cfg.bMax →
    Memory.holds s.bit (s.encoding ts) →
    ∃ t, exec .decode s = .next t ∧
      t = { s with
        out := t.out
        outLen := t.outLen
        work := t.work
        errCode := .none
        errInfo := 0
        ctl := .idle
        done := true } ∧
      t.outLen.toNat = ts.length ∧ Memory.holds t.out ts ∧
      (∀ j, ts.length ≤ j → Memory.read t.out j = Memory.read s.out j)

/-- R193: when `DECODE` completes without an error, the symbols in `OUT` are the one sequence whose
codes concatenate to the bits. -/
def Obligations.DecodeIsTheUniqueParse : Prop :=
  ∀ (s t : State) (bs : Bits), s.cfg.wf = true → TablesOk s → Memory.wf s.out →
    s.built = true → bs.length = s.nBits → s.nBits ≤ s.cfg.bMax → Memory.holds s.bit bs →
    exec .decode s = .next t → t.errCode = .none →
    ∃ ts : List Symbol, s.allCoded ts ∧ s.encoding ts = bs ∧
      t.outLen.toNat = ts.length ∧ Memory.holds t.out ts ∧
      ∀ us : List Symbol, s.allCoded us → s.encoding us = bs → us = ts

/-- R194, R214: bits that are no concatenation of codes end with `MALFORMED_CODE`; the bits split into
codes and an unresolved rest no beginning of which is a code; `ERR_INFO` is where the rest begins,
and the symbols before it are in `OUT`, counted by `OUT_LEN`, the rest of `OUT` unchanged. -/
def Obligations.DecodeReportsMalformedInput : Prop :=
  ∀ (s : State) (bs : Bits), s.cfg.wf = true → TablesOk s → Memory.wf s.out →
    s.built = true → bs.length = s.nBits → s.nBits ≤ s.cfg.bMax → Memory.holds s.bit bs →
    (¬ ∃ ts : List Symbol, s.allCoded ts ∧ s.encoding ts = bs) →
    ∃ (t : State) (ts : List Symbol) (rest : Bits), exec .decode s = .next t ∧
      t = { s with
        out := t.out
        outLen := t.outLen
        work := t.work
        errCode := .malformedCode
        errInfo := t.errInfo
        ctl := .idle
        done := true } ∧
      s.allCoded ts ∧ bs = s.encoding ts ++ rest ∧ rest ≠ [] ∧
      (∀ c, c <+: rest → itLookup s.it c = none) ∧
      t.errInfo.toNat = (s.encoding ts).length ∧ t.outLen.toNat = ts.length ∧
      Memory.holds t.out ts ∧
      (∀ j, ts.length ≤ j → Memory.read t.out j = Memory.read s.out j)

/-- R195: once a candidate has `L_MAX` bits without a match, no further bit emits a symbol or moves
`start`, so stopping there gives the same result. -/
def Obligations.LongCandidateIsDead : Prop :=
  ∀ (s : State) (bs cand : Bits) (i start : Nat), TablesOk s → s.cfg.lMax ≤ cand.length →
    (decodeLoop s.it bs i cand start).syms = [] ∧
    (decodeLoop s.it bs i cand start).start = start ∧
    (decodeLoop s.it bs i cand start).cand = cand ++ bs

/-- R196: after a `BUILD` of at least two distinct symbols, what is left of any bits is the beginning
of a code, so malformed bits end inside a code; after a `BUILD` of one, a candidate that begins with
1 never matches; after a `BUILD` of nothing, none does. -/
def Obligations.MalformedInputEndsInsideACode : Prop :=
  ∀ (s t : State) (xs : List Symbol), s.cfg.wf = true → xs.length = s.nIn →
    s.nIn ≤ s.cfg.nMax → Memory.holds s.sym xs → (∀ x ∈ xs, x.toNat < s.cfg.kMax) →
    exec .build s = .next t →
    (2 ≤ xs.toFinset.card → ∀ bs : Bits, ∃ x c, t.codeOf x = some c ∧
      (decodeLoop t.it bs 0 [] 0).cand <+: c ∧ (decodeLoop t.it bs 0 [] 0).cand ≠ c) ∧
    (xs.toFinset.card = 1 → ∀ c : Bits, c.head? = some true → itLookup t.it c = none) ∧
    (xs = [] → ∀ c : Bits, itLookup t.it c = none)

/-- R197: from any legal idle state whose `SYM` holds `xs` and whose encoding fits, `BUILD`, `ENCODE`,
`BIT_LEN` <- `ENC_LEN` and `DECODE` end without an error with `xs` in `OUT`. -/
def Obligations.RoundTrip : Prop :=
  ∀ (s : State) (xs : List Symbol), Inv s → s.ctl = .idle → s.inLen.toNat = xs.length →
    xs.length ≤ s.cfg.nMax → Memory.holds s.sym xs →
    ∃ t1, exec .build (busWrite s 0x14 1) = .next t1 ∧ t1.errCode = .none ∧
      ((t1.encoding xs).length ≤ s.cfg.bMax →
        ∃ t2 t3, exec .encode (busWrite t1 0x14 2) = .next t2 ∧ t2.errCode = .none ∧
          exec .decode (busWrite (busWrite t2 0x28 t2.encLen) 0x14 3) = .next t3 ∧
          t3.errCode = .none ∧ t3.outLen.toNat = xs.length ∧ Memory.holds t3.out xs)

/-- R197, R98: the same as a run of the machine: the host's program `RUN BUILD; RUN ENCODE;
RD ENC_LEN -> L; WR BIT_LEN, L; RUN DECODE`, each command completing before the host's next access,
ends in eleven steps. -/
def Obligations.RoundTripProgramRuns : Prop :=
  ∀ (s : State) (xs : List Symbol), Inv s → s.ctl = .idle → s.inLen.toNat = xs.length →
    xs.length ≤ s.cfg.nMax → Memory.holds s.sym xs →
    (∀ t1, exec .build (busWrite s 0x14 1) = .next t1 → (t1.encoding xs).length ≤ s.cfg.bMax) →
    s.turns = [] →
    s.host = expandProgram [.run .build 0, .run .encode 0, .rd .encLen 1, .wr .bitLen (.var 1),
      .run .decode 0] →
    ∃ t, core.run 11 s = .next t ∧ t.runOver ∧ t.errCode = .none ∧ t.built = true ∧
      t.outLen.toNat = xs.length ∧ Memory.holds t.out xs

/-! ### The whole machine -/

/-- R51: no command reads what an earlier one left in the transient working state, and no host access
shows it. -/
def Obligations.TransientStateIsUnobservable : Prop :=
  ∀ (i : Instr) (s : State) (w : Work),
    (∀ t, exec i s = .next t →
      ∃ w', exec i { s with work := w } = .next { t with work := w' }) ∧
    (∀ f, exec i s = .fault f → exec i { s with work := w } = .fault f) ∧
    (∀ a, (busRead { s with work := w } a).1 = (busRead s a).1) ∧
    (∀ a v, busWrite { s with work := w } a v = { busWrite s a v with work := w })

/-- The state after reset of every legal instance meets the invariant (R40 to R46, R52). -/
def Obligations.ResetMeetsInvariant : Prop :=
  (∀ c : Config, c.wf = true → Inv (State.resetWith c)) ∧ Inv State.reset

/-- Every step from a state that meets the invariant ends in one that does: the tables stay a
prefix-free codec state with `IT` the inverse of `CT` (R41, R43), the memories stay canonical and
within their capacities with `SYM_W`-bit symbols (R44 to R46), and the registers stay as R28 to R35
say. -/
def Obligations.StepKeepsInvariant : Prop :=
  ∀ s t : State, Inv s → step s = .next t → Inv t

/-- Every step keeps all memories and the code table in canonical form, with no other premise. -/
def Obligations.StepKeepsCanonicalMemories : Prop :=
  ∀ s t : State, CanonicalMemories s → step s = .next t → CanonicalMemories t
end

