-- ==== Sys2Proof/Laws/State.lean ====
section
/-! SUPPORT. What each field is after each named update of the state: one lemma per field and update. -/

namespace Sys2Proof.Machine

/-! ### `State.setIrqEn` -/

@[simp] theorem State.setIrqEn_cfg (s : State) (b : Bool) : (s.setIrqEn b).cfg = s.cfg := rfl
@[simp] theorem State.setIrqEn_irqEn (s : State) (b : Bool) : (s.setIrqEn b).irqEn = b := rfl
@[simp] theorem State.setIrqEn_cmd (s : State) (b : Bool) : (s.setIrqEn b).cmd = s.cmd := rfl
@[simp] theorem State.setIrqEn_done (s : State) (b : Bool) : (s.setIrqEn b).done = s.done := rfl
@[simp] theorem State.setIrqEn_built (s : State) (b : Bool) : (s.setIrqEn b).built = s.built := rfl
@[simp] theorem State.setIrqEn_errCode (s : State) (b : Bool) :
    (s.setIrqEn b).errCode = s.errCode := rfl
@[simp] theorem State.setIrqEn_errInfo (s : State) (b : Bool) :
    (s.setIrqEn b).errInfo = s.errInfo := rfl
@[simp] theorem State.setIrqEn_inLen (s : State) (b : Bool) : (s.setIrqEn b).inLen = s.inLen := rfl
@[simp] theorem State.setIrqEn_bitLen (s : State) (b : Bool) :
    (s.setIrqEn b).bitLen = s.bitLen := rfl
@[simp] theorem State.setIrqEn_encLen (s : State) (b : Bool) :
    (s.setIrqEn b).encLen = s.encLen := rfl
@[simp] theorem State.setIrqEn_outLen (s : State) (b : Bool) :
    (s.setIrqEn b).outLen = s.outLen := rfl
@[simp] theorem State.setIrqEn_nsym (s : State) (b : Bool) : (s.setIrqEn b).nsym = s.nsym := rfl
@[simp] theorem State.setIrqEn_ct (s : State) (b : Bool) : (s.setIrqEn b).ct = s.ct := rfl
@[simp] theorem State.setIrqEn_it (s : State) (b : Bool) : (s.setIrqEn b).it = s.it := rfl
@[simp] theorem State.setIrqEn_sym (s : State) (b : Bool) : (s.setIrqEn b).sym = s.sym := rfl
@[simp] theorem State.setIrqEn_bit (s : State) (b : Bool) : (s.setIrqEn b).bit = s.bit := rfl
@[simp] theorem State.setIrqEn_out (s : State) (b : Bool) : (s.setIrqEn b).out = s.out := rfl
@[simp] theorem State.setIrqEn_ctl (s : State) (b : Bool) : (s.setIrqEn b).ctl = s.ctl := rfl
@[simp] theorem State.setIrqEn_work (s : State) (b : Bool) : (s.setIrqEn b).work = s.work := rfl
@[simp] theorem State.setIrqEn_host (s : State) (b : Bool) : (s.setIrqEn b).host = s.host := rfl
@[simp] theorem State.setIrqEn_vars (s : State) (b : Bool) : (s.setIrqEn b).vars = s.vars := rfl
@[simp] theorem State.setIrqEn_turns (s : State) (b : Bool) : (s.setIrqEn b).turns = s.turns := rfl
@[simp] theorem State.setIrqEn_draws (s : State) (b : Bool) : (s.setIrqEn b).draws = s.draws := rfl

/-! ### `State.setInLen` -/

@[simp] theorem State.setInLen_cfg (s : State) (v : Word) : (s.setInLen v).cfg = s.cfg := rfl
@[simp] theorem State.setInLen_irqEn (s : State) (v : Word) : (s.setInLen v).irqEn = s.irqEn := rfl
@[simp] theorem State.setInLen_cmd (s : State) (v : Word) : (s.setInLen v).cmd = s.cmd := rfl
@[simp] theorem State.setInLen_done (s : State) (v : Word) : (s.setInLen v).done = s.done := rfl
@[simp] theorem State.setInLen_built (s : State) (v : Word) : (s.setInLen v).built = s.built := rfl
@[simp] theorem State.setInLen_errCode (s : State) (v : Word) :
    (s.setInLen v).errCode = s.errCode := rfl
@[simp] theorem State.setInLen_errInfo (s : State) (v : Word) :
    (s.setInLen v).errInfo = s.errInfo := rfl
@[simp] theorem State.setInLen_inLen (s : State) (v : Word) : (s.setInLen v).inLen = v := rfl
@[simp] theorem State.setInLen_bitLen (s : State) (v : Word) :
    (s.setInLen v).bitLen = s.bitLen := rfl
@[simp] theorem State.setInLen_encLen (s : State) (v : Word) :
    (s.setInLen v).encLen = s.encLen := rfl
@[simp] theorem State.setInLen_outLen (s : State) (v : Word) :
    (s.setInLen v).outLen = s.outLen := rfl
@[simp] theorem State.setInLen_nsym (s : State) (v : Word) : (s.setInLen v).nsym = s.nsym := rfl
@[simp] theorem State.setInLen_ct (s : State) (v : Word) : (s.setInLen v).ct = s.ct := rfl
@[simp] theorem State.setInLen_it (s : State) (v : Word) : (s.setInLen v).it = s.it := rfl
@[simp] theorem State.setInLen_sym (s : State) (v : Word) : (s.setInLen v).sym = s.sym := rfl
@[simp] theorem State.setInLen_bit (s : State) (v : Word) : (s.setInLen v).bit = s.bit := rfl
@[simp] theorem State.setInLen_out (s : State) (v : Word) : (s.setInLen v).out = s.out := rfl
@[simp] theorem State.setInLen_ctl (s : State) (v : Word) : (s.setInLen v).ctl = s.ctl := rfl
@[simp] theorem State.setInLen_work (s : State) (v : Word) : (s.setInLen v).work = s.work := rfl
@[simp] theorem State.setInLen_host (s : State) (v : Word) : (s.setInLen v).host = s.host := rfl
@[simp] theorem State.setInLen_vars (s : State) (v : Word) : (s.setInLen v).vars = s.vars := rfl
@[simp] theorem State.setInLen_turns (s : State) (v : Word) : (s.setInLen v).turns = s.turns := rfl
@[simp] theorem State.setInLen_draws (s : State) (v : Word) : (s.setInLen v).draws = s.draws := rfl

/-! ### `State.setBitLen` -/

@[simp] theorem State.setBitLen_cfg (s : State) (v : Word) : (s.setBitLen v).cfg = s.cfg := rfl
@[simp] theorem State.setBitLen_irqEn (s : State) (v : Word) :
    (s.setBitLen v).irqEn = s.irqEn := rfl
@[simp] theorem State.setBitLen_cmd (s : State) (v : Word) : (s.setBitLen v).cmd = s.cmd := rfl
@[simp] theorem State.setBitLen_done (s : State) (v : Word) : (s.setBitLen v).done = s.done := rfl
@[simp] theorem State.setBitLen_built (s : State) (v : Word) :
    (s.setBitLen v).built = s.built := rfl
@[simp] theorem State.setBitLen_errCode (s : State) (v : Word) :
    (s.setBitLen v).errCode = s.errCode := rfl
@[simp] theorem State.setBitLen_errInfo (s : State) (v : Word) :
    (s.setBitLen v).errInfo = s.errInfo := rfl
@[simp] theorem State.setBitLen_inLen (s : State) (v : Word) :
    (s.setBitLen v).inLen = s.inLen := rfl
@[simp] theorem State.setBitLen_bitLen (s : State) (v : Word) : (s.setBitLen v).bitLen = v := rfl
@[simp] theorem State.setBitLen_encLen (s : State) (v : Word) :
    (s.setBitLen v).encLen = s.encLen := rfl
@[simp] theorem State.setBitLen_outLen (s : State) (v : Word) :
    (s.setBitLen v).outLen = s.outLen := rfl
@[simp] theorem State.setBitLen_nsym (s : State) (v : Word) : (s.setBitLen v).nsym = s.nsym := rfl
@[simp] theorem State.setBitLen_ct (s : State) (v : Word) : (s.setBitLen v).ct = s.ct := rfl
@[simp] theorem State.setBitLen_it (s : State) (v : Word) : (s.setBitLen v).it = s.it := rfl
@[simp] theorem State.setBitLen_sym (s : State) (v : Word) : (s.setBitLen v).sym = s.sym := rfl
@[simp] theorem State.setBitLen_bit (s : State) (v : Word) : (s.setBitLen v).bit = s.bit := rfl
@[simp] theorem State.setBitLen_out (s : State) (v : Word) : (s.setBitLen v).out = s.out := rfl
@[simp] theorem State.setBitLen_ctl (s : State) (v : Word) : (s.setBitLen v).ctl = s.ctl := rfl
@[simp] theorem State.setBitLen_work (s : State) (v : Word) : (s.setBitLen v).work = s.work := rfl
@[simp] theorem State.setBitLen_host (s : State) (v : Word) : (s.setBitLen v).host = s.host := rfl
@[simp] theorem State.setBitLen_vars (s : State) (v : Word) : (s.setBitLen v).vars = s.vars := rfl
@[simp] theorem State.setBitLen_turns (s : State) (v : Word) :
    (s.setBitLen v).turns = s.turns := rfl
@[simp] theorem State.setBitLen_draws (s : State) (v : Word) :
    (s.setBitLen v).draws = s.draws := rfl

/-! ### `State.setSym` -/

@[simp] theorem State.setSym_cfg (s : State) (i : Nat) (x : Symbol) :
    (s.setSym i x).cfg = s.cfg := rfl
@[simp] theorem State.setSym_irqEn (s : State) (i : Nat) (x : Symbol) :
    (s.setSym i x).irqEn = s.irqEn := rfl
@[simp] theorem State.setSym_cmd (s : State) (i : Nat) (x : Symbol) :
    (s.setSym i x).cmd = s.cmd := rfl
@[simp] theorem State.setSym_done (s : State) (i : Nat) (x : Symbol) :
    (s.setSym i x).done = s.done := rfl
@[simp] theorem State.setSym_built (s : State) (i : Nat) (x : Symbol) :
    (s.setSym i x).built = s.built := rfl
@[simp] theorem State.setSym_errCode (s : State) (i : Nat) (x : Symbol) :
    (s.setSym i x).errCode = s.errCode := rfl
@[simp] theorem State.setSym_errInfo (s : State) (i : Nat) (x : Symbol) :
    (s.setSym i x).errInfo = s.errInfo := rfl
@[simp] theorem State.setSym_inLen (s : State) (i : Nat) (x : Symbol) :
    (s.setSym i x).inLen = s.inLen := rfl
@[simp] theorem State.setSym_bitLen (s : State) (i : Nat) (x : Symbol) :
    (s.setSym i x).bitLen = s.bitLen := rfl
@[simp] theorem State.setSym_encLen (s : State) (i : Nat) (x : Symbol) :
    (s.setSym i x).encLen = s.encLen := rfl
@[simp] theorem State.setSym_outLen (s : State) (i : Nat) (x : Symbol) :
    (s.setSym i x).outLen = s.outLen := rfl
@[simp] theorem State.setSym_nsym (s : State) (i : Nat) (x : Symbol) :
    (s.setSym i x).nsym = s.nsym := rfl
@[simp] theorem State.setSym_ct (s : State) (i : Nat) (x : Symbol) : (s.setSym i x).ct = s.ct := rfl
@[simp] theorem State.setSym_it (s : State) (i : Nat) (x : Symbol) : (s.setSym i x).it = s.it := rfl
@[simp] theorem State.setSym_sym (s : State) (i : Nat) (x : Symbol) :
    (s.setSym i x).sym = Memory.write s.sym i x := rfl
@[simp] theorem State.setSym_bit (s : State) (i : Nat) (x : Symbol) :
    (s.setSym i x).bit = s.bit := rfl
@[simp] theorem State.setSym_out (s : State) (i : Nat) (x : Symbol) :
    (s.setSym i x).out = s.out := rfl
@[simp] theorem State.setSym_ctl (s : State) (i : Nat) (x : Symbol) :
    (s.setSym i x).ctl = s.ctl := rfl
@[simp] theorem State.setSym_work (s : State) (i : Nat) (x : Symbol) :
    (s.setSym i x).work = s.work := rfl
@[simp] theorem State.setSym_host (s : State) (i : Nat) (x : Symbol) :
    (s.setSym i x).host = s.host := rfl
@[simp] theorem State.setSym_vars (s : State) (i : Nat) (x : Symbol) :
    (s.setSym i x).vars = s.vars := rfl
@[simp] theorem State.setSym_turns (s : State) (i : Nat) (x : Symbol) :
    (s.setSym i x).turns = s.turns := rfl
@[simp] theorem State.setSym_draws (s : State) (i : Nat) (x : Symbol) :
    (s.setSym i x).draws = s.draws := rfl

/-! ### `State.setBit` -/

@[simp] theorem State.setBit_cfg (s : State) (j : Nat) (b : Bool) :
    (s.setBit j b).cfg = s.cfg := rfl
@[simp] theorem State.setBit_irqEn (s : State) (j : Nat) (b : Bool) :
    (s.setBit j b).irqEn = s.irqEn := rfl
@[simp] theorem State.setBit_cmd (s : State) (j : Nat) (b : Bool) :
    (s.setBit j b).cmd = s.cmd := rfl
@[simp] theorem State.setBit_done (s : State) (j : Nat) (b : Bool) :
    (s.setBit j b).done = s.done := rfl
@[simp] theorem State.setBit_built (s : State) (j : Nat) (b : Bool) :
    (s.setBit j b).built = s.built := rfl
@[simp] theorem State.setBit_errCode (s : State) (j : Nat) (b : Bool) :
    (s.setBit j b).errCode = s.errCode := rfl
@[simp] theorem State.setBit_errInfo (s : State) (j : Nat) (b : Bool) :
    (s.setBit j b).errInfo = s.errInfo := rfl
@[simp] theorem State.setBit_inLen (s : State) (j : Nat) (b : Bool) :
    (s.setBit j b).inLen = s.inLen := rfl
@[simp] theorem State.setBit_bitLen (s : State) (j : Nat) (b : Bool) :
    (s.setBit j b).bitLen = s.bitLen := rfl
@[simp] theorem State.setBit_encLen (s : State) (j : Nat) (b : Bool) :
    (s.setBit j b).encLen = s.encLen := rfl
@[simp] theorem State.setBit_outLen (s : State) (j : Nat) (b : Bool) :
    (s.setBit j b).outLen = s.outLen := rfl
@[simp] theorem State.setBit_nsym (s : State) (j : Nat) (b : Bool) :
    (s.setBit j b).nsym = s.nsym := rfl
@[simp] theorem State.setBit_ct (s : State) (j : Nat) (b : Bool) : (s.setBit j b).ct = s.ct := rfl
@[simp] theorem State.setBit_it (s : State) (j : Nat) (b : Bool) : (s.setBit j b).it = s.it := rfl
@[simp] theorem State.setBit_sym (s : State) (j : Nat) (b : Bool) :
    (s.setBit j b).sym = s.sym := rfl
@[simp] theorem State.setBit_bit (s : State) (j : Nat) (b : Bool) :
    (s.setBit j b).bit = Memory.write s.bit j b := rfl
@[simp] theorem State.setBit_out (s : State) (j : Nat) (b : Bool) :
    (s.setBit j b).out = s.out := rfl
@[simp] theorem State.setBit_ctl (s : State) (j : Nat) (b : Bool) :
    (s.setBit j b).ctl = s.ctl := rfl
@[simp] theorem State.setBit_work (s : State) (j : Nat) (b : Bool) :
    (s.setBit j b).work = s.work := rfl
@[simp] theorem State.setBit_host (s : State) (j : Nat) (b : Bool) :
    (s.setBit j b).host = s.host := rfl
@[simp] theorem State.setBit_vars (s : State) (j : Nat) (b : Bool) :
    (s.setBit j b).vars = s.vars := rfl
@[simp] theorem State.setBit_turns (s : State) (j : Nat) (b : Bool) :
    (s.setBit j b).turns = s.turns := rfl
@[simp] theorem State.setBit_draws (s : State) (j : Nat) (b : Bool) :
    (s.setBit j b).draws = s.draws := rfl

/-! ### `State.setVar` -/

@[simp] theorem State.setVar_cfg (s : State) (n : Nat) (v : Word) :
    (s.setVar n v).cfg = s.cfg := rfl
@[simp] theorem State.setVar_irqEn (s : State) (n : Nat) (v : Word) :
    (s.setVar n v).irqEn = s.irqEn := rfl
@[simp] theorem State.setVar_cmd (s : State) (n : Nat) (v : Word) :
    (s.setVar n v).cmd = s.cmd := rfl
@[simp] theorem State.setVar_done (s : State) (n : Nat) (v : Word) :
    (s.setVar n v).done = s.done := rfl
@[simp] theorem State.setVar_built (s : State) (n : Nat) (v : Word) :
    (s.setVar n v).built = s.built := rfl
@[simp] theorem State.setVar_errCode (s : State) (n : Nat) (v : Word) :
    (s.setVar n v).errCode = s.errCode := rfl
@[simp] theorem State.setVar_errInfo (s : State) (n : Nat) (v : Word) :
    (s.setVar n v).errInfo = s.errInfo := rfl
@[simp] theorem State.setVar_inLen (s : State) (n : Nat) (v : Word) :
    (s.setVar n v).inLen = s.inLen := rfl
@[simp] theorem State.setVar_bitLen (s : State) (n : Nat) (v : Word) :
    (s.setVar n v).bitLen = s.bitLen := rfl
@[simp] theorem State.setVar_encLen (s : State) (n : Nat) (v : Word) :
    (s.setVar n v).encLen = s.encLen := rfl
@[simp] theorem State.setVar_outLen (s : State) (n : Nat) (v : Word) :
    (s.setVar n v).outLen = s.outLen := rfl
@[simp] theorem State.setVar_nsym (s : State) (n : Nat) (v : Word) :
    (s.setVar n v).nsym = s.nsym := rfl
@[simp] theorem State.setVar_ct (s : State) (n : Nat) (v : Word) : (s.setVar n v).ct = s.ct := rfl
@[simp] theorem State.setVar_it (s : State) (n : Nat) (v : Word) : (s.setVar n v).it = s.it := rfl
@[simp] theorem State.setVar_sym (s : State) (n : Nat) (v : Word) :
    (s.setVar n v).sym = s.sym := rfl
@[simp] theorem State.setVar_bit (s : State) (n : Nat) (v : Word) :
    (s.setVar n v).bit = s.bit := rfl
@[simp] theorem State.setVar_out (s : State) (n : Nat) (v : Word) :
    (s.setVar n v).out = s.out := rfl
@[simp] theorem State.setVar_ctl (s : State) (n : Nat) (v : Word) :
    (s.setVar n v).ctl = s.ctl := rfl
@[simp] theorem State.setVar_work (s : State) (n : Nat) (v : Word) :
    (s.setVar n v).work = s.work := rfl
@[simp] theorem State.setVar_host (s : State) (n : Nat) (v : Word) :
    (s.setVar n v).host = s.host := rfl
@[simp] theorem State.setVar_vars (s : State) (n : Nat) (v : Word) :
    (s.setVar n v).vars = Memory.write s.vars n v := rfl
@[simp] theorem State.setVar_turns (s : State) (n : Nat) (v : Word) :
    (s.setVar n v).turns = s.turns := rfl
@[simp] theorem State.setVar_draws (s : State) (n : Nat) (v : Word) :
    (s.setVar n v).draws = s.draws := rfl

/-! ### `State.accept` -/

@[simp] theorem State.accept_cfg (s : State) (w : Word) : (s.accept w).cfg = s.cfg := rfl
@[simp] theorem State.accept_irqEn (s : State) (w : Word) : (s.accept w).irqEn = s.irqEn := rfl
@[simp] theorem State.accept_cmd (s : State) (w : Word) : (s.accept w).cmd = w := rfl
@[simp] theorem State.accept_done (s : State) (w : Word) : (s.accept w).done = false := rfl
@[simp] theorem State.accept_built (s : State) (w : Word) : (s.accept w).built = s.built := rfl
@[simp] theorem State.accept_errCode (s : State) (w : Word) : (s.accept w).errCode = .none := rfl
@[simp] theorem State.accept_errInfo (s : State) (w : Word) : (s.accept w).errInfo = 0 := rfl
@[simp] theorem State.accept_inLen (s : State) (w : Word) : (s.accept w).inLen = s.inLen := rfl
@[simp] theorem State.accept_bitLen (s : State) (w : Word) : (s.accept w).bitLen = s.bitLen := rfl
@[simp] theorem State.accept_encLen (s : State) (w : Word) : (s.accept w).encLen = s.encLen := rfl
@[simp] theorem State.accept_outLen (s : State) (w : Word) : (s.accept w).outLen = s.outLen := rfl
@[simp] theorem State.accept_nsym (s : State) (w : Word) : (s.accept w).nsym = s.nsym := rfl
@[simp] theorem State.accept_ct (s : State) (w : Word) : (s.accept w).ct = s.ct := rfl
@[simp] theorem State.accept_it (s : State) (w : Word) : (s.accept w).it = s.it := rfl
@[simp] theorem State.accept_sym (s : State) (w : Word) : (s.accept w).sym = s.sym := rfl
@[simp] theorem State.accept_bit (s : State) (w : Word) : (s.accept w).bit = s.bit := rfl
@[simp] theorem State.accept_out (s : State) (w : Word) : (s.accept w).out = s.out := rfl
@[simp] theorem State.accept_ctl (s : State) (w : Word) :
    (s.accept w).ctl = .busy { cmd := w, nIn := s.inLen, nBits := s.bitLen } := rfl
@[simp] theorem State.accept_work (s : State) (w : Word) : (s.accept w).work = s.work := rfl
@[simp] theorem State.accept_host (s : State) (w : Word) : (s.accept w).host = s.host := rfl
@[simp] theorem State.accept_vars (s : State) (w : Word) : (s.accept w).vars = s.vars := rfl
@[simp] theorem State.accept_turns (s : State) (w : Word) : (s.accept w).turns = s.turns := rfl
@[simp] theorem State.accept_draws (s : State) (w : Word) : (s.accept w).draws = s.draws := rfl

/-! ### `State.complete` -/

@[simp] theorem State.complete_cfg (s : State) (c : ErrCode) (n : Nat) :
    (s.complete c n).cfg = s.cfg := rfl
@[simp] theorem State.complete_irqEn (s : State) (c : ErrCode) (n : Nat) :
    (s.complete c n).irqEn = s.irqEn := rfl
@[simp] theorem State.complete_cmd (s : State) (c : ErrCode) (n : Nat) :
    (s.complete c n).cmd = s.cmd := rfl
@[simp] theorem State.complete_done (s : State) (c : ErrCode) (n : Nat) :
    (s.complete c n).done = true := rfl
@[simp] theorem State.complete_built (s : State) (c : ErrCode) (n : Nat) :
    (s.complete c n).built = s.built := rfl
@[simp] theorem State.complete_errCode (s : State) (c : ErrCode) (n : Nat) :
    (s.complete c n).errCode = c := rfl
@[simp] theorem State.complete_errInfo (s : State) (c : ErrCode) (n : Nat) :
    (s.complete c n).errInfo = BitVec.ofNat 32 n := rfl
@[simp] theorem State.complete_inLen (s : State) (c : ErrCode) (n : Nat) :
    (s.complete c n).inLen = s.inLen := rfl
@[simp] theorem State.complete_bitLen (s : State) (c : ErrCode) (n : Nat) :
    (s.complete c n).bitLen = s.bitLen := rfl
@[simp] theorem State.complete_encLen (s : State) (c : ErrCode) (n : Nat) :
    (s.complete c n).encLen = s.encLen := rfl
@[simp] theorem State.complete_outLen (s : State) (c : ErrCode) (n : Nat) :
    (s.complete c n).outLen = s.outLen := rfl
@[simp] theorem State.complete_nsym (s : State) (c : ErrCode) (n : Nat) :
    (s.complete c n).nsym = s.nsym := rfl
@[simp] theorem State.complete_ct (s : State) (c : ErrCode) (n : Nat) :
    (s.complete c n).ct = s.ct := rfl
@[simp] theorem State.complete_it (s : State) (c : ErrCode) (n : Nat) :
    (s.complete c n).it = s.it := rfl
@[simp] theorem State.complete_sym (s : State) (c : ErrCode) (n : Nat) :
    (s.complete c n).sym = s.sym := rfl
@[simp] theorem State.complete_bit (s : State) (c : ErrCode) (n : Nat) :
    (s.complete c n).bit = s.bit := rfl
@[simp] theorem State.complete_out (s : State) (c : ErrCode) (n : Nat) :
    (s.complete c n).out = s.out := rfl
@[simp] theorem State.complete_ctl (s : State) (c : ErrCode) (n : Nat) :
    (s.complete c n).ctl = .idle := rfl
@[simp] theorem State.complete_work (s : State) (c : ErrCode) (n : Nat) :
    (s.complete c n).work = s.work := rfl
@[simp] theorem State.complete_host (s : State) (c : ErrCode) (n : Nat) :
    (s.complete c n).host = s.host := rfl
@[simp] theorem State.complete_vars (s : State) (c : ErrCode) (n : Nat) :
    (s.complete c n).vars = s.vars := rfl
@[simp] theorem State.complete_turns (s : State) (c : ErrCode) (n : Nat) :
    (s.complete c n).turns = s.turns := rfl
@[simp] theorem State.complete_draws (s : State) (c : ErrCode) (n : Nat) :
    (s.complete c n).draws = s.draws := rfl

/-! ### `State.ack` -/

@[simp] theorem State.ack_cfg (s : State) : s.ack.cfg = s.cfg := rfl
@[simp] theorem State.ack_irqEn (s : State) : s.ack.irqEn = s.irqEn := rfl
@[simp] theorem State.ack_cmd (s : State) : s.ack.cmd = s.cmd := rfl
@[simp] theorem State.ack_done (s : State) : s.ack.done = false := rfl
@[simp] theorem State.ack_built (s : State) : s.ack.built = s.built := rfl
@[simp] theorem State.ack_errCode (s : State) : s.ack.errCode = s.errCode := rfl
@[simp] theorem State.ack_errInfo (s : State) : s.ack.errInfo = s.errInfo := rfl
@[simp] theorem State.ack_inLen (s : State) : s.ack.inLen = s.inLen := rfl
@[simp] theorem State.ack_bitLen (s : State) : s.ack.bitLen = s.bitLen := rfl
@[simp] theorem State.ack_encLen (s : State) : s.ack.encLen = s.encLen := rfl
@[simp] theorem State.ack_outLen (s : State) : s.ack.outLen = s.outLen := rfl
@[simp] theorem State.ack_nsym (s : State) : s.ack.nsym = s.nsym := rfl
@[simp] theorem State.ack_ct (s : State) : s.ack.ct = s.ct := rfl
@[simp] theorem State.ack_it (s : State) : s.ack.it = s.it := rfl
@[simp] theorem State.ack_sym (s : State) : s.ack.sym = s.sym := rfl
@[simp] theorem State.ack_bit (s : State) : s.ack.bit = s.bit := rfl
@[simp] theorem State.ack_out (s : State) : s.ack.out = s.out := rfl
@[simp] theorem State.ack_ctl (s : State) : s.ack.ctl = s.ctl := rfl
@[simp] theorem State.ack_work (s : State) : s.ack.work = s.work := rfl
@[simp] theorem State.ack_host (s : State) : s.ack.host = s.host := rfl
@[simp] theorem State.ack_vars (s : State) : s.ack.vars = s.vars := rfl
@[simp] theorem State.ack_turns (s : State) : s.ack.turns = s.turns := rfl
@[simp] theorem State.ack_draws (s : State) : s.ack.draws = s.draws := rfl

/-! ### `State.drawn` -/

@[simp] theorem State.drawn_cfg (s : State) : s.drawn.cfg = s.cfg := rfl
@[simp] theorem State.drawn_irqEn (s : State) : s.drawn.irqEn = s.irqEn := rfl
@[simp] theorem State.drawn_cmd (s : State) : s.drawn.cmd = s.cmd := rfl
@[simp] theorem State.drawn_done (s : State) : s.drawn.done = s.done := rfl
@[simp] theorem State.drawn_built (s : State) : s.drawn.built = s.built := rfl
@[simp] theorem State.drawn_errCode (s : State) : s.drawn.errCode = s.errCode := rfl
@[simp] theorem State.drawn_errInfo (s : State) : s.drawn.errInfo = s.errInfo := rfl
@[simp] theorem State.drawn_inLen (s : State) : s.drawn.inLen = s.inLen := rfl
@[simp] theorem State.drawn_bitLen (s : State) : s.drawn.bitLen = s.bitLen := rfl
@[simp] theorem State.drawn_encLen (s : State) : s.drawn.encLen = s.encLen := rfl
@[simp] theorem State.drawn_outLen (s : State) : s.drawn.outLen = s.outLen := rfl
@[simp] theorem State.drawn_nsym (s : State) : s.drawn.nsym = s.nsym := rfl
@[simp] theorem State.drawn_ct (s : State) : s.drawn.ct = s.ct := rfl
@[simp] theorem State.drawn_it (s : State) : s.drawn.it = s.it := rfl
@[simp] theorem State.drawn_sym (s : State) : s.drawn.sym = s.sym := rfl
@[simp] theorem State.drawn_bit (s : State) : s.drawn.bit = s.bit := rfl
@[simp] theorem State.drawn_out (s : State) : s.drawn.out = s.out := rfl
@[simp] theorem State.drawn_ctl (s : State) : s.drawn.ctl = s.ctl := rfl
@[simp] theorem State.drawn_work (s : State) : s.drawn.work = s.work := rfl
@[simp] theorem State.drawn_host (s : State) : s.drawn.host = s.host := rfl
@[simp] theorem State.drawn_vars (s : State) : s.drawn.vars = s.vars := rfl
@[simp] theorem State.drawn_turns (s : State) : s.drawn.turns = s.turns := rfl
@[simp] theorem State.drawn_draws (s : State) : s.drawn.draws = s.draws + 1 := rfl

/-! ### `State.popHost` -/

@[simp] theorem State.popHost_cfg (s : State) : s.popHost.cfg = s.cfg := rfl
@[simp] theorem State.popHost_irqEn (s : State) : s.popHost.irqEn = s.irqEn := rfl
@[simp] theorem State.popHost_cmd (s : State) : s.popHost.cmd = s.cmd := rfl
@[simp] theorem State.popHost_done (s : State) : s.popHost.done = s.done := rfl
@[simp] theorem State.popHost_built (s : State) : s.popHost.built = s.built := rfl
@[simp] theorem State.popHost_errCode (s : State) : s.popHost.errCode = s.errCode := rfl
@[simp] theorem State.popHost_errInfo (s : State) : s.popHost.errInfo = s.errInfo := rfl
@[simp] theorem State.popHost_inLen (s : State) : s.popHost.inLen = s.inLen := rfl
@[simp] theorem State.popHost_bitLen (s : State) : s.popHost.bitLen = s.bitLen := rfl
@[simp] theorem State.popHost_encLen (s : State) : s.popHost.encLen = s.encLen := rfl
@[simp] theorem State.popHost_outLen (s : State) : s.popHost.outLen = s.outLen := rfl
@[simp] theorem State.popHost_nsym (s : State) : s.popHost.nsym = s.nsym := rfl
@[simp] theorem State.popHost_ct (s : State) : s.popHost.ct = s.ct := rfl
@[simp] theorem State.popHost_it (s : State) : s.popHost.it = s.it := rfl
@[simp] theorem State.popHost_sym (s : State) : s.popHost.sym = s.sym := rfl
@[simp] theorem State.popHost_bit (s : State) : s.popHost.bit = s.bit := rfl
@[simp] theorem State.popHost_out (s : State) : s.popHost.out = s.out := rfl
@[simp] theorem State.popHost_ctl (s : State) : s.popHost.ctl = s.ctl := rfl
@[simp] theorem State.popHost_work (s : State) : s.popHost.work = s.work := rfl
@[simp] theorem State.popHost_host (s : State) : s.popHost.host = s.host.tail := rfl
@[simp] theorem State.popHost_vars (s : State) : s.popHost.vars = s.vars := rfl
@[simp] theorem State.popHost_turns (s : State) : s.popHost.turns = s.turns := rfl
@[simp] theorem State.popHost_draws (s : State) : s.popHost.draws = s.draws := rfl

/-! ### `treeBuilder` -/

@[simp] theorem treeBuilder_cfg (xs : List Symbol) (s : State) :
    (treeBuilder xs s).cfg = s.cfg := rfl
@[simp] theorem treeBuilder_irqEn (xs : List Symbol) (s : State) :
    (treeBuilder xs s).irqEn = s.irqEn := rfl
@[simp] theorem treeBuilder_cmd (xs : List Symbol) (s : State) :
    (treeBuilder xs s).cmd = s.cmd := rfl
@[simp] theorem treeBuilder_done (xs : List Symbol) (s : State) :
    (treeBuilder xs s).done = s.done := rfl
@[simp] theorem treeBuilder_built (xs : List Symbol) (s : State) :
    (treeBuilder xs s).built = s.built := rfl
@[simp] theorem treeBuilder_errCode (xs : List Symbol) (s : State) :
    (treeBuilder xs s).errCode = s.errCode := rfl
@[simp] theorem treeBuilder_errInfo (xs : List Symbol) (s : State) :
    (treeBuilder xs s).errInfo = s.errInfo := rfl
@[simp] theorem treeBuilder_inLen (xs : List Symbol) (s : State) :
    (treeBuilder xs s).inLen = s.inLen := rfl
@[simp] theorem treeBuilder_bitLen (xs : List Symbol) (s : State) :
    (treeBuilder xs s).bitLen = s.bitLen := rfl
@[simp] theorem treeBuilder_encLen (xs : List Symbol) (s : State) :
    (treeBuilder xs s).encLen = s.encLen := rfl
@[simp] theorem treeBuilder_outLen (xs : List Symbol) (s : State) :
    (treeBuilder xs s).outLen = s.outLen := rfl
@[simp] theorem treeBuilder_nsym (xs : List Symbol) (s : State) :
    (treeBuilder xs s).nsym = s.nsym := rfl
@[simp] theorem treeBuilder_ct (xs : List Symbol) (s : State) : (treeBuilder xs s).ct = s.ct := rfl
@[simp] theorem treeBuilder_it (xs : List Symbol) (s : State) : (treeBuilder xs s).it = s.it := rfl
@[simp] theorem treeBuilder_sym (xs : List Symbol) (s : State) :
    (treeBuilder xs s).sym = s.sym := rfl
@[simp] theorem treeBuilder_bit (xs : List Symbol) (s : State) :
    (treeBuilder xs s).bit = s.bit := rfl
@[simp] theorem treeBuilder_out (xs : List Symbol) (s : State) :
    (treeBuilder xs s).out = s.out := rfl
@[simp] theorem treeBuilder_ctl (xs : List Symbol) (s : State) :
    (treeBuilder xs s).ctl = s.ctl := rfl
@[simp] theorem treeBuilder_work (xs : List Symbol) (s : State) :
    (treeBuilder xs s).work = { s.work with
      freq := countSymbols xs
      queue := if 2 ≤ (countSymbols xs).length then mergeTree (countSymbols xs) else [] } := rfl
@[simp] theorem treeBuilder_host (xs : List Symbol) (s : State) :
    (treeBuilder xs s).host = s.host := rfl
@[simp] theorem treeBuilder_vars (xs : List Symbol) (s : State) :
    (treeBuilder xs s).vars = s.vars := rfl
@[simp] theorem treeBuilder_turns (xs : List Symbol) (s : State) :
    (treeBuilder xs s).turns = s.turns := rfl
@[simp] theorem treeBuilder_draws (xs : List Symbol) (s : State) :
    (treeBuilder xs s).draws = s.draws := rfl

/-! ### `codeTableGen` -/

@[simp] theorem codeTableGen_cfg (s : State) : (codeTableGen s).cfg = s.cfg := rfl
@[simp] theorem codeTableGen_irqEn (s : State) : (codeTableGen s).irqEn = s.irqEn := rfl
@[simp] theorem codeTableGen_cmd (s : State) : (codeTableGen s).cmd = s.cmd := rfl
@[simp] theorem codeTableGen_done (s : State) : (codeTableGen s).done = s.done := rfl
@[simp] theorem codeTableGen_built (s : State) : (codeTableGen s).built = s.built := rfl
@[simp] theorem codeTableGen_errCode (s : State) : (codeTableGen s).errCode = s.errCode := rfl
@[simp] theorem codeTableGen_errInfo (s : State) : (codeTableGen s).errInfo = s.errInfo := rfl
@[simp] theorem codeTableGen_inLen (s : State) : (codeTableGen s).inLen = s.inLen := rfl
@[simp] theorem codeTableGen_bitLen (s : State) : (codeTableGen s).bitLen = s.bitLen := rfl
@[simp] theorem codeTableGen_encLen (s : State) : (codeTableGen s).encLen = s.encLen := rfl
@[simp] theorem codeTableGen_outLen (s : State) : (codeTableGen s).outLen = s.outLen := rfl
@[simp] theorem codeTableGen_nsym (s : State) : (codeTableGen s).nsym = s.nsym := rfl
@[simp] theorem codeTableGen_ct (s : State) :
    (codeTableGen s).ct = codeTable (codeList s.work.freq s.work.queue) := rfl
@[simp] theorem codeTableGen_it (s : State) :
    (codeTableGen s).it = inverseTable (codeList s.work.freq s.work.queue) := rfl
@[simp] theorem codeTableGen_sym (s : State) : (codeTableGen s).sym = s.sym := rfl
@[simp] theorem codeTableGen_bit (s : State) : (codeTableGen s).bit = s.bit := rfl
@[simp] theorem codeTableGen_out (s : State) : (codeTableGen s).out = s.out := rfl
@[simp] theorem codeTableGen_ctl (s : State) : (codeTableGen s).ctl = s.ctl := rfl
@[simp] theorem codeTableGen_work (s : State) : (codeTableGen s).work = s.work := rfl
@[simp] theorem codeTableGen_host (s : State) : (codeTableGen s).host = s.host := rfl
@[simp] theorem codeTableGen_vars (s : State) : (codeTableGen s).vars = s.vars := rfl
@[simp] theorem codeTableGen_turns (s : State) : (codeTableGen s).turns = s.turns := rfl
@[simp] theorem codeTableGen_draws (s : State) : (codeTableGen s).draws = s.draws := rfl

/-! ### `commitBuild` -/

@[simp] theorem commitBuild_cfg (s : State) : (commitBuild s).cfg = s.cfg := rfl
@[simp] theorem commitBuild_irqEn (s : State) : (commitBuild s).irqEn = s.irqEn := rfl
@[simp] theorem commitBuild_cmd (s : State) : (commitBuild s).cmd = s.cmd := rfl
@[simp] theorem commitBuild_done (s : State) : (commitBuild s).done = s.done := rfl
@[simp] theorem commitBuild_built (s : State) : (commitBuild s).built = true := rfl
@[simp] theorem commitBuild_errCode (s : State) : (commitBuild s).errCode = s.errCode := rfl
@[simp] theorem commitBuild_errInfo (s : State) : (commitBuild s).errInfo = s.errInfo := rfl
@[simp] theorem commitBuild_inLen (s : State) : (commitBuild s).inLen = s.inLen := rfl
@[simp] theorem commitBuild_bitLen (s : State) : (commitBuild s).bitLen = s.bitLen := rfl
@[simp] theorem commitBuild_encLen (s : State) : (commitBuild s).encLen = s.encLen := rfl
@[simp] theorem commitBuild_outLen (s : State) : (commitBuild s).outLen = s.outLen := rfl
@[simp] theorem commitBuild_nsym (s : State) :
    (commitBuild s).nsym = BitVec.ofNat 32 s.work.freq.length := rfl
@[simp] theorem commitBuild_ct (s : State) : (commitBuild s).ct = s.ct := rfl
@[simp] theorem commitBuild_it (s : State) : (commitBuild s).it = s.it := rfl
@[simp] theorem commitBuild_sym (s : State) : (commitBuild s).sym = s.sym := rfl
@[simp] theorem commitBuild_bit (s : State) : (commitBuild s).bit = s.bit := rfl
@[simp] theorem commitBuild_out (s : State) : (commitBuild s).out = s.out := rfl
@[simp] theorem commitBuild_ctl (s : State) : (commitBuild s).ctl = s.ctl := rfl
@[simp] theorem commitBuild_work (s : State) : (commitBuild s).work = s.work := rfl
@[simp] theorem commitBuild_host (s : State) : (commitBuild s).host = s.host := rfl
@[simp] theorem commitBuild_vars (s : State) : (commitBuild s).vars = s.vars := rfl
@[simp] theorem commitBuild_turns (s : State) : (commitBuild s).turns = s.turns := rfl
@[simp] theorem commitBuild_draws (s : State) : (commitBuild s).draws = s.draws := rfl

/-! ### `storeEncoded` -/

@[simp] theorem storeEncoded_cfg (bs : Bits) (s : State) : (storeEncoded bs s).cfg = s.cfg := rfl
@[simp] theorem storeEncoded_irqEn (bs : Bits) (s : State) :
    (storeEncoded bs s).irqEn = s.irqEn := rfl
@[simp] theorem storeEncoded_cmd (bs : Bits) (s : State) : (storeEncoded bs s).cmd = s.cmd := rfl
@[simp] theorem storeEncoded_done (bs : Bits) (s : State) : (storeEncoded bs s).done = s.done := rfl
@[simp] theorem storeEncoded_built (bs : Bits) (s : State) :
    (storeEncoded bs s).built = s.built := rfl
@[simp] theorem storeEncoded_errCode (bs : Bits) (s : State) :
    (storeEncoded bs s).errCode = s.errCode := rfl
@[simp] theorem storeEncoded_errInfo (bs : Bits) (s : State) :
    (storeEncoded bs s).errInfo = s.errInfo := rfl
@[simp] theorem storeEncoded_inLen (bs : Bits) (s : State) :
    (storeEncoded bs s).inLen = s.inLen := rfl
@[simp] theorem storeEncoded_bitLen (bs : Bits) (s : State) :
    (storeEncoded bs s).bitLen = s.bitLen := rfl
@[simp] theorem storeEncoded_encLen (bs : Bits) (s : State) :
    (storeEncoded bs s).encLen = BitVec.ofNat 32 bs.length := rfl
@[simp] theorem storeEncoded_outLen (bs : Bits) (s : State) :
    (storeEncoded bs s).outLen = s.outLen := rfl
@[simp] theorem storeEncoded_nsym (bs : Bits) (s : State) : (storeEncoded bs s).nsym = s.nsym := rfl
@[simp] theorem storeEncoded_ct (bs : Bits) (s : State) : (storeEncoded bs s).ct = s.ct := rfl
@[simp] theorem storeEncoded_it (bs : Bits) (s : State) : (storeEncoded bs s).it = s.it := rfl
@[simp] theorem storeEncoded_sym (bs : Bits) (s : State) : (storeEncoded bs s).sym = s.sym := rfl
@[simp] theorem storeEncoded_bit (bs : Bits) (s : State) :
    (storeEncoded bs s).bit = Memory.writeSeq s.bit 0 bs := rfl
@[simp] theorem storeEncoded_out (bs : Bits) (s : State) : (storeEncoded bs s).out = s.out := rfl
@[simp] theorem storeEncoded_ctl (bs : Bits) (s : State) : (storeEncoded bs s).ctl = s.ctl := rfl
@[simp] theorem storeEncoded_work (bs : Bits) (s : State) : (storeEncoded bs s).work = s.work := rfl
@[simp] theorem storeEncoded_host (bs : Bits) (s : State) : (storeEncoded bs s).host = s.host := rfl
@[simp] theorem storeEncoded_vars (bs : Bits) (s : State) : (storeEncoded bs s).vars = s.vars := rfl
@[simp] theorem storeEncoded_turns (bs : Bits) (s : State) :
    (storeEncoded bs s).turns = s.turns := rfl
@[simp] theorem storeEncoded_draws (bs : Bits) (s : State) :
    (storeEncoded bs s).draws = s.draws := rfl

/-! ### `storeDecoded` -/

@[simp] theorem storeDecoded_cfg (d : Decoded) (s : State) : (storeDecoded d s).cfg = s.cfg := rfl
@[simp] theorem storeDecoded_irqEn (d : Decoded) (s : State) :
    (storeDecoded d s).irqEn = s.irqEn := rfl
@[simp] theorem storeDecoded_cmd (d : Decoded) (s : State) : (storeDecoded d s).cmd = s.cmd := rfl
@[simp] theorem storeDecoded_done (d : Decoded) (s : State) :
    (storeDecoded d s).done = s.done := rfl
@[simp] theorem storeDecoded_built (d : Decoded) (s : State) :
    (storeDecoded d s).built = s.built := rfl
@[simp] theorem storeDecoded_errCode (d : Decoded) (s : State) :
    (storeDecoded d s).errCode = s.errCode := rfl
@[simp] theorem storeDecoded_errInfo (d : Decoded) (s : State) :
    (storeDecoded d s).errInfo = s.errInfo := rfl
@[simp] theorem storeDecoded_inLen (d : Decoded) (s : State) :
    (storeDecoded d s).inLen = s.inLen := rfl
@[simp] theorem storeDecoded_bitLen (d : Decoded) (s : State) :
    (storeDecoded d s).bitLen = s.bitLen := rfl
@[simp] theorem storeDecoded_encLen (d : Decoded) (s : State) :
    (storeDecoded d s).encLen = s.encLen := rfl
@[simp] theorem storeDecoded_outLen (d : Decoded) (s : State) :
    (storeDecoded d s).outLen = BitVec.ofNat 32 d.syms.length := rfl
@[simp] theorem storeDecoded_nsym (d : Decoded) (s : State) :
    (storeDecoded d s).nsym = s.nsym := rfl
@[simp] theorem storeDecoded_ct (d : Decoded) (s : State) : (storeDecoded d s).ct = s.ct := rfl
@[simp] theorem storeDecoded_it (d : Decoded) (s : State) : (storeDecoded d s).it = s.it := rfl
@[simp] theorem storeDecoded_sym (d : Decoded) (s : State) : (storeDecoded d s).sym = s.sym := rfl
@[simp] theorem storeDecoded_bit (d : Decoded) (s : State) : (storeDecoded d s).bit = s.bit := rfl
@[simp] theorem storeDecoded_out (d : Decoded) (s : State) :
    (storeDecoded d s).out = Memory.writeSeq s.out 0 d.syms := rfl
@[simp] theorem storeDecoded_ctl (d : Decoded) (s : State) : (storeDecoded d s).ctl = s.ctl := rfl
@[simp] theorem storeDecoded_work (d : Decoded) (s : State) :
    (storeDecoded d s).work = { s.work with cand := d.cand, start := d.start } := rfl
@[simp] theorem storeDecoded_host (d : Decoded) (s : State) :
    (storeDecoded d s).host = s.host := rfl
@[simp] theorem storeDecoded_vars (d : Decoded) (s : State) :
    (storeDecoded d s).vars = s.vars := rfl
@[simp] theorem storeDecoded_turns (d : Decoded) (s : State) :
    (storeDecoded d s).turns = s.turns := rfl
@[simp] theorem storeDecoded_draws (d : Decoded) (s : State) :
    (storeDecoded d s).draws = s.draws := rfl

/-! ### `State.resetInput` -/

@[simp] theorem State.resetInput_cfg (s : State) : s.resetInput.cfg = s.cfg := rfl
@[simp] theorem State.resetInput_irqEn (s : State) : s.resetInput.irqEn = false := rfl
@[simp] theorem State.resetInput_cmd (s : State) : s.resetInput.cmd = 0 := rfl
@[simp] theorem State.resetInput_done (s : State) : s.resetInput.done = false := rfl
@[simp] theorem State.resetInput_built (s : State) : s.resetInput.built = false := rfl
@[simp] theorem State.resetInput_errCode (s : State) : s.resetInput.errCode = .none := rfl
@[simp] theorem State.resetInput_errInfo (s : State) : s.resetInput.errInfo = 0 := rfl
@[simp] theorem State.resetInput_inLen (s : State) : s.resetInput.inLen = 0 := rfl
@[simp] theorem State.resetInput_bitLen (s : State) : s.resetInput.bitLen = 0 := rfl
@[simp] theorem State.resetInput_encLen (s : State) : s.resetInput.encLen = 0 := rfl
@[simp] theorem State.resetInput_outLen (s : State) : s.resetInput.outLen = 0 := rfl
@[simp] theorem State.resetInput_nsym (s : State) : s.resetInput.nsym = 0 := rfl
@[simp] theorem State.resetInput_ct (s : State) : s.resetInput.ct = [] := rfl
@[simp] theorem State.resetInput_it (s : State) : s.resetInput.it = [] := rfl
@[simp] theorem State.resetInput_sym (s : State) : s.resetInput.sym = [] := rfl
@[simp] theorem State.resetInput_bit (s : State) : s.resetInput.bit = [] := rfl
@[simp] theorem State.resetInput_out (s : State) : s.resetInput.out = [] := rfl
@[simp] theorem State.resetInput_ctl (s : State) : s.resetInput.ctl = .idle := rfl
@[simp] theorem State.resetInput_work (s : State) : s.resetInput.work = Work.empty := rfl
@[simp] theorem State.resetInput_host (s : State) : s.resetInput.host = s.host := rfl
@[simp] theorem State.resetInput_vars (s : State) : s.resetInput.vars = s.vars := rfl
@[simp] theorem State.resetInput_turns (s : State) : s.resetInput.turns = s.turns := rfl
@[simp] theorem State.resetInput_draws (s : State) : s.resetInput.draws = s.draws := rfl

/-! ### `State.popTurn` -/

@[simp] theorem State.popTurn_cfg (s : State) : s.popTurn.cfg = s.cfg := by
  unfold State.popTurn; split <;> rfl
@[simp] theorem State.popTurn_irqEn (s : State) : s.popTurn.irqEn = s.irqEn := by
  unfold State.popTurn; split <;> rfl
@[simp] theorem State.popTurn_cmd (s : State) : s.popTurn.cmd = s.cmd := by
  unfold State.popTurn; split <;> rfl
@[simp] theorem State.popTurn_done (s : State) : s.popTurn.done = s.done := by
  unfold State.popTurn; split <;> rfl
@[simp] theorem State.popTurn_built (s : State) : s.popTurn.built = s.built := by
  unfold State.popTurn; split <;> rfl
@[simp] theorem State.popTurn_errCode (s : State) : s.popTurn.errCode = s.errCode := by
  unfold State.popTurn; split <;> rfl
@[simp] theorem State.popTurn_errInfo (s : State) : s.popTurn.errInfo = s.errInfo := by
  unfold State.popTurn; split <;> rfl
@[simp] theorem State.popTurn_inLen (s : State) : s.popTurn.inLen = s.inLen := by
  unfold State.popTurn; split <;> rfl
@[simp] theorem State.popTurn_bitLen (s : State) : s.popTurn.bitLen = s.bitLen := by
  unfold State.popTurn; split <;> rfl
@[simp] theorem State.popTurn_encLen (s : State) : s.popTurn.encLen = s.encLen := by
  unfold State.popTurn; split <;> rfl
@[simp] theorem State.popTurn_outLen (s : State) : s.popTurn.outLen = s.outLen := by
  unfold State.popTurn; split <;> rfl
@[simp] theorem State.popTurn_nsym (s : State) : s.popTurn.nsym = s.nsym := by
  unfold State.popTurn; split <;> rfl
@[simp] theorem State.popTurn_ct (s : State) : s.popTurn.ct = s.ct := by
  unfold State.popTurn; split <;> rfl
@[simp] theorem State.popTurn_it (s : State) : s.popTurn.it = s.it := by
  unfold State.popTurn; split <;> rfl
@[simp] theorem State.popTurn_sym (s : State) : s.popTurn.sym = s.sym := by
  unfold State.popTurn; split <;> rfl
@[simp] theorem State.popTurn_bit (s : State) : s.popTurn.bit = s.bit := by
  unfold State.popTurn; split <;> rfl
@[simp] theorem State.popTurn_out (s : State) : s.popTurn.out = s.out := by
  unfold State.popTurn; split <;> rfl
@[simp] theorem State.popTurn_ctl (s : State) : s.popTurn.ctl = s.ctl := by
  unfold State.popTurn; split <;> rfl
@[simp] theorem State.popTurn_work (s : State) : s.popTurn.work = s.work := by
  unfold State.popTurn; split <;> rfl
@[simp] theorem State.popTurn_host (s : State) : s.popTurn.host = s.host := by
  unfold State.popTurn; split <;> rfl
@[simp] theorem State.popTurn_vars (s : State) : s.popTurn.vars = s.vars := by
  unfold State.popTurn; split <;> rfl
theorem State.popTurn_turns (s : State) (h : s.busy = true) : s.popTurn.turns = s.turns.tail := by
  simp [State.popTurn, h]
@[simp] theorem State.popTurn_draws (s : State) : s.popTurn.draws = s.draws := by
  unfold State.popTurn; split <;> rfl

/-- An idle machine uses up no turn. -/
theorem State.popTurn_idle (s : State) (h : s.busy = false) : s.popTurn = s := by
  simp [State.popTurn, h]

/-! ### The controller and the flags -/

theorem State.busy_eq_true_iff (s : State) : s.busy = true ↔ ∃ sn, s.ctl = .busy sn := by
  unfold State.busy; split <;> simp_all

theorem State.busy_eq_false_iff (s : State) : s.busy = false ↔ s.ctl = .idle := by
  unfold State.busy; split <;> simp_all

/-- A command executes with its snapshot (R112). -/
theorem State.snapshot_of_busy {s : State} {sn : Snapshot} (h : s.ctl = .busy sn) :
    s.snapshot = sn := by simp [State.snapshot, h]

theorem State.err_eq_true_iff (s : State) : s.err = true ↔ s.errCode ≠ .none := by
  cases h : s.errCode <;> simp [State.err, ErrCode.code, h]

/-- The code table is a partial function of the symbol. -/
theorem State.codeOf_eq_some_iff (s : State) (x : Symbol) (c : Bits) :
    s.codeOf x = some c ↔ ∃ e, s.ctEntry x = some e ∧ e.bits = c := by
  simp [State.codeOf]

end Sys2Proof.Machine
end

