-- ==== Sys2Proof/Laws/Code.lean ====
section
/-! SUPPORT. Code storage (R40, R151): the entry of a path stores the path, and an entry is what it
stores. -/

namespace Sys2Proof.Machine

theorem packBits_lt (p : Bits) : packBits p < 2 ^ p.length := by
  induction p with
  | nil => simp [packBits]
  | cons b p ih =>
    have : b.toNat ≤ 1 := by cases b <;> simp
    simp only [packBits, List.length_cons, Nat.pow_succ]
    omega

/-- Digit `j` of the packed number is token `j`. -/
theorem packBits_testBit (p : Bits) (j : Nat) : (packBits p).testBit j = p.getD j false := by
  induction p generalizing j with
  | nil => simp [packBits]
  | cons b p ih =>
    cases j with
    | zero => cases b <;> simp [packBits, Nat.testBit_zero]
    | succ j =>
      have : (b.toNat + 2 * packBits p) / 2 = packBits p := by
        have : b.toNat ≤ 1 := by cases b <;> simp
        omega
      simp [packBits, Nat.testBit_succ, this, ih]

@[simp] theorem CodeEntry.length_bits (e : CodeEntry) : e.bits.length = e.len.toNat := by
  simp [CodeEntry.bits]

theorem CodeEntry.getElem?_bits (e : CodeEntry) (j : Nat) (h : j < e.len.toNat) :
    e.bits[j]? = some (e.code.getLsbD j) := by
  simp [CodeEntry.bits, h]

theorem CodeEntry.len_ofPath (p : Bits) (h : p.length ≤ 4095) :
    (CodeEntry.ofPath p).len.toNat = p.length := by
  simp only [CodeEntry.ofPath, BitVec.toNat_ofNat]
  exact Nat.mod_eq_of_lt (by omega)

theorem toNat_ofNat_of_lt {w k n : Nat} (hn : n < 2 ^ k) (hk : k ≤ w) :
    (BitVec.ofNat w n).toNat = n := by
  rw [BitVec.toNat_ofNat]
  exact Nat.mod_eq_of_lt (lt_of_lt_of_le hn (Nat.pow_le_pow_right Nat.two_pos hk))

theorem CodeEntry.code_ofPath_toNat (p : Bits) (h : p.length ≤ 4095) :
    (CodeEntry.ofPath p).code.toNat = packBits p := by
  exact toNat_ofNat_of_lt (packBits_lt p) h

/-- `CODE[j]` is token `j` of the path, and 0 behind its end (R151). -/
theorem CodeEntry.code_ofPath (p : Bits) (h : p.length ≤ 4095) (j : Nat) :
    (CodeEntry.ofPath p).code.getLsbD j = p.getD j false := by
  rw [BitVec.getLsbD, CodeEntry.code_ofPath_toNat p h, packBits_testBit]

/-- The entry of a path stores the path. -/
theorem CodeEntry.bits_ofPath (p : Bits) (h : p.length ≤ 4095) : (CodeEntry.ofPath p).bits = p := by
  refine List.ext_getElem? (fun j => ?_)
  by_cases hj : j < p.length
  · rw [CodeEntry.getElem?_bits _ _ (by rwa [CodeEntry.len_ofPath p h]), CodeEntry.code_ofPath p h,
      List.getElem?_eq_getElem hj]
    simp [List.getD_eq_getElem?_getD, hj]
  · rw [List.getElem?_eq_none (by simpa [CodeEntry.len_ofPath p h] using hj),
      List.getElem?_eq_none (by simpa using hj)]

/-- The bits of `CODE` at and above `LEN` are 0. -/
theorem CodeEntry.high_ofPath (p : Bits) (h : p.length ≤ 4095) :
    (CodeEntry.ofPath p).code.toNat < 2 ^ (CodeEntry.ofPath p).len.toNat := by
  rw [CodeEntry.code_ofPath_toNat p h, CodeEntry.len_ofPath p h]
  exact packBits_lt p

/-! ### The inverse table as a list -/

theorem itLookup_eq_some {t : List (Bits × Symbol)} {c : Bits} {x : Symbol}
    (h : itLookup t c = some x) : (c, x) ∈ t := by
  induction t with
  | nil => simp [itLookup] at h
  | cons a t ih =>
    obtain ⟨p, y⟩ := a
    simp only [itLookup] at h
    split at h
    · subst_vars
      cases h
      exact List.mem_cons_self
    · exact List.mem_cons_of_mem _ (ih h)

/-- In a table without two entries for one code, every entry is what its code looks up. -/
theorem itLookup_of_mem {t : List (Bits × Symbol)} (h : (t.map Prod.fst).Nodup) {c : Bits}
    {x : Symbol} (hm : (c, x) ∈ t) : itLookup t c = some x := by
  induction t with
  | nil => simp at hm
  | cons a t ih =>
    obtain ⟨p, y⟩ := a
    simp only [List.map_cons, List.nodup_cons] at h
    rcases List.mem_cons.mp hm with heq | hm
    · cases heq
      simp [itLookup]
    · have hne : p ≠ c := fun heq => h.1 (heq ▸ List.mem_map_of_mem hm)
      simpa [itLookup, hne] using ih h.2 hm

end Sys2Proof.Machine
end

