-- ==== Sys2Proof/Laws/Memory.lean ====
section
/-! SUPPORT. Element memory: what a write leaves at every index, that every operation keeps the
canonical form, and what an operand sequence is. -/

namespace Sys2Proof.Machine

variable {α : Type}

/-! ### One element -/

@[simp] theorem Memory.read_nil (i : Nat) : Memory.read ([] : Memory α) i = none := rfl

/-- What a write leaves at any index: the new element there, the old one elsewhere. -/
theorem Memory.read_write (m : Memory α) (h : Memory.wf m) (i j : Nat) (v : α) :
    Memory.read (Memory.write m i v) j = if i = j then some v else Memory.read m j := by
  induction m with
  | nil => simp [Memory.write, Memory.read]
  | cons c m ih =>
    obtain ⟨k, u⟩ := c
    have hm := List.pairwise_cons.mp h
    simp only [Memory.write]
    split
    · simp [Memory.read]
    · split
      · subst_vars
        by_cases hij : k = j <;> simp [Memory.read, hij]
      · simp only [Memory.read, ih hm.2]
        by_cases hkj : k = j
        · have : i ≠ j := by omega
          simp [hkj, this]
        · simp [hkj]

theorem Memory.read_write_same (m : Memory α) (h : Memory.wf m) (i : Nat) (v : α) :
    Memory.read (Memory.write m i v) i = some v := by simp [Memory.read_write m h]

theorem Memory.read_write_other (m : Memory α) (h : Memory.wf m) {i j : Nat} (hij : i ≠ j) (v : α) :
    Memory.read (Memory.write m i v) j = Memory.read m j := by simp [Memory.read_write m h, hij]

/-- A cell of a written memory is the written one or an old one. -/
theorem Memory.mem_write {m : Memory α} {i : Nat} {v : α} {c : Nat × α}
    (hc : c ∈ Memory.write m i v) : c = (i, v) ∨ c ∈ m := by
  induction m with
  | nil => simpa [Memory.write] using hc
  | cons d m ih =>
    simp only [Memory.write] at hc
    split at hc
    · simpa using hc
    · split at hc
      · rcases List.mem_cons.mp hc with h | h
        · exact .inl h
        · exact .inr (List.mem_cons_of_mem _ h)
      · rcases List.mem_cons.mp hc with h | h
        · exact .inr (h ▸ List.mem_cons_self)
        · exact (ih h).imp_right (List.mem_cons_of_mem _)

/-- A write keeps the canonical form. -/
theorem Memory.wf_write {m : Memory α} (h : Memory.wf m) (i : Nat) (v : α) :
    Memory.wf (Memory.write m i v) := by
  induction m with
  | nil => simp [Memory.write]
  | cons c m ih =>
    obtain ⟨k, u⟩ := c
    have hm := List.pairwise_cons.mp h
    simp only [Memory.write]
    split
    · refine List.pairwise_cons.mpr ⟨fun d hd => ?_, h⟩
      rcases List.mem_cons.mp hd with rfl | hd
      · assumption
      · exact Nat.lt_trans ‹_› (hm.1 d hd)
    · split
      · subst_vars
        exact List.pairwise_cons.mpr ⟨hm.1, hm.2⟩
      · refine List.pairwise_cons.mpr ⟨fun d hd => ?_, ih hm.2⟩
        rcases Memory.mem_write hd with rfl | hd
        · show k < i
          omega
        · exact hm.1 d hd

/-- A read that answers found its cell. -/
theorem Memory.mem_of_read {m : Memory α} {i : Nat} {v : α} (h : Memory.read m i = some v) :
    (i, v) ∈ m := by
  induction m with
  | nil => simp at h
  | cons c m ih =>
    obtain ⟨k, u⟩ := c
    simp only [Memory.read] at h
    split at h
    · subst_vars
      cases h
      exact List.mem_cons_self
    · exact List.mem_cons_of_mem _ (ih h)

/-- In canonical form every cell is what a read of its index answers. -/
theorem Memory.read_of_mem {m : Memory α} (h : Memory.wf m) {c : Nat × α} (hc : c ∈ m) :
    Memory.read m c.1 = some c.2 := by
  induction m with
  | nil => simp at hc
  | cons d m ih =>
    have hm := List.pairwise_cons.mp h
    rcases List.mem_cons.mp hc with rfl | hc
    · simp [Memory.read]
    · have := hm.1 c hc
      have hne : d.1 ≠ c.1 := by omega
      simpa [Memory.read, hne] using ih hm.2 hc

/-- Memories in canonical form with equal reads are equal. -/
theorem Memory.ext_of_read {m n : Memory α} (hm : Memory.wf m) (hn : Memory.wf n)
    (h : ∀ i, Memory.read m i = Memory.read n i) : m = n := by
  have nd : ∀ {l : Memory α}, Memory.wf l → l.Nodup := fun hl =>
    hl.imp (fun hab heq => by rw [heq] at hab; exact lt_irrefl _ hab)
  have mem : ∀ c, c ∈ m ↔ c ∈ n := fun c =>
    ⟨fun hc => Memory.mem_of_read (h c.1 ▸ Memory.read_of_mem hm hc),
     fun hc => Memory.mem_of_read (h c.1 ▸ Memory.read_of_mem hn hc)⟩
  exact ((List.perm_ext_iff_of_nodup (nd hm) (nd hn)).mpr mem).eq_of_pairwise
    (fun a b _ _ h1 h2 => absurd h1 (Nat.lt_asymm h2)) hm hn

theorem Memory.within_write {m : Memory α} {n i : Nat} (h : Memory.within m n) (hi : i < n) (v : α) :
    Memory.within (Memory.write m i v) n := fun c hc => by
  rcases Memory.mem_write hc with rfl | hc
  · exact hi
  · exact h c hc

/-! ### Consecutive elements -/

theorem Memory.wf_writeSeq {m : Memory α} (h : Memory.wf m) (i : Nat) (vs : List α) :
    Memory.wf (Memory.writeSeq m i vs) := by
  induction vs generalizing m i with
  | nil => exact h
  | cons v vs ih => exact ih (Memory.wf_write h i v) (i + 1)

/-- What a write of consecutive elements leaves at any index. -/
theorem Memory.read_writeSeq (m : Memory α) (h : Memory.wf m) (i j : Nat) (vs : List α) :
    Memory.read (Memory.writeSeq m i vs) j =
      if i ≤ j ∧ j < i + vs.length then vs[j - i]? else Memory.read m j := by
  induction vs generalizing m i with
  | nil =>
    simp [Memory.writeSeq]
  | cons v vs ih =>
    simp only [Memory.writeSeq, ih _ (Memory.wf_write h i v), Memory.read_write m h,
      List.length_cons]
    by_cases hij : i = j
    · subst hij
      simp
    · by_cases hj : i + 1 ≤ j ∧ j < i + 1 + vs.length
      · have h2 : i ≤ j ∧ j < i + (vs.length + 1) := by omega
        have h3 : j - i = (j - (i + 1)) + 1 := by omega
        simp only [if_pos hj, if_pos h2]
        rw [h3, List.getElem?_cons_succ]
      · have h2 : ¬(i ≤ j ∧ j < i + (vs.length + 1)) := by omega
        simp only [if_neg hj, if_neg h2, if_neg hij]

/-- After a write from index 0 the memory holds the elements written. -/
theorem Memory.holds_writeSeq (m : Memory α) (h : Memory.wf m) (vs : List α) (j : Nat)
    (hj : j < vs.length) : Memory.read (Memory.writeSeq m 0 vs) j = vs[j]? := by
  simp [Memory.read_writeSeq m h, hj]

/-- Elements behind the written ones are unchanged. -/
theorem Memory.read_writeSeq_beyond (m : Memory α) (h : Memory.wf m) (vs : List α) (j : Nat)
    (hj : vs.length ≤ j) : Memory.read (Memory.writeSeq m 0 vs) j = Memory.read m j := by
  have : ¬ j < vs.length := by omega
  simp [Memory.read_writeSeq m h, this]

/-- A cell after a write of consecutive elements is an old one or holds one of them. -/
theorem Memory.mem_writeSeq {m : Memory α} {i : Nat} {vs : List α} {c : Nat × α}
    (hc : c ∈ Memory.writeSeq m i vs) :
    (i ≤ c.1 ∧ c.1 < i + vs.length ∧ c.2 ∈ vs) ∨ c ∈ m := by
  induction vs generalizing m i with
  | nil => exact .inr hc
  | cons v vs ih =>
    rcases ih hc with ⟨h1, h2, h3⟩ | h
    · exact .inl ⟨by omega, by simp; omega, List.mem_cons_of_mem _ h3⟩
    · rcases Memory.mem_write h with rfl | h
      · exact .inl ⟨le_refl _, by simp, List.mem_cons_self⟩
      · exact .inr h

theorem Memory.within_writeSeq {m : Memory α} {n i : Nat} (h : Memory.within m n) (vs : List α)
    (hi : i + vs.length ≤ n) : Memory.within (Memory.writeSeq m i vs) n := fun c hc => by
  rcases Memory.mem_writeSeq hc with ⟨_, h2, _⟩ | hc
  · omega
  · exact h c hc

/-! ### Operand sequences -/

/-- `written` answers the values exactly when every element has one. -/
theorem written_eq_ok_iff (l : List (Option α)) (i : Nat) (vs : List α) :
    written l i = .ok vs ↔ l = vs.map some := by
  induction l generalizing i vs with
  | nil => cases vs <;> simp [written]
  | cons o l ih =>
    cases o with
    | none => cases vs <;> simp [written]
    | some v =>
      simp only [written]
      cases hw : written l (i + 1) with
      | ok us =>
        have := (ih (i + 1) us).mp hw
        subst this
        cases vs with
        | nil => simp
        | cons w ws =>
          simp only [Except.ok.injEq, List.cons.injEq, List.map_cons, Option.some.injEq]
          constructor
          · rintro ⟨rfl, rfl⟩; exact ⟨rfl, rfl⟩
          · rintro ⟨rfl, h⟩
            exact ⟨rfl, List.map_injective_iff.mpr (Option.some_injective _) h⟩
      | error j =>
        cases vs with
        | nil => simp
        | cons w ws =>
          simp only [reduceCtorEq, List.map_cons, List.cons.injEq, false_iff, not_and]
          intro _ h
          have := (ih (i + 1) ws).mpr h
          rw [hw] at this
          cases this

/-- `written` answers an index exactly where the first element without a value stands. -/
theorem written_eq_error {l : List (Option α)} {i j : Nat} (h : written l i = .error j) :
    i ≤ j ∧ l[j - i]? = some none := by
  induction l generalizing i with
  | nil => simp [written] at h
  | cons o l ih =>
    cases o with
    | none =>
      simp only [written, Except.error.injEq] at h
      subst h
      simp
    | some v =>
      simp only [written] at h
      cases hw : written l (i + 1) with
      | ok us => rw [hw] at h; cases h
      | error k =>
        rw [hw] at h
        cases h
        obtain ⟨h1, h2⟩ := ih hw
        refine ⟨by omega, ?_⟩
        have : j - i = (j - (i + 1)) + 1 := by omega
        rw [this, List.getElem?_cons_succ]
        exact h2

@[simp] theorem Memory.length_seq (m : Memory α) (n : Nat) : (Memory.seq m n).length = n := by
  simp [Memory.seq]

theorem Memory.getElem?_seq (m : Memory α) (n i : Nat) (h : i < n) :
    (Memory.seq m n)[i]? = some (Memory.read m i) := by
  simp [Memory.seq, h]

/-- The sequence of a memory that holds `xs` is `xs`. -/
theorem Memory.seq_eq_iff (m : Memory α) (xs : List α) :
    Memory.seq m xs.length = xs.map some ↔ ∀ i, i < xs.length → Memory.read m i = xs[i]? := by
  constructor
  · intro h i hi
    have := congrArg (fun l => l[i]?) h
    simp only [Memory.getElem?_seq m _ _ hi, List.getElem?_map] at this
    rw [List.getElem?_eq_getElem hi] at this ⊢
    simpa using this
  · intro h
    refine List.ext_getElem? (fun i => ?_)
    by_cases hi : i < xs.length
    · rw [Memory.getElem?_seq m _ _ hi, h i hi, List.getElem?_map, List.getElem?_eq_getElem hi]
      rfl
    · rw [List.getElem?_eq_none (by simpa using hi), List.getElem?_eq_none (by simpa using hi)]

end Sys2Proof.Machine
end

