-- ==== Sys2Proof/Laws/TreeBuilder.lean ====
section
/-! SUPPORT. The frequency counter (R132, R133) and the merge engine (R134 to R139): what the list of
entries is, the order of the queue, and the one tree that is left. -/

namespace Sys2Proof.Machine

/-! ### Distinct symbols -/

@[simp] theorem mem_distinct (xs : List Symbol) (x : Symbol) : x ∈ distinct xs ↔ x ∈ xs := by
  induction xs with
  | nil => simp [distinct]
  | cons y ys ih =>
    simp only [distinct, List.mem_cons, List.mem_filter, ih, decide_eq_true_eq]
    by_cases h : x = y <;> simp [h]

theorem nodup_distinct (xs : List Symbol) : (distinct xs).Nodup := by
  induction xs with
  | nil => simp [distinct]
  | cons y ys ih => simp [distinct, ih.filter]

theorem length_distinct (xs : List Symbol) : (distinct xs).length = xs.toFinset.card := by
  rw [← List.toFinset_card_of_nodup (nodup_distinct xs)]
  congr 1
  ext x
  simp

/-- The symbols stand in the order of their first occurrence. -/
theorem distinct_firstOccurrence (xs : List Symbol) :
    (distinct xs).Pairwise (fun x y => xs.idxOf x < xs.idxOf y) := by
  induction xs with
  | nil => simp [distinct]
  | cons z zs ih =>
    simp only [distinct, List.pairwise_cons, List.mem_filter, decide_eq_true_eq]
    refine ⟨fun y hy => ?_, ?_⟩
    · rw [List.idxOf_cons_self, List.idxOf_cons_ne _ (Ne.symm hy.2)]
      omega
    · refine (ih.filter _).imp_of_mem (fun {x y} hx hy hxy => ?_)
      simp only [List.mem_filter, decide_eq_true_eq] at hx hy
      rw [List.idxOf_cons_ne _ (Ne.symm hx.2), List.idxOf_cons_ne _ (Ne.symm hy.2)]
      omega

/-! ### The stable sort -/

theorem insertFreq_perm (e : FreqEntry) (fs : List FreqEntry) :
    (insertFreq e fs).Perm (e :: fs) := by
  induction fs with
  | nil => exact List.Perm.refl _
  | cons f fs ih =>
    simp only [insertFreq]
    split
    · exact List.Perm.refl _
    · exact (ih.cons f).trans (List.Perm.swap e f fs)

theorem sortFreq_perm (fs : List FreqEntry) : (sortFreq fs).Perm fs := by
  induction fs with
  | nil => exact List.Perm.refl _
  | cons f fs ih => exact (insertFreq_perm f _).trans (ih.cons f)

/-- Sorting orders by count, and entries of equal count keep any order they had. -/
theorem sortFreq_ordered (r : FreqEntry → FreqEntry → Prop) (fs : List FreqEntry)
    (h : fs.Pairwise r) :
    (sortFreq fs).Pairwise (fun e f => e.count > f.count ∨ (e.count = f.count ∧ r e f)) := by
  induction fs with
  | nil => simp [sortFreq]
  | cons e es ih =>
    have he := List.pairwise_cons.mp h
    have hs := ih he.2
    have hr : ∀ f ∈ sortFreq es, r e f := fun f hf => he.1 f ((sortFreq_perm es).mem_iff.mp hf)
    simp only [sortFreq]
    revert hs hr
    generalize sortFreq es = l
    intro hs hr
    induction l with
    | nil => simp [insertFreq]
    | cons f fs ih2 =>
      have hf := List.pairwise_cons.mp hs
      simp only [insertFreq]
      split
      · rename_i hle
        refine List.pairwise_cons.mpr ⟨fun g hg => ?_, hs⟩
        rcases List.mem_cons.mp hg with rfl | hg'
        · rcases Nat.lt_or_eq_of_le hle with h1 | h1
          · exact .inl h1
          · exact .inr ⟨h1.symm, hr _ List.mem_cons_self⟩
        · have h1 : g.count ≤ f.count := by
            rcases hf.1 g hg' with h1 | h1 <;> omega
          rcases Nat.lt_or_ge g.count e.count with h2 | h2
          · exact .inl h2
          · exact .inr ⟨by omega, hr g hg⟩
      · rename_i hlt
        refine List.pairwise_cons.mpr ⟨fun g hg => ?_, ih2 hf.2 (fun g hg => hr g (.tail _ hg))⟩
        rcases List.mem_cons.mp ((insertFreq_perm e fs).mem_iff.mp hg) with rfl | hg
        · exact .inl (by omega)
        · exact hf.1 g hg

/-! ### `count(S)` -/

theorem countSymbols_perm (xs : List Symbol) : (countSymbols xs).Perm
    ((distinct xs).map (fun x => { sym := x, count := xs.count x })) := sortFreq_perm _

theorem countSymbols_syms_perm (xs : List Symbol) :
    ((countSymbols xs).map FreqEntry.sym).Perm (distinct xs) := by
  have := (countSymbols_perm xs).map FreqEntry.sym
  simpa [Function.comp_def] using this

@[simp] theorem length_countSymbols (xs : List Symbol) :
    (countSymbols xs).length = (distinct xs).length := by
  simpa using (countSymbols_perm xs).length_eq

theorem mem_countSymbols {xs : List Symbol} {f : FreqEntry} :
    f ∈ countSymbols xs ↔ f.sym ∈ xs ∧ f.count = xs.count f.sym := by
  rw [(countSymbols_perm xs).mem_iff]
  simp only [List.mem_map, mem_distinct]
  constructor
  · rintro ⟨x, hx, rfl⟩
    exact ⟨hx, rfl⟩
  · rintro ⟨hx, hc⟩
    exact ⟨f.sym, hx, by cases f; simp_all⟩

theorem nodup_countSymbols_syms (xs : List Symbol) :
    ((countSymbols xs).map FreqEntry.sym).Nodup :=
  (countSymbols_syms_perm xs).nodup_iff.mpr (nodup_distinct xs)

/-! ### Nodes -/

theorem Node.leaves_ne_nil (n : Node) : n.leaves ≠ [] := by
  induction n with
  | leaf => simp [Node.leaves]
  | internal l r _ _ ihl _ => simp [Node.leaves, ihl]

/-- A tree with k leaves has 2k − 1 nodes. -/
theorem Node.size_eq (n : Node) : n.size + 1 = 2 * n.leaves.length := by
  induction n with
  | leaf => simp [Node.size, Node.leaves]
  | internal l r _ _ ihl ihr =>
    simp only [Node.size, Node.leaves, List.length_append]
    omega

theorem Node.weight_eq_sum {n : Node} (h : n.weighted) :
    n.weight = (n.leaves.map Prod.snd).sum := by
  induction n with
  | leaf => simp [Node.weight, Node.leaves]
  | internal l r w k ihl ihr =>
    obtain ⟨h1, h2, h3⟩ := h
    simp only [Node.leaves, List.map_append, List.sum_append, ← ihl h2, ← ihr h3]
    exact h1

/-! ### The queue -/

theorem enqueue_perm (n : Node) (q : List Node) : (enqueue n q).Perm (n :: q) := by
  induction q with
  | nil => exact List.Perm.refl _
  | cons m q ih =>
    simp only [enqueue]
    split
    · exact List.Perm.refl _
    · exact (ih.cons m).trans (List.Perm.swap n m q)

@[simp] theorem length_enqueue (n : Node) (q : List Node) :
    (enqueue n q).length = q.length + 1 := by simpa using (enqueue_perm n q).length_eq

theorem Node.precedes_trans {a b c : Node} (h : a.precedes b) (h' : b.precedes c) :
    a.precedes c := by
  unfold Node.precedes at *
  omega

theorem Node.precedes_total {a b : Node} (h : a.serial ≠ b.serial) :
    a.precedes b ∨ b.precedes a := by
  unfold Node.precedes
  omega

/-- Inserting a node whose serial is new keeps the queue in the order of R135. -/
theorem enqueue_ordered {n : Node} {q : List Node} (h : q.Pairwise Node.precedes)
    (hn : ∀ m ∈ q, n.serial ≠ m.serial) : (enqueue n q).Pairwise Node.precedes := by
  induction q with
  | nil => simp [enqueue]
  | cons m q ih =>
    have hm := List.pairwise_cons.mp h
    simp only [enqueue]
    split
    · rename_i hp
      refine List.pairwise_cons.mpr ⟨fun k hk => ?_, h⟩
      rcases List.mem_cons.mp hk with rfl | hk
      · exact hp
      · exact Node.precedes_trans hp (hm.1 k hk)
    · rename_i hp
      refine List.pairwise_cons.mpr ⟨fun k hk => ?_, ih hm.2 (fun k hk => hn k (.tail _ hk))⟩
      rcases List.mem_cons.mp ((enqueue_perm n q).mem_iff.mp hk) with rfl | hk
      · exact (Node.precedes_total (hn m List.mem_cons_self)).resolve_left hp
      · exact hm.1 k hk

/-! ### Leaves -/

@[simp] theorem length_leavesFrom (j : Nat) (fs : List FreqEntry) :
    (leavesFrom j fs).length = fs.length := by
  induction fs generalizing j with
  | nil => rfl
  | cons f fs ih => simp [leavesFrom, ih]

theorem leavesFrom_leaves (j : Nat) (fs : List FreqEntry) :
    (leavesFrom j fs).flatMap Node.leaves = fs.map (fun f => (f.sym, f.count)) := by
  induction fs generalizing j with
  | nil => rfl
  | cons f fs ih => simp [leavesFrom, Node.leaves, ih]

theorem leavesFrom_weighted (j : Nat) (fs : List FreqEntry) :
    ∀ n ∈ leavesFrom j fs, n.weighted := by
  induction fs generalizing j with
  | nil => simp [leavesFrom]
  | cons f fs ih =>
    simp only [leavesFrom, List.mem_cons, forall_eq_or_imp]
    exact ⟨trivial, ih (j + 1)⟩

theorem leavesFrom_serial (j : Nat) (fs : List FreqEntry) :
    ∀ n ∈ leavesFrom j fs, j ≤ n.serial ∧ n.serial < j + fs.length := by
  induction fs generalizing j with
  | nil => simp [leavesFrom]
  | cons f fs ih =>
    simp only [leavesFrom, List.mem_cons, forall_eq_or_imp, List.length_cons]
    refine ⟨⟨le_refl _, by simp only [Node.serial]; omega⟩, fun n hn => ?_⟩
    have := ih (j + 1) n hn
    omega

theorem leavesFrom_serials_nodup (j : Nat) (fs : List FreqEntry) :
    ((leavesFrom j fs).map Node.serial).Nodup := by
  induction fs generalizing j with
  | nil => simp [leavesFrom]
  | cons f fs ih =>
    simp only [leavesFrom, List.map_cons, List.nodup_cons]
    refine ⟨fun h => ?_, ih (j + 1)⟩
    obtain ⟨n, hn, heq⟩ := List.mem_map.mp h
    have := (leavesFrom_serial (j + 1) fs n hn).1
    simp only [Node.serial] at heq
    simp only [Node.serial] at this
    omega

/-- Inserting nodes one by one: the queue holds exactly the old and the new ones. -/
theorem foldl_enqueue_perm (ns q : List Node) :
    (ns.foldl (fun q n => enqueue n q) q).Perm (ns ++ q) := by
  induction ns generalizing q with
  | nil => exact List.Perm.refl _
  | cons n ns ih =>
    refine (ih (enqueue n q)).trans ?_
    refine ((enqueue_perm n q).append_left ns).trans ?_
    exact List.perm_middle

theorem foldl_enqueue_ordered (ns q : List Node) (h : q.Pairwise Node.precedes)
    (hn : ((ns ++ q).map Node.serial).Nodup) :
    (ns.foldl (fun q n => enqueue n q) q).Pairwise Node.precedes := by
  induction ns generalizing q with
  | nil => exact h
  | cons n ns ih =>
    have hnd : ((enqueue n q).map Node.serial).Perm ((n :: q).map Node.serial) :=
      (enqueue_perm n q).map _
    refine ih (enqueue n q) (enqueue_ordered h (fun m hm heq => ?_)) ?_
    · simp only [List.cons_append, List.map_cons, List.nodup_cons, List.mem_map,
        List.mem_append] at hn
      exact hn.1 ⟨m, .inr hm, heq.symm⟩
    · have hp : ((ns ++ enqueue n q).map Node.serial).Perm ((n :: ns ++ q).map Node.serial) := by
        refine (((enqueue_perm n q).append_left ns).trans ?_).map _
        exact List.perm_middle
      exact hp.nodup_iff.mpr hn

theorem initialQueue_perm (fs : List FreqEntry) : (initialQueue fs).Perm (leavesFrom 0 fs) := by
  simpa [initialQueue] using foldl_enqueue_perm (leavesFrom 0 fs) []

theorem initialQueue_ordered (fs : List FreqEntry) :
    (initialQueue fs).Pairwise Node.precedes :=
  foldl_enqueue_ordered _ [] (by simp) (by simpa using leavesFrom_serials_nodup 0 fs)

/-! ### The merge loop -/

/-- What a queue is while merging: in order, serials distinct and below the next one, weights sums. -/
structure QueueOk (next : Nat) (q : List Node) : Prop where
  ordered : q.Pairwise Node.precedes
  nodup : (q.map Node.serial).Nodup
  below : ∀ n ∈ q, n.serial < next
  weighted : ∀ n ∈ q, n.weighted

theorem initialQueue_ok (fs : List FreqEntry) : QueueOk fs.length (initialQueue fs) where
  ordered := initialQueue_ordered fs
  nodup := ((initialQueue_perm fs).map _).nodup_iff.mpr (leavesFrom_serials_nodup 0 fs)
  below n hn := by
    have := (leavesFrom_serial 0 fs n ((initialQueue_perm fs).mem_iff.mp hn)).2
    omega
  weighted n hn := leavesFrom_weighted 0 fs n ((initialQueue_perm fs).mem_iff.mp hn)

/-- One merge keeps what the queue is. -/
theorem QueueOk.merge {next : Nat} {a b : Node} {q : List Node} (h : QueueOk next (a :: b :: q)) :
    QueueOk (next + 1) (enqueue (mergeNode a b next) q) := by
  have hser : (mergeNode a b next).serial = next := rfl
  have hq : ∀ m ∈ q, m.serial < next := fun m hm => h.below m (.tail _ (.tail _ hm))
  have hmem : ∀ m ∈ enqueue (mergeNode a b next) q, m = mergeNode a b next ∨ m ∈ q := fun m hm =>
    List.mem_cons.mp ((enqueue_perm _ _).mem_iff.mp hm)
  refine ⟨enqueue_ordered (List.pairwise_cons.mp (List.pairwise_cons.mp h.ordered).2).2
    (fun m hm => by have := hq m hm; omega), ?_, fun m hm => ?_, fun m hm => ?_⟩
  · refine ((enqueue_perm _ _).map _).nodup_iff.mpr ?_
    simp only [List.map_cons, List.nodup_cons, hser]
    refine ⟨fun hin => ?_, (List.nodup_cons.mp (List.nodup_cons.mp h.nodup).2).2⟩
    obtain ⟨m, hm, heq⟩ := List.mem_map.mp hin
    have := hq m hm
    omega
  · rcases hmem m hm with rfl | hm
    · omega
    · have := hq m hm
      omega
  · rcases hmem m hm with rfl | hm
    · exact ⟨rfl, h.weighted a List.mem_cons_self, h.weighted b (.tail _ List.mem_cons_self)⟩
    · exact h.weighted m (.tail _ (.tail _ hm))

/-- The merge loop keeps what the queue is, and the leaves below its nodes. -/
theorem mergeLoop_keeps (fuel next : Nat) (q : List Node) (h : QueueOk next q) :
    (∃ next', QueueOk next' (mergeLoop fuel next q)) ∧
    ((mergeLoop fuel next q).flatMap Node.leaves).Perm (q.flatMap Node.leaves) := by
  induction fuel generalizing next q with
  | zero => exact ⟨⟨next, h⟩, List.Perm.refl _⟩
  | succ fuel ih =>
    match q, h with
    | [], h => exact ⟨⟨next, h⟩, List.Perm.refl _⟩
    | [a], h => exact ⟨⟨next, h⟩, List.Perm.refl _⟩
    | a :: b :: q, h =>
      obtain ⟨h1, h2⟩ := ih (next + 1) _ h.merge
      refine ⟨h1, h2.trans ?_⟩
      refine ((enqueue_perm _ _).flatMap_right Node.leaves).trans ?_
      simp [mergeNode, Node.leaves, List.append_assoc]

/-- With fuel for every merge, a non-empty queue ends as one node. -/
theorem mergeLoop_length (fuel next : Nat) (q : List Node) (hne : q ≠ [])
    (hf : q.length ≤ fuel + 1) : (mergeLoop fuel next q).length = 1 := by
  induction fuel generalizing next q with
  | zero =>
    have : q.length ≠ 0 := by simpa using hne
    simp only [mergeLoop]
    omega
  | succ fuel ih =>
    match q, hne, hf with
    | [a], _, _ => rfl
    | a :: b :: q, _, hf =>
      refine ih (next + 1) _ (fun h => ?_) ?_
      · simpa [h] using length_enqueue (mergeNode a b next) q
      · simp only [length_enqueue, List.length_cons] at *
        omega

/-- `merge(F)` ends in one root, whose leaves are the entries of F and whose weight is the sum of
their counts. -/
theorem mergeTree_spec (fs : List FreqEntry) (h : fs ≠ []) :
    ∃ root, mergeTree fs = [root] ∧ root.weighted ∧
      root.leaves.Perm (fs.map (fun f => (f.sym, f.count))) := by
  have hlen : (initialQueue fs).length = fs.length := by
    simpa using (initialQueue_perm fs).length_eq
  have hpos : fs.length ≠ 0 := by simpa using h
  have h1 : (mergeTree fs).length = 1 :=
    mergeLoop_length _ _ _ (fun h0 => by simp [h0] at hlen; omega) (by omega)
  obtain ⟨⟨next, hok⟩, hperm⟩ := mergeLoop_keeps fs.length fs.length _ (initialQueue_ok fs)
  obtain ⟨root, hroot⟩ := List.length_eq_one_iff.mp h1
  have hroot' : mergeLoop fs.length fs.length (initialQueue fs) = [root] := hroot
  rw [hroot'] at hperm hok
  refine ⟨root, hroot, hok.weighted root List.mem_cons_self, ?_⟩
  have h2 := ((initialQueue_perm fs).flatMap_right Node.leaves)
  rw [leavesFrom_leaves] at h2
  simpa using hperm.trans h2

end Sys2Proof.Machine
end

