-- ==== Sys2Proof/Laws/CodeTableGen.lean ====
section
/-! SUPPORT. The code table generator (R150 to R157): the paths of a tree, the codes of a `BUILD`, and
the two tables that hold them. -/

namespace Sys2Proof.Machine

/-! ### Paths -/

theorem Node.paths_syms (n : Node) (p : Bits) :
    (n.paths p).map Prod.fst = n.leaves.map Prod.fst := by
  induction n generalizing p with
  | leaf => rfl
  | internal l r _ _ ihl ihr => simp [Node.paths, Node.leaves, ihl, ihr]

/-- Every path below a node goes through the node. -/
theorem Node.paths_prefix {n : Node} {p : Bits} {c : Symbol × Bits} (h : c ∈ n.paths p) :
    p <+: c.2 := by
  induction n generalizing p with
  | leaf =>
    simp only [Node.paths, List.mem_singleton] at h
    subst h
    exact List.prefix_rfl
  | internal l r _ _ ihl ihr =>
    rcases List.mem_append.mp h with h | h
    · exact (List.prefix_append p [false]).trans (ihl h)
    · exact (List.prefix_append p [true]).trans (ihr h)

/-- Neither of two bit-strings is a prefix of the other. -/
abbrev Apart (c d : Symbol × Bits) : Prop := ¬ c.2 <+: d.2 ∧ ¬ d.2 <+: c.2

theorem apart_of_mem {cs : List (Symbol × Bits)} (h : cs.Pairwise Apart) {c d : Symbol × Bits}
    (hc : c ∈ cs) (hd : d ∈ cs) (hne : c ≠ d) : Apart c d := by
  induction cs with
  | nil => simp at hc
  | cons a cs ih =>
    have ha := List.pairwise_cons.mp h
    rcases List.mem_cons.mp hc with rfl | hc' <;> rcases List.mem_cons.mp hd with rfl | hd'
    · exact absurd rfl hne
    · exact ha.1 d hd'
    · exact ⟨(ha.1 c hc').2, (ha.1 c hc').1⟩
    · exact ih ha.2 hc' hd'

/-- Extensions of the two edges of one node are apart. -/
theorem apart_of_edges {p u v : Bits} (hu : p ++ [false] <+: u) (hv : p ++ [true] <+: v) :
    ¬ u <+: v := by
  intro h
  have h1 : p ++ [false] <+: v := hu.trans h
  obtain ⟨s, hs⟩ := h1
  obtain ⟨t, ht⟩ := hv
  rw [← hs] at ht
  simp [List.append_assoc] at ht

theorem Node.paths_apart (n : Node) (p : Bits) : (n.paths p).Pairwise Apart := by
  induction n generalizing p with
  | leaf => simp [Node.paths]
  | internal l r _ _ ihl ihr =>
    refine List.pairwise_append.mpr ⟨ihl _, ihr _, fun c hc d hd => ⟨?_, ?_⟩⟩
    · exact apart_of_edges (Node.paths_prefix hc) (Node.paths_prefix hd)
    · intro h
      have h1 := (Node.paths_prefix hd).trans h
      obtain ⟨s, hs⟩ := h1
      obtain ⟨t, ht⟩ := Node.paths_prefix hc
      rw [← hs] at ht
      simp [List.append_assoc] at ht

/-- A path is at most one edge shorter than the number of leaves. -/
theorem Node.paths_length {n : Node} {p : Bits} {c : Symbol × Bits} (h : c ∈ n.paths p) :
    c.2.length + 1 ≤ p.length + n.leaves.length := by
  induction n generalizing p with
  | leaf =>
    simp only [Node.paths, List.mem_singleton] at h
    subst h
    simp [Node.leaves]
  | internal l r _ _ ihl ihr =>
    have hl := List.length_pos_of_ne_nil l.leaves_ne_nil
    have hr := List.length_pos_of_ne_nil r.leaves_ne_nil
    simp only [Node.leaves, List.length_append]
    rcases List.mem_append.mp h with h | h
    · have := ihl h
      simp only [List.length_append, List.length_singleton] at this
      omega
    · have := ihr h
      simp only [List.length_append, List.length_singleton] at this
      omega

/-- Every bit-string at least as long as all paths starts with exactly one of them: a tree is
complete (R156 (d)).  Stated for extensions of the node's own path. -/
theorem Node.paths_complete (n : Node) (p s : Bits) (h : n.leaves.length ≤ s.length + 1) :
    ∃ c ∈ n.paths p, c.2 <+: p ++ s := by
  induction n generalizing p s with
  | leaf x _ _ => exact ⟨(x, p), by simp [Node.paths], List.prefix_append p s⟩
  | internal l r _ _ ihl ihr =>
    have hl := List.length_pos_of_ne_nil l.leaves_ne_nil
    have hr := List.length_pos_of_ne_nil r.leaves_ne_nil
    simp only [Node.leaves, List.length_append] at h
    cases s with
    | nil => simp at h; omega
    | cons b s =>
      simp only [List.length_cons] at h
      cases b with
      | false =>
        obtain ⟨c, hc, hp⟩ := ihl (p ++ [false]) s (by omega)
        exact ⟨c, List.mem_append.mpr (.inl hc), by simpa using hp⟩
      | true =>
        obtain ⟨c, hc, hp⟩ := ihr (p ++ [true]) s (by omega)
        exact ⟨c, List.mem_append.mpr (.inr hc), by simpa using hp⟩

/-! ### The codes of a BUILD -/

/-- The codes `BUILD` gives the symbols of `xs`. -/
def buildCodes (xs : List Symbol) : List (Symbol × Bits) :=
  codeList (countSymbols xs)
    (if 2 ≤ (countSymbols xs).length then mergeTree (countSymbols xs) else [])

/-- The three shapes of `buildCodes` (R151, R153, R154). -/
theorem buildCodes_cases (xs : List Symbol) :
    (xs = [] ∧ buildCodes xs = []) ∨
    (∃ x, distinct xs = [x] ∧ buildCodes xs = [(x, [false])]) ∨
    (∃ root, 2 ≤ (distinct xs).length ∧ buildCodes xs = root.paths [] ∧ root.weighted ∧
      mergeTree (countSymbols xs) = [root] ∧
      root.leaves.Perm ((countSymbols xs).map (fun f => (f.sym, f.count)))) := by
  have hl := length_countSymbols xs
  have hp := countSymbols_syms_perm xs
  unfold buildCodes
  match hfs : countSymbols xs with
  | [] =>
    refine .inl ⟨?_, rfl⟩
    rw [hfs] at hp
    have h0 : distinct xs = [] := by simpa using hp
    refine List.eq_nil_iff_forall_not_mem.mpr (fun x hx => ?_)
    have := (mem_distinct xs x).mpr hx
    simp [h0] at this
  | [f] =>
    refine .inr (.inl ⟨f.sym, ?_, rfl⟩)
    rw [hfs] at hp
    simpa using hp.symm
  | f :: g :: fs =>
    obtain ⟨root, h1, h2, h3⟩ := mergeTree_spec (f :: g :: fs) (by simp)
    rw [hfs] at hl
    have hk : 2 ≤ (distinct xs).length := by simp only [List.length_cons] at hl; omega
    refine .inr (.inr ⟨root, hk, ?_, h2, h1, h3⟩)
    simp [h1, codeList]

/-- What the codes of a `BUILD` are: one per distinct symbol, apart, not empty and short. -/
theorem buildCodes_spec (xs : List Symbol) :
    ((buildCodes xs).map Prod.fst).Perm (distinct xs) ∧
    (buildCodes xs).Pairwise Apart ∧
    ∀ c ∈ buildCodes xs, 1 ≤ c.2.length ∧ c.2.length ≤ max 1 ((distinct xs).length - 1) := by
  rcases buildCodes_cases xs with ⟨rfl, h⟩ | ⟨x, hx, h⟩ | ⟨root, hk, h, -, -, hp⟩
  · simp [h, distinct]
  · simp [h, hx]
  · have hl : root.leaves.length = (distinct xs).length := by simpa using hp.length_eq
    refine ⟨?_, h ▸ root.paths_apart [], fun c hc => ?_⟩
    · rw [h, Node.paths_syms]
      refine (hp.map Prod.fst).trans ?_
      simpa [Function.comp_def] using countSymbols_syms_perm xs
    · rw [h] at hc
      have h1 := Node.paths_length hc
      have h2 : 1 ≤ c.2.length := by
        cases root with
        | leaf => simp [Node.leaves] at hl; omega
        | internal l r =>
          rcases List.mem_append.mp hc with hc | hc
          · simpa using (Node.paths_prefix hc).length_le
          · simpa using (Node.paths_prefix hc).length_le
      refine ⟨h2, le_max_of_le_right ?_⟩
      simp only [List.length_nil] at h1
      omega

theorem buildCodes_nodup (xs : List Symbol) : ((buildCodes xs).map Prod.fst).Nodup :=
  (buildCodes_spec xs).1.nodup_iff.mpr (nodup_distinct xs)

theorem buildCodes_length (xs : List Symbol) : (buildCodes xs).length = (distinct xs).length := by
  simpa using (buildCodes_spec xs).1.length_eq

/-! ### The tables -/

theorem codeTable_foldl_wf (cs : List (Symbol × Bits)) (t : Memory CodeEntry) (h : Memory.wf t) :
    Memory.wf (cs.foldl (fun t c => Memory.write t c.1.toNat (CodeEntry.ofPath c.2)) t) := by
  induction cs generalizing t with
  | nil => exact h
  | cons c cs ih => exact ih _ (Memory.wf_write h _ _)

theorem codeTable_wf (cs : List (Symbol × Bits)) : Memory.wf (codeTable cs) :=
  codeTable_foldl_wf cs [] List.Pairwise.nil

theorem codeTable_foldl_read (cs : List (Symbol × Bits)) (t : Memory CodeEntry) (h : Memory.wf t)
    (hn : (cs.map Prod.fst).Nodup) (x : Symbol) (e : CodeEntry) :
    Memory.read (cs.foldl (fun t c => Memory.write t c.1.toNat (CodeEntry.ofPath c.2)) t)
      x.toNat = some e ↔
    (∃ p, (x, p) ∈ cs ∧ e = CodeEntry.ofPath p) ∨
      (x ∉ cs.map Prod.fst ∧ Memory.read t x.toNat = some e) := by
  induction cs generalizing t with
  | nil => simp
  | cons c cs ih =>
    obtain ⟨y, q⟩ := c
    simp only [List.map_cons, List.nodup_cons] at hn
    rw [List.foldl_cons, ih _ (Memory.wf_write h _ _) hn.2, Memory.read_write t h]
    by_cases hxy : y = x
    · subst hxy
      have hno : ∀ p, (y, p) ∉ cs := fun p hp => hn.1 (List.mem_map_of_mem (f := Prod.fst) hp)
      simp [hno, hn.1, eq_comm]
    · have hne : y.toNat ≠ x.toNat := fun h => hxy (BitVec.eq_of_toNat_eq h)
      have hxy' : ¬ x = y := fun h => hxy h.symm
      simp [hne, hxy']

/-- The code table holds exactly the codes given. -/
theorem codeTable_read (cs : List (Symbol × Bits)) (hn : (cs.map Prod.fst).Nodup) (x : Symbol)
    (e : CodeEntry) :
    Memory.read (codeTable cs) x.toNat = some e ↔ ∃ p, (x, p) ∈ cs ∧ e = CodeEntry.ofPath p := by
  have := codeTable_foldl_read cs [] List.Pairwise.nil hn x e
  simpa [codeTable] using this

theorem codeTable_keys (cs : List (Symbol × Bits)) (t : Memory CodeEntry) (c : Nat × CodeEntry)
    (h : c ∈ cs.foldl (fun t c => Memory.write t c.1.toNat (CodeEntry.ofPath c.2)) t) :
    c ∈ t ∨ ∃ d ∈ cs, c = (d.1.toNat, CodeEntry.ofPath d.2) := by
  induction cs generalizing t with
  | nil => exact .inl h
  | cons d cs ih =>
    rcases ih _ h with h | ⟨d', hd', rfl⟩
    · rcases Memory.mem_write h with rfl | h
      · exact .inr ⟨d, List.mem_cons_self, rfl⟩
      · exact .inl h
    · exact .inr ⟨d', .tail _ hd', rfl⟩

/-- Every cell of the code table is the entry of a code given. -/
theorem codeTable_mem {cs : List (Symbol × Bits)} {c : Nat × CodeEntry} (h : c ∈ codeTable cs) :
    ∃ d ∈ cs, c = (d.1.toNat, CodeEntry.ofPath d.2) := by
  simpa using codeTable_keys cs [] c h

/-- The code table has as many entries as there are codes. -/
theorem codeTable_length (cs : List (Symbol × Bits)) (hn : (cs.map Prod.fst).Nodup) :
    (codeTable cs).length = cs.length := by
  have hw := codeTable_wf cs
  have hkeys : ((codeTable cs).map Prod.fst).Nodup :=
    List.pairwise_map.mpr (hw.imp (fun {a b} hab => Nat.ne_of_lt hab))
  have hcs : (cs.map (fun c => c.1.toNat)).Nodup := by
    have := List.Nodup.map (f := BitVec.toNat) (fun a b hab => BitVec.eq_of_toNat_eq hab) hn
    simpa [Function.comp_def] using this
  have hperm : ((codeTable cs).map Prod.fst).Perm (cs.map (fun c => c.1.toNat)) := by
    refine (List.perm_ext_iff_of_nodup hkeys hcs).mpr (fun k => ?_)
    constructor
    · intro hk
      obtain ⟨c, hc, rfl⟩ := List.mem_map.mp hk
      obtain ⟨d, hd, rfl⟩ := codeTable_mem hc
      exact List.mem_map_of_mem hd
    · intro hk
      obtain ⟨d, hd, rfl⟩ := List.mem_map.mp hk
      have := (codeTable_read cs hn d.1 _).mpr ⟨d.2, hd, rfl⟩
      exact List.mem_map_of_mem (f := Prod.fst) (Memory.mem_of_read this)
  simpa using hperm.length_eq

/-- In an inverse table of codes that are apart, a code looks up its symbol and nothing else does. -/
theorem inverseTable_lookup (cs : List (Symbol × Bits)) (h : cs.Pairwise Apart) (c : Bits)
    (x : Symbol) : itLookup (inverseTable cs) c = some x ↔ (x, c) ∈ cs := by
  have hn : ((inverseTable cs).map Prod.fst).Nodup := by
    simp only [inverseTable, List.map_map, Function.comp_def]
    refine List.pairwise_map.mpr (h.imp (fun {a b} hab heq => hab.1 ?_))
    rw [heq]
  constructor
  · intro hl
    have := itLookup_eq_some hl
    simpa [inverseTable, and_comm] using this
  · intro hm
    refine itLookup_of_mem hn ?_
    simpa [inverseTable, and_comm] using hm

end Sys2Proof.Machine
end

