-- ==== Sys2Proof/Laws/Commands.lean ====
section
/-! SUPPORT. What each command does, once: the outcomes of each meaning (R116, R130, R170, R190), and the
loops of the encoder and the decoder (R172 to R174, R191 to R195). -/

namespace Sys2Proof.Machine

/-! ### Operands -/

/-- The operand of `BUILD` and `ENCODE` is `xs` when `SYM` holds `xs` and its length is `n_in`. -/
theorem State.symOperand_eq {s : State} {xs : List Symbol} (hn : s.nIn = xs.length)
    (h : Memory.holds s.sym xs) : s.symOperand = xs.map some := by
  rw [State.symOperand, hn]
  exact (Memory.seq_eq_iff s.sym xs).mpr h

theorem State.bitOperand_eq {s : State} {bs : Bits} (hn : s.nBits = bs.length)
    (h : Memory.holds s.bit bs) : s.bitOperand = bs.map some := by
  rw [State.bitOperand, hn]
  exact (Memory.seq_eq_iff s.bit bs).mpr h

theorem written_map_some {α : Type} (xs : List α) (i : Nat) : written (xs.map some) i = .ok xs :=
  (written_eq_ok_iff _ i xs).mpr rfl

/-- The values an operand read answers are what the memory holds. -/
theorem holds_of_written {α : Type} {m : Memory α} {n : Nat} {xs : List α}
    (h : written (Memory.seq m n) 0 = .ok xs) : xs.length = n ∧ Memory.holds m xs := by
  have h1 := (written_eq_ok_iff _ _ _).mp h
  have h2 : n = xs.length := by simpa using congrArg List.length h1
  subst h2
  exact ⟨rfl, (Memory.seq_eq_iff m xs).mp h1⟩

/-- An operand read that stops names an element in range that holds no value. -/
theorem unwritten_of_written {α : Type} {m : Memory α} {n j : Nat}
    (h : written (Memory.seq m n) 0 = .error j) : j < n ∧ Memory.read m j = none := by
  obtain ⟨-, h2⟩ := written_eq_error h
  simp only [Nat.sub_zero] at h2
  have hj : j < n := by
    have := (List.getElem?_eq_some_iff.mp h2).1
    simpa using this
  rw [Memory.getElem?_seq m n j hj] at h2
  exact ⟨hj, by simpa using h2⟩

/-! ### `NOP` and illegal words -/

theorem execNop_eq (s : State) : execNop s = .next (s.complete .none 0) := rfl

theorem execIllegal_eq (s : State) : execIllegal s = .next (s.complete .illegalCmd 0) := rfl

/-! ### `BUILD` -/

/-- The state a successful `BUILD` of `xs` leaves. -/
def buildResult (s : State) (xs : List Symbol) : State :=
  (commitBuild (codeTableGen (treeBuilder xs s))).complete .none 0

@[simp] theorem buildResult_ct (s : State) (xs : List Symbol) :
    (buildResult s xs).ct = codeTable (buildCodes xs) := rfl

@[simp] theorem buildResult_it (s : State) (xs : List Symbol) :
    (buildResult s xs).it = inverseTable (buildCodes xs) := rfl

@[simp] theorem buildResult_nsym (s : State) (xs : List Symbol) :
    (buildResult s xs).nsym = BitVec.ofNat 32 (distinct xs).length := by
  simp [buildResult]

/-- Everything but the tables, `NSYM` and the working state is as completion leaves it. -/
theorem buildResult_eq (s : State) (xs : List Symbol) : buildResult s xs =
    { s with
      ct := (buildResult s xs).ct
      it := (buildResult s xs).it
      work := (buildResult s xs).work
      nsym := (buildResult s xs).nsym
      built := true
      errCode := .none
      errInfo := 0
      ctl := .idle
      done := true } := rfl

/-- The outcomes of `BUILD`. -/
theorem execBuild_cases (s : State) :
    (s.cfg.nMax < s.nIn ∧ execBuild s = .next (s.complete .length 0)) ∨
    (s.nIn ≤ s.cfg.nMax ∧ ∃ i, i < s.nIn ∧ Memory.read s.sym i = none ∧
      execBuild s = .fault (.unwrittenSym i)) ∨
    (s.nIn ≤ s.cfg.nMax ∧ ∃ xs, xs.length = s.nIn ∧ Memory.holds s.sym xs ∧
      execBuild s = .next (buildResult s xs)) := by
  unfold execBuild
  split
  · exact .inl ⟨‹_›, rfl⟩
  · have hle : s.nIn ≤ s.cfg.nMax := by omega
    cases hw : written s.symOperand 0 with
    | error i =>
      obtain ⟨h1, h2⟩ := unwritten_of_written hw
      exact .inr (.inl ⟨hle, i, h1, h2, rfl⟩)
    | ok xs =>
      obtain ⟨h1, h2⟩ := holds_of_written hw
      exact .inr (.inr ⟨hle, xs, h1, h2, rfl⟩)

/-- `BUILD` of an operand that is there. -/
theorem execBuild_of_holds {s : State} {xs : List Symbol} (hn : s.nIn = xs.length)
    (hle : s.nIn ≤ s.cfg.nMax) (h : Memory.holds s.sym xs) :
    execBuild s = .next (buildResult s xs) := by
  have : ¬ s.nIn > s.cfg.nMax := by omega
  simp only [execBuild, this, if_false, State.symOperand_eq hn h, written_map_some]
  rfl

/-- The code of a symbol after `BUILD`. -/
theorem buildResult_codeOf (s : State) (xs : List Symbol)
    (hk : max 1 ((distinct xs).length - 1) ≤ 4095) (x : Symbol) (p : Bits) :
    (buildResult s xs).codeOf x = some p ↔ (x, p) ∈ buildCodes xs := by
  have hlen : ∀ q, (x, q) ∈ buildCodes xs → (CodeEntry.ofPath q).bits = q := fun q hq =>
    CodeEntry.bits_ofPath q (((buildCodes_spec xs).2.2 _ hq).2.trans hk)
  rw [State.codeOf_eq_some_iff]
  simp only [State.ctEntry, buildResult_ct, codeTable_read _ (buildCodes_nodup xs)]
  constructor
  · rintro ⟨e, ⟨q, hq, rfl⟩, hb⟩
    rw [hlen q hq] at hb
    exact hb ▸ hq
  · intro hp
    exact ⟨_, ⟨p, hp, rfl⟩, hlen p hp⟩

/-- Symbols below `K_MAX` are at most `K_MAX` in number. -/
theorem distinct_length_le {xs : List Symbol} {n : Nat} (h : ∀ x ∈ xs, x.toNat < n) :
    (distinct xs).length ≤ n := by
  have h1 : ((distinct xs).map BitVec.toNat).Nodup :=
    (nodup_distinct xs).map (fun a b hab => BitVec.eq_of_toNat_eq hab)
  have h2 : (distinct xs).map BitVec.toNat ⊆ List.range n := fun k hk => by
    obtain ⟨x, hx, rfl⟩ := List.mem_map.mp hk
    simpa using h x ((mem_distinct xs x).mp hx)
  simpa using (List.subperm_of_subset h1 h2).length_le

/-- The tables after `BUILD` are a codec state. -/
theorem buildResult_tables {s : State} {xs : List Symbol} (hc : s.cfg.wf = true)
    (h : ∀ x ∈ xs, x.toNat < s.cfg.kMax) : TablesOk (buildResult s xs) := by
  have hk := distinct_length_le h
  have hsym : s.cfg.symW ≤ 12 := by
    simp only [Config.wf, Bool.and_eq_true, decide_eq_true_eq] at hc
    omega
  have hkm : s.cfg.kMax ≤ 4096 := by
    exact Nat.pow_le_pow_right (n := 2) (by decide) hsym
  have hL : max 1 ((distinct xs).length - 1) ≤ s.cfg.lMax := by
    unfold Config.lMax
    omega
  have hL' : s.cfg.lMax ≤ 4095 := by
    unfold Config.lMax
    omega
  obtain ⟨hperm, hapart, hlen⟩ := buildCodes_spec xs
  have hcode := buildResult_codeOf s xs (hL.trans hL')
  refine
    { ctWf := codeTable_wf _
      ctWithin := fun c hc => ?_
      lengths := fun c hc => ?_
      highBits := fun c hc => ?_
      inverse := fun c x => by rw [buildResult_it, inverseTable_lookup _ hapart, hcode]
      prefixFree := fun x y c d hx hy hcd => ?_
      nsymCount := ?_
      unbuilt := fun hb => nomatch hb }
  · obtain ⟨d, hd, rfl⟩ := codeTable_mem hc
    have := hperm.mem_iff.mp (List.mem_map_of_mem hd)
    exact h _ ((mem_distinct xs _).mp this)
  · obtain ⟨d, hd, rfl⟩ := codeTable_mem hc
    have := hlen d hd
    simp only [CodeEntry.len_ofPath d.2 (this.2.trans (hL.trans hL'))]
    exact ⟨this.1, this.2.trans hL⟩
  · obtain ⟨d, hd, rfl⟩ := codeTable_mem hc
    exact CodeEntry.high_ofPath d.2 ((hlen d hd).2.trans (hL.trans hL'))
  · rw [hcode] at hx hy
    by_contra hne
    have hne' : (x, c) ≠ (y, d) := fun h => hne (congrArg Prod.fst h)
    exact (apart_of_mem hapart hx hy hne').1 hcd
  · rw [buildResult_nsym, buildResult_ct, codeTable_length _ (buildCodes_nodup xs),
      buildCodes_length]
    simp only [BitVec.toNat_ofNat]
    exact Nat.mod_eq_of_lt (by omega)

/-! ### `ENCODE` -/

/-- Where the symbol loop ends: the symbols `ys` before index `i + ys.length` are emitted, and there
the operand ends, a value is missing, a symbol is absent or its code does not fit. -/
theorem encodeLoop_cases (bMax : Nat) (ct : Memory CodeEntry) (l : List (Option Symbol))
    (i pos : Nat) (hpos : pos ≤ bMax) :
    ∃ (ys : List Symbol) (bits : Bits) (rest : List (Option Symbol)),
      l = ys.map some ++ rest ∧
      bits = ys.flatMap (fun x => ((Memory.read ct x.toNat).map CodeEntry.bits).getD []) ∧
      (∀ x ∈ ys, (Memory.read ct x.toNat).isSome) ∧
      pos + bits.length ≤ bMax ∧
      ((rest = [] ∧ encodeLoop bMax ct l i pos = .ok ⟨bits, .none, 0⟩) ∨
       (∃ r, rest = none :: r ∧
         encodeLoop bMax ct l i pos = .error (.unwrittenSym (i + ys.length))) ∨
       (∃ x r, rest = some x :: r ∧ Memory.read ct x.toNat = none ∧
         encodeLoop bMax ct l i pos = .ok ⟨bits, .unknownSymbol, i + ys.length⟩) ∨
       (∃ x r e, rest = some x :: r ∧ Memory.read ct x.toNat = some e ∧
         bMax < pos + bits.length + e.len.toNat ∧
         encodeLoop bMax ct l i pos = .ok ⟨bits, .overflow, i + ys.length⟩)) := by
  induction l generalizing i pos with
  | nil => exact ⟨[], [], [], by simp, by simp, by simp, by simpa, .inl ⟨rfl, rfl⟩⟩
  | cons o l ih =>
    cases o with
    | none => exact ⟨[], [], none :: l, by simp, by simp, by simp, by simpa,
        .inr (.inl ⟨l, rfl, rfl⟩)⟩
    | some x =>
      cases hr : Memory.read ct x.toNat with
      | none =>
        exact ⟨[], [], some x :: l, by simp, by simp, by simp, by simpa,
          .inr (.inr (.inl ⟨x, l, rfl, hr, by simp [encodeLoop, hr]⟩))⟩
      | some e =>
        by_cases hov : pos + e.len.toNat > bMax
        · exact ⟨[], [], some x :: l, by simp, by simp, by simp, by simpa,
            .inr (.inr (.inr ⟨x, l, e, rfl, hr, by simpa using hov,
              by simp [encodeLoop, hr, hov]⟩))⟩
        · obtain ⟨ys, bits, rest, h1, h2, h3, h4, h5⟩ := ih (i + 1) (pos + e.len.toNat) (by omega)
          have hidx : i + 1 + ys.length = i + (ys.length + 1) := by omega
          refine ⟨x :: ys, e.bits ++ bits, rest, by simp [h1], by simp [hr, h2], ?_, ?_, ?_⟩
          · simp only [List.mem_cons, forall_eq_or_imp]
            exact ⟨by simp [hr], h3⟩
          · simp only [List.length_append, CodeEntry.length_bits]
            omega
          · simp only [List.length_cons, List.length_append, CodeEntry.length_bits]
            rcases h5 with ⟨ha, hb⟩ | ⟨r, ha, hb⟩ | ⟨y, r, ha, hy, hb⟩ | ⟨y, r, f, ha, hy, ho, hb⟩
            · exact .inl ⟨ha, by simp [encodeLoop, hr, hov, hb]⟩
            · exact .inr (.inl ⟨r, ha, by simp [encodeLoop, hr, hov, hb, hidx]⟩)
            · exact .inr (.inr (.inl ⟨y, r, ha, hy, by simp [encodeLoop, hr, hov, hb, hidx]⟩))
            · exact .inr (.inr (.inr ⟨y, r, f, ha, hy, by omega,
                by simp [encodeLoop, hr, hov, hb, hidx]⟩))

/-- The outcomes of `ENCODE`: a check fails, an element is missing, or the bits of the symbols `ys`
are stored and the command completes with the error that the next symbol gives. -/
theorem execEncode_cases (s : State) :
    (s.built = false ∧ execEncode s = .next (s.complete .notBuilt 0)) ∨
    (s.built = true ∧ s.cfg.nMax < s.nIn ∧ execEncode s = .next (s.complete .length 0)) ∨
    (s.built = true ∧ s.nIn ≤ s.cfg.nMax ∧ ∃ i, i < s.nIn ∧ Memory.read s.sym i = none ∧
      execEncode s = .fault (.unwrittenSym i)) ∨
    (s.built = true ∧ s.nIn ≤ s.cfg.nMax ∧ ∃ (ys : List Symbol) (code : ErrCode) (info : Nat),
      ys.length ≤ s.nIn ∧ Memory.holds s.sym ys ∧ s.allCoded ys ∧
      (s.encoding ys).length ≤ s.cfg.bMax ∧
      execEncode s = .next ((storeEncoded (s.encoding ys) s).complete code info) ∧
      ((ys.length = s.nIn ∧ code = .none ∧ info = 0) ∨
       (info = ys.length ∧ ys.length < s.nIn ∧ ∃ x, Memory.read s.sym ys.length = some x ∧
         ((code = .unknownSymbol ∧ s.ctEntry x = none) ∨
          (code = .overflow ∧ ∃ e, s.ctEntry x = some e ∧
            s.cfg.bMax < (s.encoding ys).length + e.len.toNat))))) := by
  unfold execEncode
  cases hb : s.built with
  | false => exact .inl ⟨rfl, rfl⟩
  | true =>
    simp only [Bool.not_true, Bool.false_eq_true, if_false]
    by_cases hn : s.nIn > s.cfg.nMax
    · exact .inr (.inl ⟨trivial, hn, by simp [hn, State.raise]⟩)
    · have hle : s.nIn ≤ s.cfg.nMax := by omega
      obtain ⟨ys, bits, rest, h1, h2, h3, h4, h5⟩ :=
        encodeLoop_cases s.cfg.bMax s.ct s.symOperand 0 0 (Nat.zero_le _)
      have hlen : s.nIn = ys.length + rest.length := by
        have := congrArg List.length h1
        simpa [State.symOperand] using this
      have hget : ∀ i, i < s.nIn → some (Memory.read s.sym i) = (ys.map some ++ rest)[i]? := by
        intro i hi
        rw [← h1]
        exact (Memory.getElem?_seq s.sym s.nIn i hi).symm
      have hholds : Memory.holds s.sym ys := by
        intro i hi
        have := hget i (by omega)
        rw [List.getElem?_append_left (by simpa using hi), List.getElem?_map,
          List.getElem?_eq_getElem hi] at this
        rw [List.getElem?_eq_getElem hi]
        simpa using this
      have hnext : ∀ o r, rest = o :: r → Memory.read s.sym ys.length = o := by
        intro o r hr
        have := hget ys.length (by rw [hlen, hr]; simp)
        rw [List.getElem?_append_right (by simp), hr] at this
        simpa using this
      have henc : s.encoding ys = bits := h2.symm
      have hfit : (s.encoding ys).length ≤ s.cfg.bMax := by rw [henc]; omega
      have hr : ∀ o r, rest = o :: r → ys.length < s.nIn := by
        intro o r hr
        rw [hlen, hr]
        simp
      simp only [hn, if_false]
      rcases h5 with ⟨ha, hb⟩ | ⟨r, ha, hb⟩ | ⟨x, r, ha, hx, hb⟩ | ⟨x, r, e, ha, hx, ho, hb⟩
      · refine .inr (.inr (.inr ⟨trivial, hle, ys, .none, 0, by omega, hholds, h3, hfit, ?_, .inl ?_⟩))
        · rw [hb, henc]
        · exact ⟨by simp [ha] at hlen; omega, rfl, rfl⟩
      · refine .inr (.inr (.inl ⟨trivial, hle, ys.length, hr _ _ ha, hnext _ _ ha, ?_⟩))
        rw [hb]
        simp
      · refine .inr (.inr (.inr ⟨trivial, hle, ys, .unknownSymbol, ys.length, by omega, hholds, h3, hfit,
          ?_, .inr ⟨rfl, hr _ _ ha, x, hnext _ _ ha, .inl ⟨rfl, hx⟩⟩⟩))
        rw [hb, henc]
        simp
      · refine .inr (.inr (.inr ⟨trivial, hle, ys, .overflow, ys.length, by omega, hholds, h3, hfit,
          ?_, .inr ⟨rfl, hr _ _ ha, x, hnext _ _ ha, .inr ⟨rfl, e, hx, ?_⟩⟩⟩))
        · rw [hb, henc]
          simp
        · rw [henc]
          omega

/-! ### `DECODE` -/

/-- The bits read are the codes of the symbols emitted and then the candidate. -/
theorem decodeLoop_spec (it : List (Bits × Symbol)) (bs : Bits) (i : Nat) (cand : Bits)
    (start : Nat) :
    ∃ cs : List Bits,
      cand ++ bs = cs.flatten ++ (decodeLoop it bs i cand start).cand ∧
      cs.map (itLookup it) = (decodeLoop it bs i cand start).syms.map some ∧
      (start + cand.length = i →
        (decodeLoop it bs i cand start).start = start + cs.flatten.length) ∧
      (decodeLoop it bs i cand start).syms.length ≤ bs.length := by
  induction bs generalizing i cand start with
  | nil => exact ⟨[], by simp [decodeLoop], by simp [decodeLoop], by simp [decodeLoop], by simp [decodeLoop]⟩
  | cons b bs ih =>
    simp only [decodeLoop]
    cases hl : itLookup it (cand ++ [b]) with
    | some x =>
      obtain ⟨cs, h1, h2, h3, h4⟩ := ih (i + 1) [] (i + 1)
      refine ⟨(cand ++ [b]) :: cs, ?_, ?_, fun hs => ?_, ?_⟩
      · simp only [List.nil_append] at h1
        simp [← h1]
      · simp [hl, h2]
      · simp only [h3 (by simp)]
        simp only [List.flatten_cons, List.length_append, List.length_cons, List.length_nil]
        omega
      · simp only [List.length_cons]
        omega
    | none =>
      obtain ⟨cs, h1, h2, h3, h4⟩ := ih (i + 1) (cand ++ [b]) start
      refine ⟨cs, by simpa using h1, h2, fun hs => h3 ?_, ?_⟩
      · simp only [List.length_append, List.length_singleton]
        omega
      · simp only [List.length_cons]
        omega

/-- Over bits that begin with an entry of the table, none of whose proper prefixes longer than the
candidate is an entry, the loop emits that entry's symbol and goes on behind it. -/
theorem decodeLoop_code (it : List (Bits × Symbol)) (c rest cand : Bits) (i start : Nat)
    (x : Symbol) (hc : c ≠ []) (hx : itLookup it (cand ++ c) = some x)
    (hp : ∀ d, d <+: c → d ≠ [] → d ≠ c → itLookup it (cand ++ d) = none) :
    decodeLoop it (c ++ rest) i cand start =
      { decodeLoop it rest (i + c.length) [] (i + c.length) with
        syms := x :: (decodeLoop it rest (i + c.length) [] (i + c.length)).syms } := by
  induction c generalizing cand i start with
  | nil => exact absurd rfl hc
  | cons b c ih =>
    cases c with
    | nil => simp [decodeLoop, hx]
    | cons b' c =>
      have h0 : itLookup it (cand ++ [b]) = none := hp [b] (by simp) (by simp) (by simp)
      have := ih (cand ++ [b]) (i + 1) start (by simp) (by simpa using hx) (fun d hd h1 h2 => by
        have := hp (b :: d) (List.cons_prefix_cons.mpr ⟨rfl, hd⟩) (by simp)
          (fun heq => h2 (List.cons.inj heq).2)
        simpa using this)
      have hidx : i + 1 + (b' :: c).length = i + (b :: b' :: c).length := by
        simp only [List.length_cons]
        omega
      simp only [List.cons_append] at this ⊢
      rw [decodeLoop, h0, ← hidx, ← this]

/-- The outcomes of `DECODE`. -/
theorem execDecode_cases (s : State) :
    (s.built = false ∧ execDecode s = .next (s.complete .notBuilt 0)) ∨
    (s.built = true ∧ s.cfg.bMax < s.nBits ∧ execDecode s = .next (s.complete .length 0)) ∨
    (s.built = true ∧ s.nBits ≤ s.cfg.bMax ∧ ∃ j, j < s.nBits ∧ Memory.read s.bit j = none ∧
      execDecode s = .fault (.unwrittenBit j)) ∨
    (s.built = true ∧ s.nBits ≤ s.cfg.bMax ∧ ∃ bs : Bits, bs.length = s.nBits ∧
      Memory.holds s.bit bs ∧
      ∃ d, d = decodeLoop s.it bs 0 [] 0 ∧
        ((d.cand = [] ∧ execDecode s = .next ((storeDecoded d s).complete .none 0)) ∨
         (d.cand ≠ [] ∧
          execDecode s = .next ((storeDecoded d s).complete .malformedCode d.start)))) := by
  unfold execDecode
  cases hb : s.built with
  | false => exact .inl ⟨rfl, rfl⟩
  | true =>
    simp only [Bool.not_true, Bool.false_eq_true, if_false]
    by_cases hn : s.nBits > s.cfg.bMax
    · exact .inr (.inl ⟨trivial, hn, by simp [hn, State.raise]⟩)
    · have hle : s.nBits ≤ s.cfg.bMax := by omega
      simp only [hn, if_false]
      cases hw : written s.bitOperand 0 with
      | error j =>
        obtain ⟨h1, h2⟩ := unwritten_of_written hw
        exact .inr (.inr (.inl ⟨trivial, hle, j, h1, h2, rfl⟩))
      | ok bs =>
        obtain ⟨h1, h2⟩ := holds_of_written hw
        refine .inr (.inr (.inr ⟨trivial, hle, bs, h1, h2, _, rfl, ?_⟩))
        by_cases hc : (decodeLoop s.it bs 0 [] 0).cand = []
        · exact .inl ⟨hc, by simp [hc, State.finish]⟩
        · exact .inr ⟨hc, by simp [hc, State.raise]⟩

/-- `DECODE` of an operand that is there, by how its loop ends. -/
theorem execDecode_of_holds {s : State} {bs : Bits} (hb : s.built = true)
    (hn : s.nBits = bs.length) (hle : s.nBits ≤ s.cfg.bMax) (h : Memory.holds s.bit bs) :
    execDecode s = .next ((storeDecoded (decodeLoop s.it bs 0 [] 0) s).complete
      (if (decodeLoop s.it bs 0 [] 0).cand = [] then .none else .malformedCode)
      (if (decodeLoop s.it bs 0 [] 0).cand = [] then 0
        else (decodeLoop s.it bs 0 [] 0).start)) := by
  have : ¬ s.nBits > s.cfg.bMax := by omega
  simp only [execDecode, hb, Bool.not_true, Bool.false_eq_true, this, if_false,
    State.bitOperand_eq hn h, written_map_some]
  split <;> rfl

end Sys2Proof.Machine
end

