-- ==== Sys2Proof/Laws/Optimality.lean ====
section
/-! SUPPORT. What merging the two least nodes minimises (R140): for any lengths of the leaves with a
Kraft sum of at most 1, the weighted sum of the tree's depths is at most that of the lengths. -/

namespace Sys2Proof.Machine

/-! ### Lengths over a list of nodes -/

/-- The Kraft sum of the lengths `f` over `q`. -/
def kraftSum (q : List Node) (f : Node → Nat) : ℚ := (q.map (fun n => (1 / 2 : ℚ) ^ f n)).sum

/-- The weighted sum of the lengths `f` over `q`. -/
def weightedSum (q : List Node) (f : Node → Nat) : Nat := (q.map (fun n => n.weight * f n)).sum

theorem kraftSum_perm {p q : List Node} (h : p.Perm q) (f : Node → Nat) :
    kraftSum p f = kraftSum q f := (h.map _).sum_eq

theorem weightedSum_perm {p q : List Node} (h : p.Perm q) (f : Node → Nat) :
    weightedSum p f = weightedSum q f := (h.map _).sum_eq

@[simp] theorem kraftSum_cons (n : Node) (q : List Node) (f : Node → Nat) :
    kraftSum (n :: q) f = (1 / 2 : ℚ) ^ f n + kraftSum q f := by simp [kraftSum]

@[simp] theorem weightedSum_cons (n : Node) (q : List Node) (f : Node → Nat) :
    weightedSum (n :: q) f = n.weight * f n + weightedSum q f := by simp [weightedSum]

theorem kraftSum_congr {q : List Node} {f g : Node → Nat} (h : ∀ n ∈ q, f n = g n) :
    kraftSum q f = kraftSum q g := by
  rw [kraftSum, kraftSum, List.map_congr_left (fun n hn => by rw [h n hn])]

theorem weightedSum_congr {q : List Node} {f g : Node → Nat} (h : ∀ n ∈ q, f n = g n) :
    weightedSum q f = weightedSum q g := by
  rw [weightedSum, weightedSum, List.map_congr_left (fun n hn => by rw [h n hn])]

theorem kraftSum_nonneg (q : List Node) (f : Node → Nat) : 0 ≤ kraftSum q f :=
  List.sum_nonneg (fun x hx => by
    obtain ⟨n, -, rfl⟩ := List.mem_map.mp hx
    positivity)

/-- A Kraft sum of lengths up to `m` is a multiple of 2^−m. -/
theorem kraftSum_eq_natCast (q : List Node) (f : Node → Nat) (m : Nat) (h : ∀ n ∈ q, f n ≤ m) :
    ∃ k : Nat, kraftSum q f = k * (1 / 2 : ℚ) ^ m := by
  induction q with
  | nil => exact ⟨0, by simp [kraftSum]⟩
  | cons n q ih =>
    obtain ⟨k, hk⟩ := ih (fun n hn => h n (.tail _ hn))
    have hn := h n List.mem_cons_self
    refine ⟨2 ^ (m - f n) + k, ?_⟩
    have : (1 / 2 : ℚ) ^ m = (1 / 2) ^ (m - f n) * (1 / 2) ^ f n := by
      rw [← pow_add, Nat.sub_add_cancel hn]
    rw [kraftSum_cons, hk, this]
    push_cast
    have h2 : (2 : ℚ) ^ (m - f n) * (1 / 2) ^ (m - f n) = 1 := by rw [← mul_pow]; norm_num
    linear_combination (-(1 / 2 : ℚ) ^ f n) * h2

/-! ### Exchange -/

/-- Giving the lighter of two nodes the longer length costs no more. -/
theorem exchange {a : Node} {q : List Node} (hn : (a :: q).Nodup) (f : Node → Nat) {m : Node}
    (hm : m ∈ q) (hw : a.weight ≤ m.weight) (hf : f a ≤ f m) :
    ∃ g : Node → Nat, kraftSum (a :: q) g = kraftSum (a :: q) f ∧
      weightedSum (a :: q) g ≤ weightedSum (a :: q) f ∧ g a = f m ∧ g m = f a ∧
      ∀ n, n ≠ a → n ≠ m → g n = f n := by
  have hna : a ∉ q := (List.nodup_cons.mp hn).1
  have ham : a ≠ m := fun h => hna (h ▸ hm)
  have hp : q.Perm (m :: q.erase m) := List.perm_cons_erase hm
  have hm' : m ∉ q.erase m := fun h => (List.Nodup.mem_erase_iff (List.nodup_cons.mp hn).2).mp h |>.1 rfl
  have ha' : a ∉ q.erase m := fun h => hna (List.mem_of_mem_erase h)
  refine ⟨fun n => if n = a then f m else if n = m then f a else f n, ?_, ?_, by simp,
    by simp [Ne.symm ham], fun n h1 h2 => by simp [h1, h2]⟩
  · rw [kraftSum_perm (hp.cons a), kraftSum_perm (hp.cons a) f]
    simp only [kraftSum_cons, if_true, Ne.symm ham, if_false]
    rw [kraftSum_congr (g := f) (fun n h => by
      rw [if_neg (ne_of_mem_of_not_mem h ha'), if_neg (ne_of_mem_of_not_mem h hm')])]
    ring
  · rw [weightedSum_perm (hp.cons a), weightedSum_perm (hp.cons a) f]
    simp only [weightedSum_cons, if_true, Ne.symm ham, if_false]
    rw [weightedSum_congr (g := f) (fun n h => by
      rw [if_neg (ne_of_mem_of_not_mem h ha'), if_neg (ne_of_mem_of_not_mem h hm')])]
    nlinarith

/-- Some node of a list has the greatest length. -/
theorem exists_longest (f : Node → Nat) (a : Node) (q : List Node) :
    ∃ m ∈ a :: q, ∀ n ∈ a :: q, f n ≤ f m := by
  induction q generalizing a with
  | nil => exact ⟨a, by simp, by simp⟩
  | cons b q ih =>
    obtain ⟨m, hm, h⟩ := ih b
    by_cases hab : f a ≤ f m
    · refine ⟨m, .tail _ hm, fun n hn => ?_⟩
      rcases List.mem_cons.mp hn with rfl | hn
      · exact hab
      · exact h n hn
    · refine ⟨a, List.mem_cons_self, fun n hn => ?_⟩
      rcases List.mem_cons.mp hn with rfl | hn
      · exact le_refl _
      · exact (h n hn).trans (by omega)

/-- A node that is no heavier than the others can have the greatest length at no more cost. -/
theorem exchange_longest {a : Node} {q : List Node} (hn : (a :: q).Nodup)
    (hw : ∀ n ∈ q, a.weight ≤ n.weight) (f : Node → Nat) :
    ∃ g : Node → Nat, kraftSum (a :: q) g = kraftSum (a :: q) f ∧
      weightedSum (a :: q) g ≤ weightedSum (a :: q) f ∧ (∀ n ∈ q, g n ≤ g a) ∧
      (∀ n, n ∉ a :: q → g n = f n) ∧ ∀ n ∈ a :: q, ∃ n' ∈ a :: q, g n = f n' := by
  obtain ⟨m, hm, h⟩ := exists_longest f a q
  rcases List.mem_cons.mp hm with rfl | hmq
  · exact ⟨f, rfl, le_refl _, fun n hn => h n (.tail _ hn), fun _ _ => rfl,
      fun n hn => ⟨n, hn, rfl⟩⟩
  · obtain ⟨g, h1, h2, h3, h4, h5⟩ := exchange hn f hmq (hw m hmq) (h a List.mem_cons_self)
    have key : ∀ n ∈ a :: q, ∃ n' ∈ a :: q, g n = f n' := fun n hn => by
      by_cases hna : n = a
      · exact ⟨m, hm, by rw [hna, h3]⟩
      · by_cases hnm : n = m
        · exact ⟨a, List.mem_cons_self, by rw [hnm, h4]⟩
        · exact ⟨n, hn, h5 n hna hnm⟩
    refine ⟨g, h1, h2, fun n hn => ?_, fun n hn => ?_, key⟩
    · obtain ⟨n', hn', he⟩ := key n (.tail _ hn)
      rw [he, h3]
      exact h n' hn'
    · exact h5 n (fun h0 => hn (h0 ▸ List.mem_cons_self)) (fun h0 => hn (h0 ▸ hm))

/-- The two lightest nodes can have one and the same length of at least 1, at no more cost. -/
theorem two_longest {a b : Node} {q : List Node} (hn : (a :: b :: q).Nodup)
    (hab : a.weight ≤ b.weight) (hw : ∀ n ∈ q, b.weight ≤ n.weight) (f : Node → Nat)
    (hk : kraftSum (a :: b :: q) f ≤ 1) :
    ∃ g : Node → Nat, kraftSum (a :: b :: q) g ≤ 1 ∧
      weightedSum (a :: b :: q) g ≤ weightedSum (a :: b :: q) f ∧ g a = g b ∧ 1 ≤ g b := by
  obtain ⟨g, g1, g2, g3, -, -⟩ := exchange_longest hn (fun n h => by
    rcases List.mem_cons.mp h with rfl | h
    · exact hab
    · exact hab.trans (hw n h)) f
  have hnb := (List.nodup_cons.mp hn).2
  obtain ⟨k, k1, k2, k3, k4, k5⟩ := exchange_longest hnb hw g
  have hka : k a = g a := k4 a (List.nodup_cons.mp hn).1
  have hkb : k b ≤ k a := by
    obtain ⟨n, hn', he⟩ := k5 b List.mem_cons_self
    rw [he, hka]
    exact g3 n hn'
  -- the two lengths made equal
  obtain ⟨j, hj⟩ := kraftSum_eq_natCast (b :: q) k (k b) (fun n h => by
    rcases List.mem_cons.mp h with rfl | h
    · exact le_refl _
    · exact k3 n h)
  have hsum : (1 / 2 : ℚ) ^ k a + kraftSum (b :: q) k ≤ 1 := by
    rw [hka, k1]
    rw [kraftSum_cons] at g1 hk
    linarith [kraftSum_cons a (b :: q) f]
  have hpos : (0 : ℚ) < (1 / 2) ^ k a := by positivity
  have hb0 : (0 : ℚ) < (1 / 2) ^ k b := by positivity
  have hb1 : (2 : ℚ) ^ k b * (1 / 2) ^ k b = 1 := by rw [← mul_pow]; norm_num
  have hlt : j < 2 ^ k b := by
    have : (j : ℚ) * (1 / 2) ^ k b < 2 ^ k b * (1 / 2) ^ k b := by
      rw [hb1, ← hj]
      linarith
    exact_mod_cast lt_of_mul_lt_mul_right this hb0.le
  have hle : (1 / 2 : ℚ) ^ k b + kraftSum (b :: q) k ≤ 1 := by
    have : ((j : ℚ) + 1) * (1 / 2) ^ k b ≤ 2 ^ k b * (1 / 2) ^ k b :=
      mul_le_mul_of_nonneg_right (by exact_mod_cast hlt) hb0.le
    rw [hb1] at this
    rw [hj]
    linarith
  have hna := (List.nodup_cons.mp hn).1
  have hcongr : ∀ n ∈ b :: q, (fun n => if n = a then k b else k n) n = k n := fun n h =>
    if_neg (ne_of_mem_of_not_mem h hna)
  refine ⟨fun n => if n = a then k b else k n, ?_, ?_, by simp, ?_⟩
  · rw [kraftSum_cons, kraftSum_congr hcongr]
    simpa using hle
  · rw [weightedSum_cons, weightedSum_congr hcongr, if_pos rfl]
    have h1 : a.weight * k b ≤ a.weight * g a := Nat.mul_le_mul_left _ (hka ▸ hkb)
    rw [weightedSum_cons] at g2
    omega
  · rw [hcongr b List.mem_cons_self]
    by_contra h0
    have hz : k b = 0 := by omega
    rw [kraftSum_cons, hz] at hle
    have := kraftSum_nonneg q k
    norm_num at hle
    linarith

/-! ### The merged tree -/

/-- The sum of the weights of the internal nodes. -/
def Node.cost : Node → Nat
  | .leaf _ _ _ => 0
  | .internal l r w _ => l.cost + r.cost + w

/-- The weighted sum of the path lengths is the sum of the internal weights, and what the path to the
node itself adds. -/
theorem Node.paths_cost {n : Node} (h : n.weighted) (v : Symbol → Nat)
    (hv : ∀ c ∈ n.leaves, v c.1 = c.2) (p : Bits) :
    ((n.paths p).map (fun c => v c.1 * c.2.length)).sum = n.cost + n.weight * p.length := by
  induction n generalizing p with
  | leaf x w k => simp [Node.paths, Node.cost, Node.weight, hv (x, w) (by simp [Node.leaves])]
  | internal l r w k ihl ihr =>
    obtain ⟨h1, h2, h3⟩ := h
    simp only [Node.paths, List.map_append, List.sum_append,
      ihl h2 (fun c hc => hv c (by simp [Node.leaves, hc])),
      ihr h3 (fun c hc => hv c (by simp [Node.leaves, hc])), Node.cost, List.length_append,
      List.length_singleton]
    have : (Node.internal l r w k).weight = l.weight + r.weight := h1
    rw [this, h1]
    ring

/-- The Kraft sum of the paths below a node. -/
theorem Node.paths_kraft (n : Node) (p : Bits) :
    ((n.paths p).map (fun c => (1 / 2 : ℚ) ^ c.2.length)).sum = (1 / 2) ^ p.length := by
  induction n generalizing p with
  | leaf => simp [Node.paths]
  | internal l r _ _ ihl ihr =>
    simp only [Node.paths, List.map_append, List.sum_append, ihl, ihr, List.length_append,
      List.length_singleton, pow_succ]
    ring

/-- The cost of the nodes of a queue. -/
def queueCost (q : List Node) : Nat := (q.map Node.cost).sum

/-- Merging costs at most what any lengths with a Kraft sum of at most 1 cost. -/
theorem mergeLoop_cost_le (fuel next : Nat) (q : List Node) (h : QueueOk next q) (f : Node → Nat)
    (hk : kraftSum q f ≤ 1) :
    queueCost (mergeLoop fuel next q) ≤ queueCost q + weightedSum q f := by
  induction fuel generalizing next q f with
  | zero => exact Nat.le_add_right _ _
  | succ fuel ih =>
    match q, h, hk with
    | [], _, _ => exact Nat.le_add_right _ _
    | [a], _, _ => exact Nat.le_add_right _ _
    | a :: b :: q, h, hk =>
      have ho := List.pairwise_cons.mp h.ordered
      have ho' := List.pairwise_cons.mp ho.2
      have hwt : ∀ x y : Node, x.precedes y → x.weight ≤ y.weight := fun x y hxy => by
        unfold Node.precedes at hxy
        omega
      have hnd : (a :: b :: q).Nodup := List.Nodup.of_map _ h.nodup
      obtain ⟨g, g1, g2, g3, g4⟩ := two_longest hnd (hwt _ _ (ho.1 b List.mem_cons_self))
        (fun n hn => hwt _ _ (ho'.1 n hn)) f hk
      have hnew : mergeNode a b next ∉ q := fun hin => by
        have := h.below _ (.tail _ (.tail _ hin))
        exact absurd this (by simp [mergeNode, Node.serial])
      have hcongr : ∀ n ∈ q, (fun n => if n = mergeNode a b next then g b - 1 else g n) n = g n :=
        fun n hn => if_neg (ne_of_mem_of_not_mem hn hnew)
      have hp := enqueue_perm (mergeNode a b next) q
      have hw : (mergeNode a b next).weight = a.weight + b.weight := rfl
      refine (ih (next + 1) _ h.merge
        (fun n => if n = mergeNode a b next then g b - 1 else g n) ?_).trans ?_
      · rw [kraftSum_perm hp, kraftSum_cons, kraftSum_congr hcongr, if_pos rfl]
        rw [kraftSum_cons, kraftSum_cons, g3] at g1
        obtain ⟨k, hk⟩ : ∃ k, g b = k + 1 := ⟨g b - 1, by omega⟩
        rw [hk] at g1 ⊢
        simp only [pow_succ, Nat.add_sub_cancel] at g1 ⊢
        linarith
      · rw [weightedSum_perm hp, weightedSum_cons, weightedSum_congr hcongr, if_pos rfl, hw]
        rw [weightedSum_cons, weightedSum_cons, g3] at g2
        have hc : queueCost (enqueue (mergeNode a b next) q) =
            queueCost q + (a.cost + b.cost + (a.weight + b.weight)) := by
          rw [queueCost, (hp.map Node.cost).sum_eq]
          simp [queueCost, mergeNode, Node.cost]
          omega
        have hc' : queueCost (a :: b :: q) = queueCost q + (a.cost + b.cost) := by
          simp [queueCost]
          omega
        obtain ⟨k, hk⟩ : ∃ k, g b = k + 1 := ⟨g b - 1, by omega⟩
        rw [hk] at g2
        rw [hc, hc', hk, Nat.add_sub_cancel]
        linarith

/-- The length of a leaf's symbol. -/
def leafLength (g : Symbol → Nat) : Node → Nat
  | .leaf x _ _ => g x
  | .internal _ _ _ _ => 0

theorem leavesFrom_sums (g : Symbol → Nat) (fs : List FreqEntry) (j : Nat) :
    kraftSum (leavesFrom j fs) (leafLength g) =
      (fs.map (fun e => (1 / 2 : ℚ) ^ g e.sym)).sum ∧
    weightedSum (leavesFrom j fs) (leafLength g) = (fs.map (fun e => e.count * g e.sym)).sum ∧
    queueCost (leavesFrom j fs) = 0 := by
  induction fs generalizing j with
  | nil => simp [leavesFrom, kraftSum, weightedSum, queueCost]
  | cons e fs ih =>
    obtain ⟨h1, h2, h3⟩ := ih (j + 1)
    simp only [queueCost] at h3
    simp [leavesFrom, h1, h2, h3, leafLength, Node.weight, queueCost, Node.cost]

/-- The merged tree costs at most what any symbol lengths with a Kraft sum of at most 1 cost. -/
theorem mergeTree_cost_le {fs : List FreqEntry} {root : Node} (h : mergeTree fs = [root])
    (g : Symbol → Nat) (hk : (fs.map (fun e => (1 / 2 : ℚ) ^ g e.sym)).sum ≤ 1) :
    root.cost ≤ (fs.map (fun e => e.count * g e.sym)).sum := by
  obtain ⟨h1, h2, h3⟩ := leavesFrom_sums g fs 0
  have hp := initialQueue_perm fs
  have := mergeLoop_cost_le fs.length fs.length (initialQueue fs) (initialQueue_ok fs)
    (leafLength g) (by rw [kraftSum_perm hp, h1]; exact hk)
  rw [show mergeLoop fs.length fs.length (initialQueue fs) = [root] from h,
    weightedSum_perm hp, h2, queueCost, queueCost, (hp.map Node.cost).sum_eq] at this
  rw [queueCost] at h3
  simpa [h3] using this

end Sys2Proof.Machine
end

