-- ==== Sys2Proof/Laws/PerInstr.lean ====
section
/-! SUPPORT. Per-command statements about the syntax of commands. -/

namespace Sys2Proof.Laws.Encoding

/-- The command word of a well-formed command has its reserved bits zero and its opcode in bits 3:0,
and the decoder reads the command back (R90, R92, R93). -/
def Statement (i : Instr) : Prop :=
  i.wf = true ∧ rsvdField (encode i) = 0 ∧ opcField (encode i) = opcodeOf i ∧
    decodeCmd (encode i) = .ok i

theorem nop : Statement .nop := by unfold Statement; decide
theorem build : Statement .build := by unfold Statement; decide
theorem encode : Statement .encode := by unfold Statement; decide
theorem decode : Statement .decode := by unfold Statement; decide

end Sys2Proof.Laws.Encoding
end

