-- ==== Sys2Proof/Laws/Step.lean ====
section
/-! SUPPORT. What a bus access, a host step, a command and a step can do: one inversion lemma each. -/

namespace Sys2Proof.Machine

/-! ### The bus -/

/-- A read changes nothing but the count of free values (R73). -/
theorem busRead_state (s : State) (a : Word) :
    (busRead s a).2 = s ∨ (busRead s a).2 = s.drawn := by
  unfold busRead
  split
  · split <;> exact .inl rfl
  · unfold readSym
    repeat' split
    all_goals first | exact .inl rfl | exact .inr rfl
  · unfold readBit
    repeat' split
    all_goals first | exact .inl rfl | exact .inr rfl
  · unfold readOut
    repeat' split
    all_goals first | exact .inl rfl | exact .inr rfl
  · split
    · exact .inr rfl
    · exact .inl rfl
  · split
    · exact .inr rfl
    · exact .inl rfl
  · exact .inl rfl

/-- All that a write of a register can do. -/
theorem writeReg_cases (s : State) (v : Word) (r : Reg) :
    writeReg s v r = s ∨
    writeReg s v r = s.setIrqEn (v.getLsbD 0) ∨
    (s.busy = false ∧ writeReg s v r = s.accept v) ∨
    writeReg s v r = s.ack ∨
    (s.busy = false ∧ writeReg s v r = s.setInLen v) ∨
    (s.busy = false ∧ writeReg s v r = s.setBitLen v) := by
  cases hb : s.busy <;> cases hd : v[1] <;> cases r <;> simp [writeReg, hb, hd]

/-- All that a write can do. -/
theorem busWrite_cases (s : State) (a v : Word) :
    busWrite s a v = s ∨
    busWrite s a v = s.setIrqEn (v.getLsbD 0) ∨
    (s.busy = false ∧ busWrite s a v = s.accept v) ∨
    busWrite s a v = s.ack ∨
    (s.busy = false ∧ busWrite s a v = s.setInLen v) ∨
    (s.busy = false ∧ busWrite s a v = s.setBitLen v) ∨
    (∃ i, i < s.cfg.nMax ∧ s.busy = false ∧
      busWrite s a v = s.setSym i (symbolOfWord s.cfg v)) ∨
    (∃ j, j < s.cfg.bMax ∧ s.busy = false ∧ busWrite s a v = s.setBit j (bitOfWord v)) := by
  unfold busWrite
  split
  · split
    · rename_i r _
      rcases writeReg_cases s v r with h | h | h | h | h | h
      · exact .inl h
      · exact .inr (.inl h)
      · exact .inr (.inr (.inl h))
      · exact .inr (.inr (.inr (.inl h)))
      · exact .inr (.inr (.inr (.inr (.inl h))))
      · exact .inr (.inr (.inr (.inr (.inr (.inl h)))))
    · exact .inl rfl
  · unfold writeSym
    split
    · rename_i h
      exact .inr (.inr (.inr (.inr (.inr (.inr (.inl ⟨_, h.1, h.2, rfl⟩))))))
    · exact .inl rfl
  · unfold writeBit
    split
    · rename_i h
      exact .inr (.inr (.inr (.inr (.inr (.inr (.inr ⟨_, h.1, h.2, rfl⟩))))))
    · exact .inl rfl
  all_goals exact .inl rfl

/-- A symbol made of a word is a `SYM_W`-bit value. -/
theorem symbolOfWord_lt (c : Config) (v : Word) : (symbolOfWord c v).toNat < c.kMax := by
  have h : v.toNat % c.kMax < c.kMax := Nat.mod_lt _ (Nat.two_pow_pos _)
  simp only [symbolOfWord, BitVec.toNat_ofNat]
  exact lt_of_le_of_lt (Nat.mod_le _ _) h

/-! ### The host -/

theorem evalVal_state (s : State) (v : HostVal) :
    (evalVal s v).2 = s ∨ (evalVal s v).2 = s.drawn := by
  cases v with
  | lit w => exact .inl rfl
  | var n =>
    simp only [evalVal]
    split
    · exact .inl rfl
    · exact .inr rfl

/-- All that a host step can do: nothing, a write, a read into a variable, a wait that ends, or
reset. -/
theorem hostStep_cases (s : State) :
    hostStep s = s ∨
    (∃ (s' : State) (a v : Word), (s' = s ∨ s' = s.drawn) ∧
      hostStep s = (busWrite s' a v).popHost) ∨
    (∃ (s' : State) (n : Nat) (w : Word), (s' = s ∨ s' = s.drawn) ∧
      (hostStep s = s'.setVar n w ∨ hostStep s = (s'.setVar n w).popHost)) ∨
    hostStep s = s.popHost ∨
    hostStep s = s.resetInput.popHost := by
  unfold hostStep
  split
  · exact .inl rfl
  · rename_i a v _ _
    exact .inr (.inl ⟨_, a, _, evalVal_state s v, rfl⟩)
  · rename_i a n _ _
    exact .inr (.inr (.inl ⟨_, n, _, busRead_state s a, .inr rfl⟩))
  · rename_i n _ _
    split
    · exact .inr (.inr (.inl ⟨_, n, _, busRead_state s (Reg.offset .status), .inl rfl⟩))
    · exact .inr (.inr (.inl ⟨_, n, _, busRead_state s (Reg.offset .status), .inr rfl⟩))
  · split
    · exact .inr (.inr (.inr (.inl rfl)))
    · exact .inl rfl
  · exact .inr (.inr (.inr (.inr rfl)))

/-! ### The commands together -/

/-- What every command does when it answers a next state: it completes (R113), and leaves the host's
side, the registers the host writes, and `SYM` alone. -/
theorem exec_next {i : Instr} {s t : State} (h : exec i s = .next t) :
    t.ctl = .idle ∧ t.done = true ∧ t.cfg = s.cfg ∧ t.irqEn = s.irqEn ∧ t.cmd = s.cmd ∧
    t.inLen = s.inLen ∧ t.bitLen = s.bitLen ∧ t.sym = s.sym ∧ t.host = s.host ∧
    t.vars = s.vars ∧ t.turns = s.turns ∧ t.draws = s.draws := by
  cases i with
  | nop =>
    cases h
    simp
  | build =>
    rcases execBuild_cases s with ⟨-, h1⟩ | ⟨-, i, -, -, h1⟩ | ⟨-, xs, -, -, h1⟩ <;>
      simp only [exec, h1, reduceCtorEq] at h <;> cases h <;> simp [buildResult]
  | encode =>
    rcases execEncode_cases s with ⟨-, h1⟩ | ⟨-, -, h1⟩ | ⟨-, -, i, -, -, h1⟩ |
      ⟨-, -, ys, c, n, -, -, -, -, h1, -⟩ <;>
      simp only [exec, h1, reduceCtorEq] at h <;> cases h <;> simp
  | decode =>
    rcases execDecode_cases s with ⟨-, h1⟩ | ⟨-, -, h1⟩ | ⟨-, -, i, -, -, h1⟩ |
      ⟨-, -, bs, -, -, d, -, ⟨-, h1⟩ | ⟨-, h1⟩⟩ <;>
      simp only [exec, h1, reduceCtorEq] at h <;> cases h <;> simp

/-! ### A step -/

/-- When the core moves next. -/
theorem State.nextAgent_eq_core_iff (s : State) : s.nextAgent = .core ↔
    s.busy = true ∧ (s.turns.head? ≠ some .host ∨ s.host = []) := by
  unfold State.nextAgent
  cases s.busy with
  | false => simp
  | true =>
    simp only [if_true, true_and]
    split
    · simp_all
    · rename_i h
      simp only [true_iff]
      cases ht : s.turns with
      | nil => simp
      | cons a ts =>
        cases a with
        | core => simp
        | host =>
          cases hh : s.host with
          | nil => simp
          | cons op ops => exact (h ts op ops ht hh).elim

/-- All that a step can do: the running command, an illegal word, or a host step. -/
theorem step_cases (s : State) :
    (∃ sn i, s.ctl = .busy sn ∧ s.nextAgent = .core ∧ decodeCmd sn.cmd = .ok i ∧
      step s = exec i s.popTurn) ∨
    (∃ sn e, s.ctl = .busy sn ∧ s.nextAgent = .core ∧ decodeCmd sn.cmd = .error e ∧
      step s = .next (s.popTurn.complete .illegalCmd 0)) ∨
    (s.nextAgent = .host ∧ step s = .next (hostStep s.popTurn)) := by
  cases hn : s.nextAgent with
  | host => exact .inr (.inr ⟨rfl, by simp [step, hn]⟩)
  | core =>
    obtain ⟨sn, hs⟩ := (State.busy_eq_true_iff s).mp ((State.nextAgent_eq_core_iff s).mp hn).1
    cases hd : decodeCmd sn.cmd with
    | ok i => exact .inl ⟨sn, i, hs, rfl, hd, by simp [step, hn, coreStep, hs, hd]⟩
    | error e =>
      exact .inr (.inl ⟨sn, e, hs, rfl, hd, by
        simp [step, hn, coreStep, hs, hd, execIllegal_eq]⟩)

end Sys2Proof.Machine
end

