-- ==== Sys2Proof/Laws/Tables.lean ====
section
/-! SUPPORT. Codec states (R40 to R43): what depends on which fields, the codes in one, and the decoder
over an encoding. -/

namespace Sys2Proof.Machine

/-! ### What each part of the invariant depends on -/

theorem MemoriesOk.transfer {s t : State} (h : MemoriesOk s) (hc : t.cfg = s.cfg)
    (hs : t.sym = s.sym) (hb : t.bit = s.bit) (ho : t.out = s.out) (hv : t.vars = s.vars) :
    MemoriesOk t := by
  obtain ⟨h1, h2, h3, h4, h5, h6, h7, h8, h9⟩ := h
  constructor <;> simpa only [hc, hs, hb, ho, hv]

theorem TablesOk.transfer {s t : State} (h : TablesOk s) (hc : t.cfg = s.cfg) (hct : t.ct = s.ct)
    (hit : t.it = s.it) (hn : t.nsym = s.nsym) (hb : t.built = s.built) : TablesOk t := by
  obtain ⟨h1, h2, h3, h4, h5, h6, h7, h8⟩ := h
  have hcode : t.codeOf = s.codeOf := by
    funext x
    simp only [State.codeOf, State.ctEntry, hct]
  constructor <;> simpa only [hc, hct, hit, hn, hb, hcode]

theorem RegistersOk.transfer {s t : State} (h : RegistersOk s) (hc : t.cfg = s.cfg)
    (he : t.encLen = s.encLen) (ho : t.outLen = s.outLen) (hn : t.nsym = s.nsym)
    (hcode : t.errCode = s.errCode) (hinfo : t.errInfo = s.errInfo) (hctl : t.ctl = s.ctl)
    (hd : t.done = s.done) (hcmd : t.cmd = s.cmd) (hi : t.inLen = s.inLen)
    (hb : t.bitLen = s.bitLen) : RegistersOk t := by
  obtain ⟨h1, h2, h3, h4, h5⟩ := h
  constructor <;> simpa only [hc, he, ho, hn, hcode, hinfo, hctl, hd, hcmd, hi, hb]

/-! ### Legal parameters -/

theorem Config.wf_bounds {c : Config} (h : c.wf = true) :
    c.kMax ≤ 4096 ∧ c.lMax ≤ 4095 ∧ 1 ≤ c.nMax ∧ c.nMax ≤ 2 ^ 26 ∧ 1 ≤ c.bMax ∧
      c.bMax ≤ 2 ^ 26 := by
  simp only [Config.wf, Bool.and_eq_true, decide_eq_true_eq] at h
  have : c.kMax ≤ 2 ^ 12 := Nat.pow_le_pow_right (by decide) (by omega)
  unfold Config.lMax
  omega

/-! ### Codes -/

theorem TablesOk.code_length {s : State} (h : TablesOk s) {x : Symbol} {p : Bits}
    (hx : s.codeOf x = some p) : 1 ≤ p.length ∧ p.length ≤ s.cfg.lMax := by
  obtain ⟨e, he, rfl⟩ := (State.codeOf_eq_some_iff _ _ _).mp hx
  simpa using h.lengths _ (Memory.mem_of_read he)

@[simp] theorem State.encoding_nil (s : State) : s.encoding [] = [] := rfl

theorem State.encoding_cons (s : State) (x : Symbol) (xs : List Symbol) :
    s.encoding (x :: xs) = (s.codeOf x).getD [] ++ s.encoding xs := rfl

theorem State.codeOf_of_isSome {s : State} {x : Symbol} (h : (s.ctEntry x).isSome) :
    ∃ p, s.codeOf x = some p := by
  obtain ⟨e, he⟩ := Option.isSome_iff_exists.mp h
  exact ⟨e.bits, by simp [State.codeOf, he]⟩

/-- The decoder emits the symbols of an encoding and then goes on with what follows it. -/
theorem TablesOk.decodeLoop_encoding {s : State} (h : TablesOk s) (xs : List Symbol)
    (hx : s.allCoded xs) (rest : Bits) (i : Nat) :
    decodeLoop s.it (s.encoding xs ++ rest) i [] i =
      { decodeLoop s.it rest (i + (s.encoding xs).length) [] (i + (s.encoding xs).length) with
        syms := xs ++
          (decodeLoop s.it rest (i + (s.encoding xs).length) []
            (i + (s.encoding xs).length)).syms } := by
  induction xs generalizing i with
  | nil => simp
  | cons x xs ih =>
    obtain ⟨p, hp⟩ := State.codeOf_of_isSome (hx x List.mem_cons_self)
    have hlen := h.code_length hp
    have hne : p ≠ [] := fun h0 => by simp [h0] at hlen
    rw [State.encoding_cons, hp]
    simp only [Option.getD_some, List.append_assoc, List.length_append]
    rw [decodeLoop_code s.it p _ [] i i x hne (by simpa using (h.inverse p x).mpr hp)
      (fun d hd _ hdp => ?_)]
    · rw [ih (fun y hy => hx y (.tail _ hy))]
      simp [Nat.add_assoc]
    · by_contra hsome
      obtain ⟨y, hy⟩ := Option.ne_none_iff_exists'.mp hsome
      have hy' := (h.inverse d y).mp hy
      obtain rfl := h.prefixFree y x d p hy' hp hd
      rw [hp] at hy'
      cases hy'
      exact hdp rfl

/-- What the decoder reads is the encoding of what it emits, followed by the candidate, whose first bit
is at `start`. -/
theorem TablesOk.decodeLoop_parse {s : State} (h : TablesOk s) (bs : Bits) :
    s.allCoded (decodeLoop s.it bs 0 [] 0).syms ∧
    bs = s.encoding (decodeLoop s.it bs 0 [] 0).syms ++ (decodeLoop s.it bs 0 [] 0).cand ∧
    (decodeLoop s.it bs 0 [] 0).start = (s.encoding (decodeLoop s.it bs 0 [] 0).syms).length := by
  obtain ⟨cs, h1, h2, h3, -⟩ := decodeLoop_spec s.it bs 0 [] 0
  have h3 := h3 (by simp)
  have key : ∀ (cs : List Bits) (xs : List Symbol), cs.map (itLookup s.it) = xs.map some →
      s.allCoded xs ∧ s.encoding xs = cs.flatten := by
    intro cs
    induction cs with
    | nil =>
      intro xs hm
      cases xs with
      | nil => exact ⟨fun _ h => (List.not_mem_nil h).elim, rfl⟩
      | cons => simp at hm
    | cons p cs ih =>
      intro xs hm
      cases xs with
      | nil => simp at hm
      | cons x xs =>
        simp only [List.map_cons, List.cons.injEq] at hm
        obtain ⟨h8, h9⟩ := ih xs hm.2
        have hx := (h.inverse p x).mp hm.1
        refine ⟨fun y hy => ?_, by rw [State.encoding_cons, hx, h9]; rfl⟩
        rcases List.mem_cons.mp hy with rfl | hy
        · obtain ⟨e, he, -⟩ := (State.codeOf_eq_some_iff _ _ _).mp hx
          simp [he]
        · exact h8 y hy
  obtain ⟨h6, h7⟩ := key _ _ h2
  exact ⟨h6, by simpa [h7] using h1, by simpa [h7] using h3⟩

/-- Bits whose decoding leaves a candidate are no concatenation of codes. -/
theorem TablesOk.not_encoding {s : State} (h : TablesOk s) {bs : Bits}
    (hc : (decodeLoop s.it bs 0 [] 0).cand ≠ []) :
    ¬ ∃ ts : List Symbol, s.allCoded ts ∧ s.encoding ts = bs := by
  rintro ⟨ts, hx, rfl⟩
  have := h.decodeLoop_encoding ts hx [] 0
  rw [List.append_nil] at this
  exact hc (by rw [this]; rfl)

end Sys2Proof.Machine
end

