-- ==== Sys2Proof/Tests/Slice0.lean ====
section
/-! SUPPORT. Tests of single operations, with the results of spec/95_test_vectors.md and of the worked
examples, and for each statement with hypotheses a concrete case that meets them. -/

namespace Sys2Proof.Tests

open Sys2Proof.Machine

/-! ### Ill-formed terms -/

theorem test_wf_reference : Config.reference.wf = true := by decide
theorem test_wf_refuses_symW_0 : ({ symW := 0, nMax := 4, bMax := 4 } : Config).wf = false := by decide
theorem test_wf_refuses_symW_13 : ({ symW := 13, nMax := 4, bMax := 4 } : Config).wf = false := by decide
theorem test_wf_refuses_nMax_0 : ({ symW := 8, nMax := 0, bMax := 4 } : Config).wf = false := by decide
theorem test_wf_refuses_nMax_big : ({ symW := 8, nMax := 2 ^ 26 + 1, bMax := 4 } : Config).wf = false := by decide
theorem test_wf_refuses_bMax_0 : ({ symW := 8, nMax := 4, bMax := 0 } : Config).wf = false := by decide
theorem test_wf_refuses_bMax_big : ({ symW := 8, nMax := 4, bMax := 2 ^ 26 + 1 } : Config).wf = false := by decide
theorem test_wf_refuses_wrsym_index : (HostStmt.wrsym (2 ^ 26) 0x41).wf Config.reference = false := by decide
theorem test_wf_refuses_wrsym_symbol : (HostStmt.wrsym 0 0x100).wf Config.reference = false := by decide
theorem test_wf_refuses_wrbit_index : (HostStmt.wrbit (2 ^ 26) true).wf Config.reference = false := by decide
theorem test_wf_refuses_rdbit_index : (HostStmt.rdbit (2 ^ 26) 0).wf Config.reference = false := by decide
theorem test_wf_refuses_rdout_index : (HostStmt.rdout (2 ^ 26) 0).wf Config.reference = false := by decide
theorem test_wf_refuses_rdctlen_index : (HostStmt.rdctlen (2 ^ 26) 0).wf Config.reference = false := by decide
theorem test_wf_refuses_loadsym_symbol : (HostStmt.loadsym [0x41, 0x100]).wf Config.reference = false := by decide

/-! ### Command words, bit by bit from R90 and R92: `RSVD` (28 bits), `OPC` (4 bits) -/

theorem test_decode_nop : decodeCmd 0b0000000000000000000000000000_0000 = .ok .nop := by rfl
theorem test_decode_build : decodeCmd 0b0000000000000000000000000000_0001 = .ok .build := by rfl
theorem test_decode_encode : decodeCmd 0b0000000000000000000000000000_0010 = .ok .encode := by rfl
theorem test_decode_decode : decodeCmd 0b0000000000000000000000000000_0011 = .ok .decode := by rfl
theorem test_decode_reserved_opcode : decodeCmd 0b0000000000000000000000000000_0100 = .error .reservedOpcode := by rfl
theorem test_decode_reserved_bit : decodeCmd 0b0000000000000000000000000001_0010 = .error .reservedBits := by rfl
theorem test_table_word : decodeTableWord 32 0x00000003 = some .decode := by rfl

/-! ### Small machines -/

/-- The next state of an outcome. -/
def next? : Result → Option State
  | .next t => some t
  | .fault _ => none
  | .refused _ => none

/-- The fault of an outcome. -/
def fault? : Result → Option Fault
  | .next _ => none
  | .fault f => some f
  | .refused _ => none

/-- An idle machine of the reference instance with `xs` in `SYM` and in `IN_LEN` its length. -/
def loaded (xs : List Symbol) : State :=
  { State.reset with
    sym := Memory.writeSeq [] 0 xs
    inLen := BitVec.ofNat 32 xs.length }

/-- "ABRACADABRA" (V5). -/
def abra : List Symbol := [0x41, 0x42, 0x52, 0x41, 0x43, 0x41, 0x44, 0x41, 0x42, 0x52, 0x41]

/-- The bits of V17. -/
def abraBits : Bits :=
  [false, true, true, false, true, true, true, false, true, false, false, false, true, false, true,
   false, true, true, false, true, true, true, false]

/-- The code table of V5, its codes written as `LEN` and `CODE`, bit 0 first. -/
def abraTable : Memory CodeEntry :=
  [(0x41, ⟨1, 0b0⟩), (0x42, ⟨3, 0b011⟩), (0x43, ⟨3, 0b001⟩), (0x44, ⟨3, 0b101⟩), (0x52, ⟨3, 0b111⟩)]

/-- The inverse table of V5. -/
def abraInverse : List (Bits × Symbol) :=
  [([false], 0x41), ([true, false, false], 0x43), ([true, false, true], 0x44),
   ([true, true, false], 0x42), ([true, true, true], 0x52)]

/-- An idle machine with the tables of V5 built. -/
def abraBuilt : State :=
  { loaded abra with ct := abraTable, it := abraInverse, nsym := 5, built := true }

/-- A machine about to decode `bs` with the tables of V5. -/
def abraDecoding (bs : Bits) : State :=
  { abraBuilt with
    bit := Memory.writeSeq [] 0 bs
    bitLen := BitVec.ofNat 32 bs.length }.accept 3

/-! ### The commands -/

/-- V37. -/
theorem test_nop_from_reset :
    (next? (step (State.reset.withFetchWord 32 0))).map (fun t => (t.statusWord, t.errCode, t.cmd)) =
      some (0x00000002, .none, 0) := by decide

/-- V40: not `NOT_BUILT`. -/
theorem test_illegal_word :
    (next? (step (State.reset.withFetchWord 32 0x12))).map (fun t => (t.statusWord, t.errCode, t.cmd)) =
      some (0x00000006, .illegalCmd, 0x12) := by decide

/-- V5: codes of a tree with ties. -/
theorem test_build_abracadabra :
    (next? (exec .build ((loaded abra).accept 1))).map (fun t => (t.ct, t.it, t.nsym)) =
      some (abraTable, abraInverse, 5) := by decide +kernel

/-- R131, as V14: `LENGTH` with `N_MAX` = 64. -/
theorem test_build_length :
    (next? (exec .build ({ State.reset with inLen := 65 }.accept 1))).map
      (fun t => (t.errCode, t.built, t.statusWord)) = some (.length, false, 0x00000006) := by decide

/-- V17. -/
theorem test_encode_abracadabra :
    (next? (exec .encode (abraBuilt.accept 2))).map (fun t => (t.bit, t.encLen, t.errCode)) =
      some (Memory.writeSeq [] 0 abraBits, 23, .none) := by decide +kernel

/-- V19: `OVERFLOW` at index 2, none of the third symbol's bits written. -/
theorem test_encode_overflow :
    (next? (exec .encode ({ abraBuilt with inLen := 3, cfg := ⟨8, 64, 4⟩ }.accept 2))).map
      (fun t => (t.bit, t.encLen, t.errCode, t.errInfo)) =
      some (Memory.writeSeq [] 0 [false, true, true, false], 4, .overflow, 2) := by decide +kernel

/-- V24. -/
theorem test_decode_abracadabra :
    (next? (exec .decode (abraDecoding abraBits))).map (fun t => (t.out, t.outLen, t.errCode)) =
      some (Memory.writeSeq [] 0 abra, 11, .none) := by decide +kernel

/-- V27: `MALFORMED_CODE`, the candidate "11" from index 7, as the host reads `ERR_CODE`, `ERR_INFO` and
`OUT_LEN`. -/
theorem test_decode_malformed :
    (next? (exec .decode (abraDecoding
      [false, true, true, false, true, true, true, true, true]))).map
      (fun t => (t.out, [0x1C, 0x20, 0x30].map (fun a => (busRead t a).1))) =
      some (Memory.writeSeq [] 0 [0x41, 0x42, 0x52], [2, 7, 3]) := by decide +kernel

/-! ### The port -/

/-- V47: the constants of the reference instance. -/
theorem test_constants : [0x00, 0x04, 0x08, 0x0C].map (fun a => (busRead State.reset a).1) =
    [0x48554631, 8, 64, 64] := by decide

/-- R211: the numbers of the error codes at the port. -/
theorem test_error_numbers :
    [ErrCode.none, .unknownSymbol, .malformedCode, .illegalCmd, .notBuilt, .length, .overflow].map
      (fun e => (busRead { State.reset with errCode := e } 0x1C).1) = [0, 1, 2, 3, 4, 5, 6] := by
  decide

/-- The views after V5. -/
theorem test_views :
    [0x40000108, 0x40000114, 0x50010800, 0x50010808, 0x5001080C].map
      (fun a => (busRead abraBuilt a).1) = [0x80000003, 0, 1, 0, 0] := by decide +kernel

/-- V44, V45. -/
theorem test_irq : (busWrite { State.reset with done := true } 0x10 1).irq = true ∧
    (busWrite { State.reset with done := true, irqEn := true } 0x18 2).irq = false := by decide

/-- R97: the addresses of `WRSYM`, `WRBIT`, `RDOUT`, `RDCTLEN` (P1, P3). -/
theorem test_element_addresses :
    [elementAddr 1 10, elementAddr 2 8, elementAddr 3 1, elementAddr 4 0x42] =
      [0x10000028, 0x20000020, 0x30000004, 0x40000108] := by decide

/-- V43: a write of `IN_LEN` while busy is ignored. -/
theorem test_write_while_busy : busWrite ((loaded abra).accept 1) 0x24 7 = (loaded abra).accept 1 := by
  decide

/-! ### Witnesses: for each statement with hypotheses, a case that meets them all

The cases are of an instance of two-bit symbols whose memories hold four symbols and eight bits. -/

/-- A statement about the members of a list, by evaluation. -/
theorem forall_mem_of_all {α : Type} {xs : List α} {p : α → Prop} [DecidablePred p]
    (h : xs.all (fun x => decide (p x)) = true) : ∀ x ∈ xs, p x := by
  simpa using h

/-- The smallest instance with more than two symbol values. -/
def tiny : Config := { symW := 2, nMax := 4, bMax := 8 }

/-- An idle machine, `SYM` full, the last element at index `N_MAX` - 1. -/
def small : State :=
  { State.resetWith tiny with
    sym := [(0, 0), (1, 0), (2, 1), (3, 2)]
    inLen := 4 }

/-- The operand of `small`. -/
def smallSyms : List Symbol := [0, 0, 1, 2]

/-- `small` after `BUILD`: 0, 1, 2 have the codes "0", "10", "11". -/
def smallBuilt : State := buildResult (small.accept 1) smallSyms

/-- `smallBuilt` about to decode `bs`. -/
def smallDecoding (bs : Bits) : State :=
  { smallBuilt with
    bit := Memory.writeSeq [] 0 bs
    bitLen := BitVec.ofNat 32 bs.length }.accept 3

/-- Two copies of one symbol. -/
def single : State :=
  { State.resetWith tiny with
    sym := [(0, 2), (1, 2)]
    inLen := 2 }

theorem tables_smallBuilt : TablesOk smallBuilt :=
  buildResult_tables (by decide) (forall_mem_of_all (by decide))

theorem tables_smallDecoding (bs : Bits) : TablesOk (smallDecoding bs) :=
  tables_smallBuilt.transfer rfl rfl rfl rfl rfl

theorem inv_small : Inv small where
  config := by decide
  memories := by constructor <;> decide
  tables := by
    refine ⟨by decide, by decide, by decide, by decide, fun c x => ?_, fun x y c d h => ?_, rfl,
      fun _ => rfl⟩
    · simp [small, State.codeOf, State.ctEntry, State.resetWith, itLookup]
    · simp [small, State.codeOf, State.ctEntry, State.resetWith] at h
  registers := by
    refine ⟨by decide, by decide, by decide, by decide, fun sn h => ?_⟩
    simp [small, State.resetWith] at h

/-- The hypotheses on the operand of a `BUILD`. -/
abbrev BuildOperand (s : State) (xs : List Symbol) : Prop :=
  s.cfg.wf = true ∧ xs.length = s.nIn ∧ s.nIn ≤ s.cfg.nMax ∧ Memory.holds s.sym xs ∧
    ∀ x ∈ xs, x.toNat < s.cfg.kMax

/-- BuildCompletes: four symbols, `N_MAX` of them; two of one; none. -/
theorem witness_build_operand : BuildOperand (small.accept 1) smallSyms ∧
    BuildOperand (single.accept 1) [2, 2] ∧
    BuildOperand ((State.resetWith tiny).accept 1) [] :=
  ⟨⟨by decide, by decide, by decide, by decide, forall_mem_of_all (by decide)⟩,
   ⟨by decide, by decide, by decide, by decide, forall_mem_of_all (by decide)⟩,
   ⟨by decide, by decide, by decide, by decide, forall_mem_of_all (by decide)⟩⟩

/-- BuiltTablesArePrefixFreeAndInverse, BuiltCodeIsComplete, CodesAreTreePaths,
CodeLengthsAreBounded, MalformedInputEndsInsideACode: three symbols, one, none. -/
theorem witness_build_next :
    (2 ≤ smallSyms.toFinset.card ∧ exec .build (small.accept 1) = .next smallBuilt) ∧
    (([2, 2] : List Symbol).toFinset.card = 1 ∧
      exec .build (single.accept 1) = .next (buildResult (single.accept 1) [2, 2])) ∧
    exec .build ((State.resetWith tiny).accept 1) =
      .next (buildResult ((State.resetWith tiny).accept 1) []) :=
  ⟨⟨by decide, execBuild_of_holds (by decide) (by decide) (by decide)⟩,
   ⟨by decide, execBuild_of_holds (by decide) (by decide) (by decide)⟩,
   execBuild_of_holds (by decide) (by decide) (by decide)⟩

/-- CodesAreTreePaths, CodeLengthsAreBounded: the codes of `smallBuilt`. -/
theorem witness_codes : [0, 1, 2, 3].map smallBuilt.codeOf =
    [some [false], some [true, false], some [true, true], none] := by decide +kernel

/-- MoreFrequentSymbolsHaveShorterCodes: 0 occurs twice, 1 once. -/
theorem witness_more_frequent : smallSyms.count 1 < smallSyms.count 0 := by decide

/-- BuiltCodeIsOptimal: the other code is one of two-bit words. -/
theorem witness_optimal : PrefixCode smallSyms (fun x => [x.getLsbD 0, x.getLsbD 1]) ∧
    ∀ x ∈ smallSyms, (fun x : Symbol => [x.getLsbD 0, x.getLsbD 1]) x ≠ [] := by
  refine ⟨fun x hx y hy => ?_, fun _ _ => by simp⟩
  simp only [smallSyms, List.mem_cons, List.not_mem_nil, or_false] at hx hy
  rcases hx with rfl | rfl | rfl | rfl <;> rcases hy with rfl | rfl | rfl | rfl <;> decide

/-- SingleSymbolAndEmptyBuild. -/
theorem witness_single : (([2, 2] : List Symbol) ≠ [] ∧ ∀ y ∈ ([2, 2] : List Symbol), y = 2) ∧
    ([2, 2] : List Symbol).length = (single.accept 1).nIn :=
  ⟨⟨by decide, forall_mem_of_all (by decide)⟩, by decide⟩

/-- FrequenciesPartitionTheInput, MergeEndsInOneTree, MergeRemovesTheTwoLeastNodes. -/
theorem witness_frequencies : (∀ x ∈ smallSyms, x.toNat < 3) ∧ 2 ≤ smallSyms.toFinset.card ∧
    countSymbols smallSyms ≠ [] :=
  ⟨forall_mem_of_all (by decide), by decide⟩

/-- BuildForgetsEarlierTables: one machine has tables and another parameter, the other has not. -/
theorem witness_forgets :
    (small.accept 1).nIn = (smallBuilt.accept 1).nIn ∧
    (∀ i, i < (small.accept 1).nIn →
      Memory.read (small.accept 1).sym i = Memory.read (smallBuilt.accept 1).sym i) ∧
    exec .build (small.accept 1) = .next smallBuilt ∧
    exec .build (smallBuilt.accept 1) = .next (buildResult (smallBuilt.accept 1) smallSyms) :=
  ⟨by decide, by decide, execBuild_of_holds (by decide) (by decide) (by decide),
   execBuild_of_holds (by decide) (by decide) (by decide)⟩

/-- BuildLengthCheck, PrechecksLeaveEverythingUnchanged, OperandLengthRegisters: lengths one above
the capacity. -/
theorem witness_lengths :
    ({ smallBuilt with inLen := 5 }.accept 1).cfg.nMax < ({ smallBuilt with inLen := 5 }.accept 1).nIn ∧
    ({ smallBuilt with inLen := 5 }.accept 2).built = true ∧
    ({ smallBuilt with bitLen := 9 }.accept 3).cfg.bMax <
      ({ smallBuilt with bitLen := 9 }.accept 3).nBits ∧
    small.built = false ∧
    smallBuilt.ctl = .idle ∧ { smallBuilt with inLen := 5 }.cfg.nMax < (5 : Word).toNat ∧
    { smallBuilt with bitLen := 9 }.cfg.bMax < (9 : Word).toNat := by decide

/-- EncodeConcatenatesCodes: six bits in eight, and eight bits in eight. -/
theorem witness_encode : (smallBuilt.accept 2).cfg.wf = true ∧ Memory.wf (smallBuilt.accept 2).bit ∧
    (smallBuilt.accept 2).built = true ∧ smallSyms.length = (smallBuilt.accept 2).nIn ∧
    (smallBuilt.accept 2).nIn ≤ (smallBuilt.accept 2).cfg.nMax ∧
    Memory.holds (smallBuilt.accept 2).sym smallSyms ∧ (smallBuilt.accept 2).allCoded smallSyms ∧
    ((smallBuilt.accept 2).encoding smallSyms).length = 6 ∧
    ((smallBuilt.accept 2).encoding [2, 2, 2, 2]).length = tiny.bMax :=
  ⟨by decide, by decide, by decide, by decide, by decide, by decide,
    forall_mem_of_all (by decide +kernel), by decide +kernel⟩

/-- `smallBuilt` with 3 last in `SYM`, a symbol without a code. -/
def smallUnknown : State :=
  { smallBuilt with sym := [(0, 0), (1, 0), (2, 1), (3, 3)] }.accept 2

/-- `smallBuilt` with a `BIT` of five bits, which two codes of two bits fit and three do not. -/
def smallOverflow : State :=
  { smallBuilt with sym := [(0, 2), (1, 2), (2, 2), (3, 0)], cfg := ⟨2, 4, 5⟩ }.accept 2

/-- EncodeStopsAtTheFirstBadSymbol: the last symbol unknown. -/
theorem witness_encode_unknown : smallUnknown.cfg.wf = true ∧ Memory.wf smallUnknown.bit ∧
    smallUnknown.built = true ∧ [0, 0, 1].length < smallUnknown.nIn ∧
    smallUnknown.nIn ≤ smallUnknown.cfg.nMax ∧ Memory.holds smallUnknown.sym ([0, 0, 1] ++ [3]) ∧
    smallUnknown.allCoded [0, 0, 1] ∧
    (smallUnknown.encoding [0, 0, 1]).length ≤ smallUnknown.cfg.bMax ∧
    smallUnknown.ctEntry 3 = none :=
  ⟨by decide, by decide, by decide, by decide, by decide, by decide,
    forall_mem_of_all (by decide +kernel), by decide +kernel⟩

/-- EncodeStopsAtTheFirstBadSymbol: the third symbol one bit too long. -/
theorem witness_encode_overflow : smallOverflow.cfg.wf = true ∧ Memory.wf smallOverflow.bit ∧
    smallOverflow.built = true ∧ [2, 2].length < smallOverflow.nIn ∧
    smallOverflow.nIn ≤ smallOverflow.cfg.nMax ∧ Memory.holds smallOverflow.sym ([2, 2] ++ [2]) ∧
    smallOverflow.allCoded [2, 2] ∧
    (smallOverflow.encoding [2, 2]).length ≤ smallOverflow.cfg.bMax ∧
    smallOverflow.cfg.bMax < (smallOverflow.encoding ([2, 2] ++ [2])).length :=
  ⟨by decide, by decide, by decide, by decide, by decide, by decide,
    forall_mem_of_all (by decide +kernel), by decide +kernel⟩

/-- DecodeInvertsEncoding: eight bits, as many as `BIT` holds. -/
theorem witness_decode : TablesOk (smallDecoding (smallBuilt.encoding [2, 2, 1, 0, 0])) ∧
    Memory.wf (smallDecoding (smallBuilt.encoding [2, 2, 1, 0, 0])).out ∧
    (smallDecoding (smallBuilt.encoding [2, 2, 1, 0, 0])).built = true ∧
    (smallDecoding (smallBuilt.encoding [2, 2, 1, 0, 0])).allCoded [2, 2, 1, 0, 0] ∧
    (smallBuilt.encoding [2, 2, 1, 0, 0]).length =
      (smallDecoding (smallBuilt.encoding [2, 2, 1, 0, 0])).nBits ∧
    (smallDecoding (smallBuilt.encoding [2, 2, 1, 0, 0])).nBits = tiny.bMax ∧
    Memory.holds (smallDecoding (smallBuilt.encoding [2, 2, 1, 0, 0])).bit
      (smallBuilt.encoding [2, 2, 1, 0, 0]) :=
  ⟨tables_smallDecoding _, by decide, by decide, forall_mem_of_all (by decide +kernel),
    by decide +kernel⟩

/-- DecodeIsTheUniqueParse: "0 11" decodes without an error. -/
theorem witness_decode_parse : TablesOk (smallDecoding [false, true, true]) ∧
    Memory.holds (smallDecoding [false, true, true]).bit [false, true, true] ∧
    [false, true, true].length = (smallDecoding [false, true, true]).nBits ∧
    (next? (exec .decode (smallDecoding [false, true, true]))).map State.errCode = some .none :=
  ⟨tables_smallDecoding _, by decide +kernel⟩

/-- DecodeReportsMalformedInput: "0 1". -/
theorem witness_decode_malformed :
    Memory.holds (smallDecoding [false, true]).bit [false, true] ∧
    [false, true].length = (smallDecoding [false, true]).nBits ∧
    ¬ ∃ ts : List Symbol, (smallDecoding [false, true]).allCoded ts ∧
      (smallDecoding [false, true]).encoding ts = [false, true] :=
  ⟨by decide, by decide, (tables_smallDecoding _).not_encoding (by decide +kernel)⟩

/-- LongCandidateIsDead: `L_MAX` is 3. -/
theorem witness_long_candidate : TablesOk smallBuilt ∧
    smallBuilt.cfg.lMax ≤ ([true, true, true] : Bits).length :=
  ⟨tables_smallBuilt, by decide⟩

/-- RoundTrip. -/
theorem witness_round_trip : Inv small ∧ small.ctl = .idle ∧ small.inLen.toNat = smallSyms.length ∧
    smallSyms.length ≤ small.cfg.nMax ∧ Memory.holds small.sym smallSyms ∧
    (∀ t, exec .build (busWrite small 0x14 1) = .next t →
      (t.encoding smallSyms).length ≤ small.cfg.bMax) := by
  refine ⟨inv_small, rfl, by decide, by decide, by decide, fun t h => ?_⟩
  have h' := (execBuild_of_holds (s := small.accept 1) (xs := smallSyms) (by decide) (by decide)
    (by decide)).symm.trans h
  cases h'
  decide +kernel

/-- RoundTripProgramRuns: `small` with the program pending. -/
theorem witness_round_trip_program :
    (∃ s : State, Inv s ∧ s.ctl = .idle ∧ s.turns = [] ∧ Memory.holds s.sym smallSyms ∧
      s.host = expandProgram [.run .build 0, .run .encode 0, .rd .encLen 1, .wr .bitLen (.var 1),
        .run .decode 0]) :=
  ⟨{ small with host := expandProgram [.run .build 0, .run .encode 0, .rd .encLen 1,
      .wr .bitLen (.var 1), .run .decode 0] },
    ⟨inv_small.config, inv_small.memories.transfer rfl rfl rfl rfl rfl,
      inv_small.tables.transfer rfl rfl rfl rfl rfl,
      inv_small.registers.transfer rfl rfl rfl rfl rfl rfl rfl rfl rfl rfl rfl⟩,
    rfl, rfl, by decide, rfl⟩

/-! #### The port -/

/-- The region and the word index of addresses (R61). -/
def places (as : List Word) : List (Nat × Nat) :=
  as.map (fun a => ((a.extractLsb' 28 4).toNat, (a.extractLsb' 2 26).toNat))

/-- CommandWriteIsAcceptedWhenIdle: the lowest and the highest address of `CMD`, idle and busy. -/
theorem witness_command_write : small.ctl = .idle ∧
    (small.accept 1).ctl = .busy { cmd := 1, nIn := 4, nBits := 0 } ∧
    places [0x14, 0x17] = [(0, 5), (0, 5)] := by decide

/-- StepRunsDecodedCommand: nothing pending; a pending write that has no turn. -/
theorem witness_step_runs :
    (∃ sn, (small.accept 3).ctl = .busy sn ∧ decodeCmd sn.cmd = .ok .decode) ∧
    (small.accept 3).host = [] ∧
    ∃ s : State, s.ctl = (small.accept 3).ctl ∧ s.host ≠ [] ∧ s.turns.head? ≠ some .host :=
  ⟨⟨_, rfl, rfl⟩, rfl,
    { small.accept 3 with host := [.reset], turns := [.core, .host] }, rfl, by decide, by decide⟩

/-- HostMovesWhenCoreDoesNot: its third clause. -/
theorem witness_host_moves : ∃ (s : State) (sn : Snapshot) (op : HostOp) (ops : List HostOp) (ts : List Agent), s.ctl = .busy sn ∧ s.host = op :: ops ∧
    s.turns = .host :: ts :=
  ⟨{ small.accept 1 with host := [.reset], turns := [.host] }, _, _, _, _, rfl, rfl, rfl⟩

/-- IllegalWordEndsWithIllegalCmd: the reserved opcodes' ends, the lowest reserved bit with a legal
opcode, all ones. -/
theorem witness_illegal : small.ctl = .idle ∧ small.built = false ∧
    ([0x4, 0xF, 0x10, 0xFFFFFFFF] : List Word).all (fun w =>
      w.extractLsb' 4 28 ≠ 0 ∨ 3 < (w.extractLsb' 0 4).toNat) = true := by decide

/-- EveryCommandCompletes, its first clause, each command with all its operands written. -/
theorem witness_operands_written : (small.accept 0).operandsWritten .nop ∧
    (small.accept 1).operandsWritten .build ∧ (small.accept 2).operandsWritten .encode ∧
    (smallDecoding [false, true]).operandsWritten .decode :=
  ⟨trivial, (by decide : ∀ i, i < (small.accept 1).nIn → (Memory.read (small.accept 1).sym i).isSome),
    (by decide : ∀ i, i < (small.accept 2).nIn → (Memory.read (small.accept 2).sym i).isSome),
    (by decide : ∀ j, j < (smallDecoding [false, true]).nBits →
      (Memory.read (smallDecoding [false, true]).bit j).isSome)⟩

/-- EveryCommandCompletes, its second clause: the last element of the operand not written. -/
theorem witness_faults :
    fault? (exec .build ({ small with sym := [(0, 0), (1, 0), (2, 1)] }.accept 1)) =
      some (.unwrittenSym 3) ∧
    fault? (exec .decode ({ smallBuilt with bit := [(0, true)], bitLen := 2 }.accept 3)) =
      some (.unwrittenBit 1) := by decide +kernel

/-- BackToBackCommandsBothOutcomes. -/
theorem witness_back_to_back : ∃ s : State, s.ctl = .idle ∧
    s.host = [.write 0x14 (.lit 0), .write 0x14 (.lit 1)] :=
  ⟨{ small with host := [.write 0x14 (.lit 0), .write 0x14 (.lit 1)] }, rfl, rfl⟩

/-- InterruptFollowsDoneAndEnable: its clauses about a write of `CTRL` and of `STATUS`. -/
theorem witness_interrupt : (1 : Word).getLsbD 0 = true ∧ (2 : Word).getLsbD 1 = true ∧
    (0xFFFFFFFE : Word).getLsbD 0 = false ∧ smallBuilt.done = true ∧
    ({ smallBuilt with irqEn := true } : State).irq = true ∧ smallBuilt.ctl = .idle := by decide

/-- ReservedAddressesReadZero: the first reserved offset, the last of the 256-byte block, the first
behind it, the last of the region; the first and the last reserved region. -/
theorem witness_reserved :
    places [0x38, 0xFC, 0x100, 0x0FFFFFFC, 0x60000000, 0xFFFFFFFF] =
      [(0, 14), (0, 63), (0, 64), (0, 2 ^ 26 - 1), (6, 0), (15, 2 ^ 26 - 1)] := by decide

/-- TablesPersist: a `BUILD`, a reset, and a `NOP`, which keeps the tables. -/
theorem witness_tables_persist :
    step (small.accept 1) = .next smallBuilt ∧ (small.accept 1).nextAgent = .core ∧
    (∃ s : State, s.host.head? = some .reset ∧ s.nextAgent = .host ∧ s.nsym = smallBuilt.nsym) ∧
    step (smallBuilt.accept 0) = .next ((smallBuilt.accept 0).complete .none 0) :=
  ⟨execBuild_of_holds (s := small.accept 1) (xs := smallSyms) (by decide) (by decide) (by decide),
    rfl, ⟨{ smallBuilt with host := [.reset] }, rfl, rfl, rfl⟩, rfl⟩

/-- SymMemoryAccess: index 3, the last below `N_MAX`, and index 4; idle and busy; an element written
and one not. -/
theorem witness_sym_access : small.cfg.wf = true ∧ Memory.wf small.sym ∧
    places [0x1000000C, 0x10000010] = [(1, small.cfg.nMax - 1), (1, small.cfg.nMax)] ∧
    small.ctl = .idle ∧ (small.accept 1).ctl ≠ .idle ∧
    Memory.read small.sym ((0x1000000C : Word).extractLsb' 2 26).toNat = some 2 ∧
    Memory.read State.reset.sym ((0x1000000C : Word).extractLsb' 2 26).toNat = none := by decide

/-- BitMemoryAccess, OutMemoryIsReadOnly: index 7, the last below `B_MAX`, and index 8; in the empty
memory of `small` no element is written. -/
theorem witness_bit_access : small.ctl = .idle ∧ small.cfg = tiny ∧ tiny.wf = true ∧
    Memory.read small.bit 7 = none ∧ Memory.read small.out 7 = none ∧
    places [0x2000001C, 0x20000020, 0x3000001C, 0x30000020] =
      [(2, tiny.bMax - 1), (2, tiny.bMax), (3, tiny.oMax - 1), (3, tiny.oMax)] ∧
    Memory.wf ([(7, true)] : Memory Bool) ∧
    Memory.read ([(7, true)] : Memory Bool) ((0x2000001C : Word).extractLsb' 2 26).toNat =
      some true ∧
    Memory.read ([(7, 3)] : Memory Symbol) ((0x3000001C : Word).extractLsb' 2 26).toNat =
      some 3 := by decide

/-- CodeTableViews: in `CT_LEN` symbol 2 is present, 3 is absent and 4 is none; in `CT_BITS` the last
bit of the code of 2, the bit behind it, the first bit of 3 and of 4. -/
theorem witness_views : smallBuilt.ctl = .idle ∧ smallBuilt.cfg.wf = true ∧
    places [0x40000008, 0x4000000C, 0x40000010] = [(4, 2), (4, 3), (4, smallBuilt.cfg.kMax)] ∧
    (smallBuilt.ctEntry 2).isSome ∧ smallBuilt.ctEntry 3 = none ∧
    places [0x50000024, 0x50000028, 0x50000030, 0x50000040] =
      [(5, 2 * 2 ^ 2 + 1), (5, 2 * 2 ^ 2 + 2), (5, 3 * 2 ^ 2), (5, 4 * 2 ^ 2)] := by decide +kernel

/-- AddressLowBitsIgnored. -/
theorem witness_low_bits : (0x10000004 : Word).extractLsb' 2 30 =
    (0x10000007 : Word).extractLsb' 2 30 := by decide

/-- ReadsWhileBusy, its clauses about `ERR_CODE`: every code is that of some state. -/
theorem witness_error_codes : ∀ e : ErrCode, ∃ s : State, s.errCode = e :=
  fun e => ⟨{ small with errCode := e }, rfl⟩

/-- ReadsWhileBusy, WritesWhileBusyAreDropped: an address of each kind. -/
theorem witness_while_busy : (∃ sn, (small.accept 1).ctl = .busy sn) ∧
    ((0x20000000 : Word).extractLsb' 28 4).toNat = 2 ∧
    ((0x5FFFFFFF : Word).extractLsb' 28 4).toNat = 5 ∧
    (0x1000000C : Word).extractLsb' 28 4 = 1 ∧
    ((0x1000000C : Word).extractLsb' 2 26).toNat < (small.accept 1).cfg.nMax ∧
    Memory.read (small.accept 1).sym ((0x1000000C : Word).extractLsb' 2 26).toNat = some 2 ∧
    ([0x10, 0x14, 0x18, 0x24, 0x28].map (fun a : Word => a.extractLsb' 2 26)) =
      [4, 5, 6, 9, 10] ∧
    (2 : Word).getLsbD 1 = true :=
  ⟨⟨_, rfl⟩, by decide⟩

/-- LoadsymLoadsTheOperand: `N_MAX` symbols, with more steps behind. -/
theorem witness_loadsym : ∃ s : State, s.ctl = .idle ∧ Memory.wf s.sym ∧ s.cfg.wf = true ∧
    (HostStmt.loadsym [3, 2, 1, 0]).wf s.cfg = true ∧
    ([3, 2, 1, 0] : List Symbol).length = s.cfg.nMax ∧
    s.host = expandStmt (.loadsym [3, 2, 1, 0]) ++ [.reset] :=
  ⟨{ small with host := expandStmt (.loadsym [3, 2, 1, 0]) ++ [.reset] }, rfl, by decide, by decide,
    by decide, rfl, rfl⟩

/-- ResetStateIsIdle: a pending command word. -/
theorem witness_start : ∃ s t : State, s.ctl = .idle ∧ step s = .next t ∧ t.ctl ≠ .idle :=
  ⟨{ small with host := [.write 0x14 (.lit 0)] }, _, rfl, rfl, by decide⟩

/-- ResetInputResetsEverything: while a command runs. -/
theorem witness_reset_input : ∃ s : State, s.host = [.reset] ∧ s.turns.head? = some .host ∧
    s.ctl ≠ .idle ∧ s.built = true :=
  ⟨{ smallBuilt.accept 1 with host := [.reset], turns := [.host] }, rfl, rfl, by decide, rfl⟩

/-- ResetMeetsInvariant. -/
theorem witness_legal_instance : tiny.wf = true ∧ Config.reference.wf = true := by decide

/-- StepKeepsInvariant, StepKeepsCanonicalMemories: a host step and a stutter of a legal state. -/
theorem witness_step : Inv small ∧ CanonicalMemories small ∧ step small = .next small :=
  ⟨inv_small, by decide, rfl⟩

end Sys2Proof.Tests
end

section
/-! Who moves next, and what the step is when it is the host (R8, R229, R242). -/

namespace Sys2Proof.Machine

theorem State.nextAgent_of_idle {s : State} (h : s.ctl = .idle) : s.nextAgent = .host := by
  simp [State.nextAgent, (State.busy_eq_false_iff s).mpr h]

theorem State.nextAgent_of_host_turn {s : State} {sn : Snapshot} {op : HostOp} {ops : List HostOp}
    {ts : List Agent} (hctl : s.ctl = .busy sn) (hhost : s.host = op :: ops)
    (hturns : s.turns = .host :: ts) : s.nextAgent = .host := by
  simp [State.nextAgent, (State.busy_eq_true_iff s).mpr ⟨sn, hctl⟩, hhost, hturns]

theorem State.popTurn_of_busy {s : State} {sn : Snapshot} (h : s.ctl = .busy sn) :
    s.popTurn = { s with turns := s.turns.tail } := by
  simp [State.popTurn, (State.busy_eq_true_iff s).mpr ⟨sn, h⟩]

theorem step_of_nextAgent_host {s : State} (h : s.nextAgent = .host) :
    step s = .next (hostStep s.popTurn) := by
  simp [step, h]

theorem step_of_idle {s : State} (h : s.ctl = .idle) : step s = .next (hostStep s) := by
  rw [step_of_nextAgent_host (State.nextAgent_of_idle h),
    State.popTurn_idle s ((State.busy_eq_false_iff s).mpr h)]

theorem step_of_host_turn {s : State} {sn : Snapshot} {op : HostOp} {ops : List HostOp}
    {ts : List Agent} (hctl : s.ctl = .busy sn) (hhost : s.host = op :: ops)
    (hturns : s.turns = .host :: ts) : step s = .next (hostStep { s with turns := ts }) := by
  rw [step_of_nextAgent_host (State.nextAgent_of_host_turn hctl hhost hturns),
    State.popTurn_of_busy hctl, hturns, List.tail_cons]

theorem hostStep_of_no_pending {s : State} (h : s.host = []) : hostStep s = s := by
  simp [hostStep, h]

/-- Settles O6: an idle machine's next agent is the host, which does nothing when it has no step
pending; a busy machine's is the host when it has both a pending step and the turn. -/
theorem hostMovesWhenCoreDoesNot : Obligations.HostMovesWhenCoreDoesNot := by
  intro s
  refine ⟨step_of_idle, fun hctl hhost => ?_, fun _ _ _ _ => step_of_host_turn⟩
  rw [step_of_idle hctl, hostStep_of_no_pending hhost]

end Sys2Proof.Machine
end

section
/-! How a command ends: the one inversion lemma for all of them, which the frame, the persistence of the
tables and the invariant are read off. -/

namespace Sys2Proof.Machine

/-- The ways a command ends with a next state: a check or `NOP` changes nothing but the completion's
registers, a `BUILD` leaves its tables, an `ENCODE` bits that fit, a `DECODE` what its loop emits. -/
inductive Completes (s : State) : Instr → State → Prop
  | bare (i : Instr) (code : ErrCode) : Completes s i (s.complete code 0)
  | built (xs : List Symbol) : xs.length = s.nIn → Memory.holds s.sym xs →
      Completes s .build (buildResult s xs)
  | encoded (bits : Bits) (code : ErrCode) (info : Nat) : bits.length ≤ s.cfg.bMax →
      (code = .none ∧ info = 0) ∨ code = .unknownSymbol ∨ code = .overflow →
      Completes s .encode ((storeEncoded bits s).complete code info)
  | decoded (bs : Bits) (code : ErrCode) (info : Nat) : bs.length ≤ s.cfg.bMax →
      (code = .none ∧ info = 0) ∨ code = .malformedCode →
      Completes s .decode ((storeDecoded (decodeLoop s.it bs 0 [] 0) s).complete code info)

theorem execBuild_completes {s t : State} (h : execBuild s = .next t) : Completes s .build t := by
  rcases execBuild_cases s with ⟨-, h1⟩ | ⟨-, i, -, -, h1⟩ | ⟨-, xs, hlen, hholds, h1⟩
  · cases h1.symm.trans h
    exact .bare _ _
  · cases h1.symm.trans h
  · cases h1.symm.trans h
    exact .built xs hlen hholds

theorem execEncode_completes {s t : State} (h : execEncode s = .next t) :
    Completes s .encode t := by
  rcases execEncode_cases s with ⟨-, h1⟩ | ⟨-, -, h1⟩ | ⟨-, -, i, -, -, h1⟩ |
    ⟨-, -, ys, code, info, -, -, -, hfit, h1, hend⟩
  · cases h1.symm.trans h
    exact .bare _ _
  · cases h1.symm.trans h
    exact .bare _ _
  · cases h1.symm.trans h
  · cases h1.symm.trans h
    refine .encoded _ code info hfit ?_
    rcases hend with ⟨-, hok⟩ | ⟨-, -, x, -, ⟨hcode, -⟩ | ⟨hcode, -⟩⟩
    · exact .inl hok
    · exact .inr (.inl hcode)
    · exact .inr (.inr hcode)

theorem execDecode_completes {s t : State} (h : execDecode s = .next t) :
    Completes s .decode t := by
  rcases execDecode_cases s with ⟨-, h1⟩ | ⟨-, -, h1⟩ | ⟨-, -, i, -, -, h1⟩ |
    ⟨-, hle, bs, hlen, -, d, rfl, ⟨-, h1⟩ | ⟨-, h1⟩⟩
  · cases h1.symm.trans h
    exact .bare _ _
  · cases h1.symm.trans h
    exact .bare _ _
  · cases h1.symm.trans h
  · cases h1.symm.trans h
    exact .decoded bs _ _ (hlen.trans_le hle) (.inl ⟨rfl, rfl⟩)
  · cases h1.symm.trans h
    exact .decoded bs _ _ (hlen.trans_le hle) (.inr rfl)

theorem exec_completes {i : Instr} {s t : State} (h : exec i s = .next t) : Completes s i t := by
  cases i with
  | nop =>
    cases h
    exact .bare _ _
  | build => exact execBuild_completes h
  | encode => exact execEncode_completes h
  | decode => exact execDecode_completes h

end Sys2Proof.Machine
end

section
/-! What `BUILD` leaves in the tables (R43, R156). -/

namespace Sys2Proof.Machine

/-- Codes of symbols of the configured width fit the code storage (R7). -/
theorem maxCodeLength_le {c : Config} {xs : List Symbol} (hc : c.wf = true)
    (hx : ∀ x ∈ xs, x.toNat < c.kMax) : max 1 ((distinct xs).length - 1) ≤ 4095 := by
  have hd := distinct_length_le hx
  obtain ⟨hk, -⟩ := Config.wf_bounds hc
  omega

theorem exists_buildCodes_iff (xs : List Symbol) (x : Symbol) :
    (∃ c, (x, c) ∈ buildCodes xs) ↔ x ∈ xs := by
  rw [← mem_distinct, ← (buildCodes_spec xs).1.mem_iff]
  simp

/-- With one distinct symbol the only code is "0" (R153). -/
theorem eq_of_mem_buildCodes_single {xs : List Symbol} (h1 : (distinct xs).length = 1) {x : Symbol}
    {c : Bits} (hc : (x, c) ∈ buildCodes xs) : c = [false] := by
  rcases buildCodes_cases xs with ⟨rfl, -⟩ | ⟨y, -, hb⟩ | ⟨root, hk, -⟩
  · simp [distinct] at h1
  · rw [hb] at hc
    simp_all
  · omega

theorem buildResult_ct_length (s : State) (xs : List Symbol) :
    (buildResult s xs).ct.length = xs.toFinset.card := by
  rw [buildResult_ct, codeTable_length _ (buildCodes_nodup xs), buildCodes_length, length_distinct]

/-- Settles O33: the tables of a `BUILD` are a codec state whose codes are the list `buildCodes`. -/
theorem builtTablesArePrefixFreeAndInverse : Obligations.BuiltTablesArePrefixFreeAndInverse := by
  intro s t xs hc hlen hle hholds hx hexec
  have ht : buildResult s xs = t := by
    simpa [exec, execBuild_of_holds hlen.symm hle hholds] using hexec
  subst ht
  have htables : TablesOk (buildResult s xs) := buildResult_tables hc hx
  have hcode := buildResult_codeOf s xs (maxCodeLength_le hc hx)
  refine ⟨htables.prefixFree, htables.inverse, fun x => ?_, htables.nsymCount,
    htables.nsymCount.trans (buildResult_ct_length s xs), fun h1 x c hxc => ?_⟩
  · simp only [hcode, exists_buildCodes_iff]
  · exact eq_of_mem_buildCodes_single ((length_distinct xs).trans h1) ((hcode x c).mp hxc)

end Sys2Proof.Machine
end

section
/-! A predicate kept by each update the host can make, and by every command, is kept by every step. -/

namespace Sys2Proof.Machine

/-- `P` is kept by every update a host access makes (R26 to R32, R64, R65, R76, R97, R111, R223). -/
structure HostKeeps (P : State → Prop) : Prop where
  setIrqEn : ∀ s b, P s → P (s.setIrqEn b)
  accept : ∀ s w, P s → P (s.accept w)
  ack : ∀ s, P s → P s.ack
  setInLen : ∀ s v, s.ctl = .idle → P s → P (s.setInLen v)
  setBitLen : ∀ s v, s.ctl = .idle → P s → P (s.setBitLen v)
  setSym : ∀ s i v, i < s.cfg.nMax → P s → P (s.setSym i (symbolOfWord s.cfg v))
  setBit : ∀ s j b, j < s.cfg.bMax → P s → P (s.setBit j b)
  setVar : ∀ s n v, P s → P (s.setVar n v)
  drawn : ∀ s, P s → P s.drawn
  popHost : ∀ s, P s → P s.popHost

/-- No host update but reset touches the parameters or the tables. -/
theorem cfgAndTables_hostKeeps
    (Q : Config → Memory CodeEntry → List (Bits × Symbol) → Bool → Word → Prop) :
    HostKeeps (fun t => Q t.cfg t.ct t.it t.built t.nsym) where
  setIrqEn _ _ h := h
  accept _ _ h := h
  ack _ h := h
  setInLen _ _ _ h := h
  setBitLen _ _ _ h := h
  setSym _ _ _ _ h := h
  setBit _ _ _ _ h := h
  setVar _ _ _ h := h
  drawn _ h := h
  popHost _ h := h

section

variable {P : State → Prop} (hP : HostKeeps P)
include hP

theorem busWrite_keeps {s : State} (hs : P s) (a v : Word) : P (busWrite s a v) := by
  rcases busWrite_cases s a v with e | e | ⟨-, e⟩ | e | ⟨hb, e⟩ | ⟨hb, e⟩ | ⟨i, hi, -, e⟩ |
    ⟨j, hj, -, e⟩ <;> rw [e]
  · exact hs
  · exact hP.setIrqEn s _ hs
  · exact hP.accept s v hs
  · exact hP.ack s hs
  · exact hP.setInLen s v ((State.busy_eq_false_iff s).mp hb) hs
  · exact hP.setBitLen s v ((State.busy_eq_false_iff s).mp hb) hs
  · exact hP.setSym s i v hi hs
  · exact hP.setBit s j _ hj hs

theorem drawnOrNot_keeps {s s' : State} (hs : P s) (e : s' = s ∨ s' = s.drawn) : P s' := by
  rcases e with rfl | rfl
  · exact hs
  · exact hP.drawn s hs

theorem readInto_keeps {s : State} (hs : P s) (a : Word) (n : Nat) : P (readInto s a n) :=
  hP.setVar _ n _ (drawnOrNot_keeps hP hs (busRead_state s a))

/-- Reset is the one host step that `HostKeeps` leaves open. -/
theorem hostStep_keeps {s : State} (hs : P s)
    (hreset : s.host.head? = some .reset → P s.resetInput) : P (hostStep s) := by
  unfold hostStep
  split
  · exact hs
  · exact hP.popHost _ (busWrite_keeps hP (drawnOrNot_keeps hP hs (evalVal_state s _)) _ _)
  · exact hP.popHost _ (readInto_keeps hP hs _ _)
  · split
    · exact readInto_keeps hP hs _ _
    · exact hP.popHost _ (readInto_keeps hP hs _ _)
  · split
    · exact hP.popHost _ hs
    · exact hs
  · rename_i hhost
    exact hP.popHost _ (hreset (by rw [hhost, List.head?_cons]))

/-- An illegal word completes as a check that fails does. -/
theorem step_keeps (hpop : ∀ s, P s → P s.popTurn) (hreset : ∀ s, P s → P s.resetInput)
    (hcommand : ∀ i s t, P s → Completes s i t → P t) {s t : State} (hs : P s)
    (h : step s = .next t) : P t := by
  rcases step_cases s with ⟨sn, i, -, -, -, e⟩ | ⟨sn, w, -, -, -, e⟩ | ⟨-, e⟩
  · exact hcommand i _ _ (hpop s hs) (exec_completes (e.symm.trans h))
  · cases e.symm.trans h
    exact hcommand .nop _ _ (hpop s hs) (.bare _ _)
  · cases e.symm.trans h
    exact hostStep_keeps hP (hpop s hs) (fun _ => hreset _ (hpop s hs))

end

end Sys2Proof.Machine
end

section
/-! The invariant: reset meets it, and every update, command and step keeps it (R28 to R46, R52, R111). -/

namespace Sys2Proof.Machine

/-! ### Updates that leave the tables alone -/

theorem Inv.of_tables_eq {s t : State} (h : Inv s) (hcfg : t.cfg = s.cfg) (hct : t.ct = s.ct)
    (hit : t.it = s.it) (hnsym : t.nsym = s.nsym) (hbuilt : t.built = s.built)
    (hmem : MemoriesOk t) (hreg : RegistersOk t) : Inv t where
  config := hcfg ▸ h.config
  memories := hmem
  tables := h.tables.transfer hcfg hct hit hnsym hbuilt
  registers := hreg

theorem popTurn_inv (s : State) (h : Inv s) : Inv s.popTurn := by
  refine h.of_tables_eq ?_ ?_ ?_ ?_ ?_ (h.memories.transfer ?_ ?_ ?_ ?_ ?_)
    (h.registers.transfer ?_ ?_ ?_ ?_ ?_ ?_ ?_ ?_ ?_ ?_ ?_) <;> simp

/-! ### Completion and the commands' results -/

theorem complete_inv {s : State} (h : Inv s) {code : ErrCode} {info : Nat}
    (hinfo : code ∈ [ErrCode.none, .illegalCmd, .notBuilt, .length] → info = 0) :
    Inv (s.complete code info) :=
  h.of_tables_eq rfl rfl rfl rfl rfl { h.memories with }
    { h.registers with
      info := fun hcode => congrArg (BitVec.ofNat 32) (hinfo hcode)
      running := fun _ hctl => nomatch hctl }

theorem TablesOk.nsym_le {s : State} (h : TablesOk s) : s.nsym.toNat ≤ s.cfg.kMax := by
  have hnodup : (s.ct.map Prod.fst).Nodup :=
    List.pairwise_map.mpr (h.ctWf.imp (fun hab => Nat.ne_of_lt hab))
  have hsub : s.ct.map Prod.fst ⊆ List.range s.cfg.kMax := fun k hk => by
    obtain ⟨c, hc, rfl⟩ := List.mem_map.mp hk
    exact List.mem_range.mpr (h.ctWithin c hc)
  simpa [h.nsymCount] using (List.subperm_of_subset hnodup hsub).length_le

theorem MemoriesOk.symbols_lt {s : State} (h : MemoriesOk s) {xs : List Symbol}
    (hholds : Memory.holds s.sym xs) : ∀ x ∈ xs, x.toNat < s.cfg.kMax := by
  intro x hx
  obtain ⟨i, hi, rfl⟩ := List.getElem_of_mem hx
  exact h.symValues _ (Memory.mem_of_read ((hholds i hi).trans (List.getElem?_eq_getElem hi)))

theorem buildResult_inv {s : State} (h : Inv s) {xs : List Symbol}
    (hholds : Memory.holds s.sym xs) : Inv (buildResult s xs) := by
  have htables : TablesOk (buildResult s xs) :=
    buildResult_tables h.config (h.memories.symbols_lt hholds)
  exact
    { config := h.config
      memories := { h.memories with }
      tables := htables
      registers :=
        { h.registers with
          nsym := htables.nsym_le
          info := fun _ => rfl
          running := fun _ hctl => nomatch hctl } }

theorem toNat_ofNat_length_le {α : Type} {l : List α} {n : Nat} (h : l.length ≤ n) :
    (BitVec.ofNat 32 l.length).toNat ≤ n := by
  rw [BitVec.toNat_ofNat]
  exact (Nat.mod_le _ _).trans h

theorem storeEncoded_inv {s : State} (h : Inv s) {bits : Bits} (hfit : bits.length ≤ s.cfg.bMax) :
    Inv (storeEncoded bits s) :=
  h.of_tables_eq rfl rfl rfl rfl rfl
    { h.memories with
      bitWf := Memory.wf_writeSeq h.memories.bitWf 0 bits
      bitWithin := Memory.within_writeSeq h.memories.bitWithin bits (by omega) }
    { h.registers with encLen := toNat_ofNat_length_le hfit }

theorem storeDecoded_inv {s : State} (h : Inv s) {d : Decoded} (hfit : d.syms.length ≤ s.cfg.oMax)
    (hsyms : ∀ x ∈ d.syms, x.toNat < s.cfg.kMax) : Inv (storeDecoded d s) :=
  h.of_tables_eq rfl rfl rfl rfl rfl
    { h.memories with
      outWf := Memory.wf_writeSeq h.memories.outWf 0 d.syms
      outWithin := Memory.within_writeSeq h.memories.outWithin d.syms (by omega)
      outValues := fun c hc => by
        rcases Memory.mem_writeSeq hc with ⟨-, -, hc⟩ | hc
        · exact hsyms _ hc
        · exact h.memories.outValues c hc }
    { h.registers with outLen := toNat_ofNat_length_le hfit }

/-- What the decoder emits has a code, and so is a symbol of the configured width. -/
theorem TablesOk.decoded_symbols_lt {s : State} (h : TablesOk s) (bs : Bits) :
    ∀ x ∈ (decodeLoop s.it bs 0 [] 0).syms, x.toNat < s.cfg.kMax := by
  intro x hx
  obtain ⟨hcoded, -⟩ := h.decodeLoop_parse bs
  obtain ⟨e, he⟩ := Option.isSome_iff_exists.mp (hcoded x hx)
  exact h.ctWithin _ (Memory.mem_of_read he)

theorem completes_inv (i : Instr) (s t : State) (h : Inv s) (ht : Completes s i t) : Inv t := by
  cases ht with
  | bare i code => exact complete_inv h (fun _ => rfl)
  | built xs _ hholds => exact buildResult_inv h hholds
  | encoded bits code info hfit hend =>
    refine complete_inv (storeEncoded_inv h hfit) (fun hcode => ?_)
    rcases hend with ⟨-, hinfo⟩ | rfl | rfl
    · exact hinfo
    · simp at hcode
    · simp at hcode
  | decoded bs code info hfit hend =>
    obtain ⟨-, -, -, -, hlen⟩ := decodeLoop_spec s.it bs 0 [] 0
    refine complete_inv (storeDecoded_inv h (hlen.trans hfit) (h.tables.decoded_symbols_lt bs))
      (fun hcode => ?_)
    rcases hend with ⟨-, hinfo⟩ | rfl
    · exact hinfo
    · simp at hcode

/-! ### The host's updates -/

theorem inv_hostKeeps : HostKeeps Inv where
  setIrqEn _ _ h := h.of_tables_eq rfl rfl rfl rfl rfl { h.memories with } { h.registers with }
  accept s w h := h.of_tables_eq rfl rfl rfl rfl rfl { h.memories with }
    { h.registers with
      info := fun _ => rfl
      running := fun sn hctl => by
        cases hctl
        exact ⟨rfl, rfl, rfl, rfl, rfl, rfl⟩ }
  ack s h := h.of_tables_eq rfl rfl rfl rfl rfl { h.memories with }
    { h.registers with
      running := fun sn hctl => by
        obtain ⟨-, hregs⟩ := h.registers.running sn hctl
        exact ⟨rfl, hregs⟩ }
  setInLen s v hidle h := h.of_tables_eq rfl rfl rfl rfl rfl { h.memories with }
    { h.registers with running := fun _ hctl => nomatch hidle.symm.trans hctl }
  setBitLen s v hidle h := h.of_tables_eq rfl rfl rfl rfl rfl { h.memories with }
    { h.registers with running := fun _ hctl => nomatch hidle.symm.trans hctl }
  setSym s i v hi h := h.of_tables_eq rfl rfl rfl rfl rfl
    { h.memories with
      symWf := Memory.wf_write h.memories.symWf _ _
      symWithin := Memory.within_write h.memories.symWithin hi _
      symValues := fun c hc => by
        rcases Memory.mem_write hc with rfl | hc
        · exact symbolOfWord_lt _ _
        · exact h.memories.symValues c hc }
    { h.registers with }
  setBit s j b hj h := h.of_tables_eq rfl rfl rfl rfl rfl
    { h.memories with
      bitWf := Memory.wf_write h.memories.bitWf _ _
      bitWithin := Memory.within_write h.memories.bitWithin hj _ }
    { h.registers with }
  setVar s n v h := h.of_tables_eq rfl rfl rfl rfl rfl
    { h.memories with varsWf := Memory.wf_write h.memories.varsWf _ _ } { h.registers with }
  drawn s h := h.of_tables_eq rfl rfl rfl rfl rfl { h.memories with } { h.registers with }
  popHost s h := h.of_tables_eq rfl rfl rfl rfl rfl { h.memories with } { h.registers with }

/-! ### Reset -/

theorem resetWith_inv {c : Config} (hc : c.wf = true) : Inv (State.resetWith c) where
  config := hc
  memories := by constructor <;> simp [State.resetWith]
  tables := by constructor <;> simp [State.resetWith, State.codeOf, State.ctEntry, itLookup]
  registers := by constructor <;> simp [State.resetWith]

theorem resetInput_inv (s : State) (h : Inv s) : Inv s.resetInput := by
  have hreset := resetWith_inv h.config
  exact hreset.of_tables_eq rfl rfl rfl rfl rfl
    { hreset.memories with varsWf := h.memories.varsWf } { hreset.registers with }

/-- Settles O57: the invariant is kept by popping a turn, by reset, by every way a command ends and by
every update of the host. -/
theorem stepKeepsInvariant : Obligations.StepKeepsInvariant :=
  fun _ _ => step_keeps inv_hostKeeps popTurn_inv resetInput_inv completes_inv

/-- Settles O56: at reset the tables and memories are empty and the registers 0. -/
theorem resetMeetsInvariant : Obligations.ResetMeetsInvariant :=
  ⟨fun _ => resetWith_inv, resetWith_inv (by decide)⟩

/-! ### The canonical form alone -/

theorem canonical_hostKeeps : HostKeeps CanonicalMemories where
  setIrqEn _ _ h := h
  accept _ _ h := h
  ack _ h := h
  setInLen _ _ _ h := h
  setBitLen _ _ _ h := h
  setSym _ _ _ _ h := ⟨Memory.wf_write h.1 _ _, h.2⟩
  setBit _ _ _ _ h := by
    obtain ⟨hsym, hbit, hrest⟩ := h
    exact ⟨hsym, Memory.wf_write hbit _ _, hrest⟩
  setVar _ _ _ h := by
    obtain ⟨hsym, hbit, hout, hct, hvars⟩ := h
    exact ⟨hsym, hbit, hout, hct, Memory.wf_write hvars _ _⟩
  drawn _ h := h
  popHost _ h := h

theorem completes_canonical (i : Instr) (s t : State) (h : CanonicalMemories s)
    (ht : Completes s i t) : CanonicalMemories t := by
  obtain ⟨hsym, hbit, hout, hct, hvars⟩ := h
  cases ht with
  | bare => exact ⟨hsym, hbit, hout, hct, hvars⟩
  | built xs => exact ⟨hsym, hbit, hout, codeTable_wf _, hvars⟩
  | encoded => exact ⟨hsym, Memory.wf_writeSeq hbit _ _, hout, hct, hvars⟩
  | decoded => exact ⟨hsym, hbit, Memory.wf_writeSeq hout _ _, hct, hvars⟩

/-- Settles O58: each memory is only ever written through `Memory.write`, rebuilt, or emptied. -/
theorem stepKeepsCanonicalMemories : Obligations.StepKeepsCanonicalMemories := by
  intro s t
  refine step_keeps canonical_hostKeeps (fun s h => by simpa [CanonicalMemories] using h)
    (fun s h => ?_) completes_canonical
  obtain ⟨-, -, -, -, hvars⟩ := h
  exact ⟨.nil, .nil, .nil, .nil, hvars⟩

end Sys2Proof.Machine
end

section
/-! The frame of every command (R33 to R35, R42, R74), and when the tables change (R42). -/

namespace Sys2Proof.Machine

/-- Settles O18: each way a command ends changes its own results and the completion's registers. -/
theorem commandsWriteOnlyTheirResults : Obligations.CommandsWriteOnlyTheirResults := by
  intro i s t h
  obtain ⟨-, -, hcfg, hirqEn, hcmd, hin, hbits, hsym, hhost, hvars, hturns, hdraws⟩ := exec_next h
  refine ⟨⟨hcfg, hirqEn, hcmd, hin, hbits, hsym, hhost, hvars, hturns, hdraws⟩, ?_⟩
  cases exec_completes h with
  | bare i code => exact ⟨fun _ => ⟨rfl, rfl⟩, fun _ => ⟨rfl, rfl⟩, fun _ => ⟨rfl, rfl, rfl, rfl⟩, id⟩
  | built xs =>
    exact ⟨fun _ => ⟨rfl, rfl⟩, fun _ => ⟨rfl, rfl⟩, fun hne => absurd rfl hne, fun _ => rfl⟩
  | encoded =>
    exact ⟨fun hne => absurd rfl hne, fun _ => ⟨rfl, rfl⟩, fun _ => ⟨rfl, rfl, rfl, rfl⟩, id⟩
  | decoded =>
    exact ⟨fun _ => ⟨rfl, rfl⟩, fun hne => absurd rfl hne, fun _ => ⟨rfl, rfl, rfl, rfl⟩, id⟩

/-- The tables and what says that they are there. -/
def SameTables (s t : State) : Prop :=
  t.ct = s.ct ∧ t.it = s.it ∧ t.built = s.built ∧ t.nsym = s.nsym

theorem sameTables_popTurn (s : State) : SameTables s s.popTurn := by
  simp [SameTables]

theorem sameTables_hostKeeps (s : State) : HostKeeps (SameTables s) :=
  cfgAndTables_hostKeeps fun _ ct it built nsym =>
    ct = s.ct ∧ it = s.it ∧ built = s.built ∧ nsym = s.nsym

/-- A command keeps the tables, or is a `BUILD` that ends without an error. -/
theorem Completes.sameTables_or_built {i : Instr} {s t : State} (h : Completes s i t) :
    SameTables s t ∨ (i = .build ∧ t.ctl = .idle ∧ t.errCode = .none) := by
  cases h with
  | built => exact .inr ⟨rfl, rfl, rfl⟩
  | bare | encoded | decoded => exact .inl ⟨rfl, rfl, rfl, rfl⟩

theorem rsvdField_append_opcField (w : Word) : rsvdField w ++ opcField w = w :=
  BitVec.extractLsb'_append_extractLsb'

/-- A command's word is the only one that selects it (R92, R93). -/
theorem eq_encode_of_decodeCmd {w : Word} {i : Instr} (h : decodeCmd w = .ok i) : w = encode i := by
  have key (hr : rsvdField w = 0) (ho : (opcField w).toNat = (opcodeOf i).toNat) : w = encode i := by
    rw [← rsvdField_append_opcField w, hr, BitVec.eq_of_toNat_eq ho, encode]
  unfold decodeCmd at h
  split at h
  · cases h
  · rename_i hr
    split at h <;> cases h <;> exact key (not_not.mp hr) (by assumption)

/-- Settles O19: the host keeps the tables but for reset, and a command but for a `BUILD`. -/
theorem tablesPersist : Obligations.TablesPersist := by
  intro s t h
  rcases step_cases s with ⟨sn, i, hctl, hcore, hdec, e⟩ | ⟨sn, w, -, -, -, e⟩ | ⟨hhost, e⟩
  · rcases (exec_completes (e.symm.trans h)).sameTables_or_built with hsame | ⟨rfl, hidle, hcode⟩
    · exact .inl (by simpa [SameTables] using hsame)
    · exact .inr (.inl ⟨hcore, sn, hctl, eq_encode_of_decodeCmd hdec, hidle, hcode⟩)
  · cases e.symm.trans h
    exact .inl (sameTables_popTurn s)
  · cases e.symm.trans h
    by_cases hreset : s.host.head? = some .reset
    · exact .inr (.inr ⟨hhost, hreset⟩)
    · refine .inl (hostStep_keeps (sameTables_hostKeeps s) (sameTables_popTurn s) (fun hr => ?_))
      exact absurd (by simpa using hr) hreset

end Sys2Proof.Machine
end

section
/-! The equations of the commands, one for each way through their checks (R131, R171, R192). -/

namespace Sys2Proof.Machine

theorem execBuild_of_length {s : State} (h : s.cfg.nMax < s.nIn) :
    execBuild s = .next (s.complete .length 0) := by
  rw [execBuild, if_pos h, State.raise]

theorem execBuild_of_unwritten {s : State} {j : Nat} (hle : s.nIn ≤ s.cfg.nMax)
    (h : written s.symOperand 0 = .error j) : execBuild s = .fault (.unwrittenSym j) := by
  rw [execBuild, if_neg hle.not_gt, h]

theorem execBuild_of_written {s : State} {xs : List Symbol} (hle : s.nIn ≤ s.cfg.nMax)
    (h : written s.symOperand 0 = .ok xs) : execBuild s = .next (buildResult s xs) := by
  obtain ⟨hlen, hholds⟩ := holds_of_written h
  exact execBuild_of_holds hlen.symm hle hholds

theorem execEncode_of_not_built {s : State} (hb : s.built = false) :
    execEncode s = .next (s.complete .notBuilt 0) := by
  rw [execEncode, if_pos (by simp [hb]), State.raise]

theorem execEncode_of_length {s : State} (hb : s.built = true) (h : s.cfg.nMax < s.nIn) :
    execEncode s = .next (s.complete .length 0) := by
  rw [execEncode, if_neg (by simp [hb]), if_pos h, State.raise]

theorem execEncode_of_error {s : State} {f : Fault} (hb : s.built = true)
    (hle : s.nIn ≤ s.cfg.nMax) (h : encodeLoop s.cfg.bMax s.ct s.symOperand 0 0 = .error f) :
    execEncode s = .fault f := by
  rw [execEncode, if_neg (by simp [hb]), if_neg hle.not_gt, h]

theorem execEncode_of_ok {s : State} {r : Encoded} (hb : s.built = true)
    (hle : s.nIn ≤ s.cfg.nMax) (h : encodeLoop s.cfg.bMax s.ct s.symOperand 0 0 = .ok r) :
    execEncode s = .next ((storeEncoded r.bits s).complete r.code r.info) := by
  rw [execEncode, if_neg (by simp [hb]), if_neg hle.not_gt, h]

theorem execDecode_of_not_built {s : State} (hb : s.built = false) :
    execDecode s = .next (s.complete .notBuilt 0) := by
  rw [execDecode, if_pos (by simp [hb]), State.raise]

theorem execDecode_of_length {s : State} (hb : s.built = true) (h : s.cfg.bMax < s.nBits) :
    execDecode s = .next (s.complete .length 0) := by
  rw [execDecode, if_neg (by simp [hb]), if_pos h, State.raise]

theorem execDecode_of_unwritten {s : State} {j : Nat} (hb : s.built = true)
    (hle : s.nBits ≤ s.cfg.bMax) (h : written s.bitOperand 0 = .error j) :
    execDecode s = .fault (.unwrittenBit j) := by
  rw [execDecode, if_neg (by simp [hb]), if_neg hle.not_gt, h]

end Sys2Proof.Machine
end

section
/-! The register region at the port (R21 to R36, R61 to R63, R69): an access to a register's offset is an
access to the register, and what is reserved reads 0. -/

namespace Sys2Proof.Machine

theorem busRead_offset (s : State) (r : Reg) : busRead s (Reg.offset r) = (readReg s r, s) := by
  cases r <;> rfl

theorem busWrite_offset (s : State) (r : Reg) (v : Word) :
    busWrite s (Reg.offset r) v = writeReg s v r := by
  cases r <;> rfl

/-! ### The constants and the read-only registers -/

theorem Completes.cfg_eq {i : Instr} {s t : State} (h : Completes s i t) : t.cfg = s.cfg := by
  cases h <;> rfl

theorem step_cfg {s t : State} (h : step s = .next t) : t.cfg = s.cfg :=
  step_keeps (cfgAndTables_hostKeeps fun c _ _ _ _ => c = s.cfg)
    (fun u hu => (State.popTurn_cfg u).trans hu) (fun _ hu => hu)
    (fun _ _ _ hu ht => ht.cfg_eq.trans hu) rfl h

/-- Settles O13: the parameters fit 32 bits, and no update touches them or writes these registers. -/
theorem constantRegisters : Obligations.ConstantRegisters := by
  intro s v hc
  obtain ⟨-, -, -, hn, -, hb⟩ := Config.wf_bounds hc
  have hw : s.cfg.symW ≤ 12 := by
    simp only [Config.wf, Bool.and_eq_true, decide_eq_true_eq] at hc
    omega
  have fits : ∀ n : Nat, n ≤ 2 ^ 26 → (BitVec.ofNat 32 n).toNat = n := fun n hn => by
    rw [BitVec.toNat_ofNat, Nat.mod_eq_of_lt (by omega)]
  exact ⟨rfl, fits _ (by omega), by omega, fits _ hn, fits _ hb, rfl, rfl, rfl, rfl, rfl, rfl, rfl,
    rfl, rfl, fun t => step_cfg⟩

/-! ### Reserved addresses -/

theorem regOfIndex_of_le {n : Nat} (h : 14 ≤ n) : regOfIndex n = none := by
  obtain ⟨k, rfl⟩ := Nat.exists_eq_add_of_le' h
  rfl

theorem regionOf_of_zero {a : Word} (h : regionField a = 0) : regionOf a = .registers := by
  simp [regionOf, h]

theorem regionOf_of_le {a : Word} (h : 6 ≤ (regionField a).toNat) : regionOf a = .reserved := by
  obtain ⟨k, hk⟩ := Nat.exists_eq_add_of_le' h
  rw [regionOf, hk]
  rfl

/-- Settles O14: neither kind of reserved address selects a register or an element. -/
theorem reservedAddressesReadZero : Obligations.ReservedAddressesReadZero := by
  intro s a v h
  rcases h with ⟨hregion, hindex⟩ | hregion
  · have h1 : regionOf a = .registers := regionOf_of_zero hregion
    have h2 : regOfIndex (indexField a) = none := regOfIndex_of_le hindex
    simp [busRead, busWrite, h1, h2]
  · have h1 : regionOf a = .reserved := regionOf_of_le hregion
    simp [busRead, busWrite, h1]

/-! ### `CTRL` and `STATUS` -/

theorem ctrlWord_eq (s : State) : s.ctrlWord = if s.irqEn then 1 else 0 := by
  rw [State.ctrlWord]
  cases s.irqEn <;> rfl

/-- Settles O15: `CTRL` holds nothing but `IRQ_EN`. -/
theorem controlRegister : Obligations.ControlRegister := by
  intro s v
  rw [show busRead s 0x10 = (s.ctrlWord, s) from busRead_offset s .ctrl]
  exact ⟨busWrite_offset s .ctrl v, ctrlWord_eq s, rfl, rfl⟩

theorem statusWord_fields (s : State) :
    s.statusWord.getLsbD 0 = s.busy ∧ s.statusWord.getLsbD 1 = s.done ∧
    s.statusWord.getLsbD 2 = s.err ∧ s.statusWord.getLsbD 3 = s.built ∧
    s.statusWord.toNat < 2 ^ 4 := by
  unfold State.statusWord
  generalize s.busy = busy, s.done = done, s.err = err, s.built = built
  revert busy done err built
  decide

theorem errCodeWord_eq_zero_iff (s : State) : s.errCodeWord = 0 ↔ s.errCode = .none := by
  unfold State.errCodeWord
  cases s.errCode <;> decide

theorem statusWord_eq_zero {s : State} (hidle : s.ctl = .idle) (hdone : s.done = false)
    (hcode : s.errCode = .none) (hbuilt : s.built = false) : s.statusWord = 0 := by
  simp [State.statusWord, State.busy, State.err, ErrCode.code, hidle, hdone, hcode, hbuilt]

/-- Settles O16: the fields of the status word, and acknowledgement as the one effect of a write. -/
theorem statusRegister : Obligations.StatusRegister := by
  intro s v
  obtain ⟨hbusy, hdone, herr, hbuilt, hhigh⟩ := statusWord_fields s
  rw [show busRead s 0x18 = (s.statusWord, s) from busRead_offset s .status,
    show busRead s 0x1C = (s.errCodeWord, s) from busRead_offset s .errCode,
    show busWrite s 0x18 v = writeReg s v .status from busWrite_offset s .status v]
  refine ⟨?_, hdone, ?_, hbuilt, hhigh, rfl, ?_⟩
  · rw [hbusy, State.busy_eq_true_iff]
  · rw [herr, State.err_eq_true_iff, Ne, Ne, errCodeWord_eq_zero_iff]
  · cases hv : v.getLsbD 1 with
    | false => simp [writeReg, hv, -BitVec.getLsbD_eq_getElem]
    | true => simp [writeReg, hv, State.ack, -BitVec.getLsbD_eq_getElem]

/-! ### `IN_LEN` and `BIT_LEN` -/

theorem writeCmd_of_idle {s : State} (h : s.ctl = .idle) (w : Word) :
    busWrite s 0x14 w = s.accept w := by
  rw [show busWrite s 0x14 w = writeReg s w .cmd from busWrite_offset s .cmd w, writeReg,
    (State.busy_eq_false_iff s).mpr h]
  rfl

/-- Settles O17: acceptance snapshots the lengths, and each command checks its own first. -/
theorem operandLengthRegisters : Obligations.OperandLengthRegisters := by
  intro s
  have hin (v : Word) : busWrite s 0x24 v = if s.busy then s else s.setInLen v :=
    busWrite_offset s .inLen v
  have hbit (v : Word) : busWrite s 0x28 v = if s.busy then s else s.setBitLen v :=
    busWrite_offset s .bitLen v
  refine ⟨fun v hidle => ?_, fun v sn hbusy => ?_, rfl, rfl, fun i t h => ?_,
    fun hidle hbuilt hlen => ?_, fun hidle hbuilt hlen => ?_, rfl, rfl⟩
  · rw [hin, hbit, (State.busy_eq_false_iff s).mpr hidle]
    exact ⟨rfl, rfl⟩
  · rw [hin, hbit, (State.busy_eq_true_iff s).mpr ⟨sn, hbusy⟩]
    exact ⟨rfl, rfl⟩
  · obtain ⟨-, -, -, -, -, hin, hbits, -⟩ := exec_next h
    exact ⟨hin, hbits⟩
  · rw [writeCmd_of_idle hidle, writeCmd_of_idle hidle]
    exact ⟨⟨_, execBuild_of_length (s := s.accept 1) hlen, rfl⟩,
      ⟨_, execEncode_of_length (s := s.accept 2) hbuilt hlen, rfl⟩⟩
  · rw [writeCmd_of_idle hidle]
    exact ⟨_, execDecode_of_length (s := s.accept 3) hbuilt hlen, rfl⟩

end Sys2Proof.Machine
end

section
/-! The reset input (R52, R240, R241). -/

namespace Sys2Proof.Machine

theorem hostStep_of_reset {s : State} {ops : List HostOp} (h : s.host = .reset :: ops) :
    hostStep s = s.resetInput.popHost := by
  simp [hostStep, h]

/-- A host step that asserts reset is taken, idle or not. -/
theorem step_of_reset {s : State} {ops : List HostOp} (h : s.host = .reset :: ops)
    (hturn : s.ctl = .idle ∨ s.turns.head? = some .host) :
    step s = .next s.popTurn.resetInput.popHost := by
  have hagent : s.nextAgent = .host := by
    cases hn : s.nextAgent with
    | host => rfl
    | core =>
      obtain ⟨hbusy, hcore⟩ := (State.nextAgent_eq_core_iff s).mp hn
      rcases hturn with hidle | hturn
      · simp [(State.busy_eq_false_iff s).mpr hidle] at hbusy
      · simp [hturn, h] at hcore
  rw [step_of_nextAgent_host hagent, hostStep_of_reset ((State.popTurn_host s).trans h)]

/-- Settles O29: the reset input writes every register, table and memory, and the host goes on. -/
theorem resetInputResetsEverything : Obligations.ResetInputResetsEverything := by
  intro s ops h hturn
  refine ⟨_, step_of_reset h hturn, ?_, State.popTurn_cfg s, rfl, ctrlWord_eq _, rfl,
    statusWord_eq_zero rfl rfl rfl rfl, (errCodeWord_eq_zero_iff _).mpr rfl, rfl, rfl, rfl, rfl,
    rfl, rfl, fun _ => rfl, fun _ => rfl, fun _ => rfl, fun _ => rfl, fun _ => rfl, rfl⟩
  simp [State.popHost, h]

end Sys2Proof.Machine
end

section
/-! The transient working state is unobservable (R51). -/

namespace Sys2Proof.Machine

/-- The second outcome is the first one, but for the working state of the next state. -/
def SameButWork : Result → Result → Prop
  | .next t, r => ∃ w, r = .next { t with work := w }
  | .fault f, r => r = .fault f
  | .refused x, r => r = .refused x

@[simp] theorem State.busy_work (s : State) (w : Work) : State.busy { s with work := w } = s.busy := rfl

theorem execBuild_work (s : State) (w : Work) :
    SameButWork (execBuild s) (execBuild { s with work := w }) := by
  rcases lt_or_ge s.cfg.nMax s.nIn with hlen | hle
  · rw [execBuild_of_length hlen, execBuild_of_length (s := { s with work := w }) hlen]
    exact ⟨w, rfl⟩
  · cases hw : written s.symOperand 0 with
    | error j =>
      rw [execBuild_of_unwritten hle hw, execBuild_of_unwritten (s := { s with work := w }) hle hw]
      rfl
    | ok xs =>
      rw [execBuild_of_written hle hw, execBuild_of_written (s := { s with work := w }) hle hw]
      exact ⟨_, rfl⟩

theorem execEncode_work (s : State) (w : Work) :
    SameButWork (execEncode s) (execEncode { s with work := w }) := by
  rcases Bool.eq_false_or_eq_true s.built with hb | hb
  · rcases lt_or_ge s.cfg.nMax s.nIn with hlen | hle
    · rw [execEncode_of_length hb hlen, execEncode_of_length (s := { s with work := w }) hb hlen]
      exact ⟨w, rfl⟩
    · cases hr : encodeLoop s.cfg.bMax s.ct s.symOperand 0 0 with
      | error f =>
        rw [execEncode_of_error hb hle hr, execEncode_of_error (s := { s with work := w }) hb hle hr]
        rfl
      | ok r =>
        rw [execEncode_of_ok hb hle hr, execEncode_of_ok (s := { s with work := w }) hb hle hr]
        exact ⟨w, rfl⟩
  · rw [execEncode_of_not_built hb, execEncode_of_not_built (s := { s with work := w }) hb]
    exact ⟨w, rfl⟩

theorem execDecode_work (s : State) (w : Work) :
    SameButWork (execDecode s) (execDecode { s with work := w }) := by
  rcases Bool.eq_false_or_eq_true s.built with hb | hb
  · rcases lt_or_ge s.cfg.bMax s.nBits with hlen | hle
    · rw [execDecode_of_length hb hlen, execDecode_of_length (s := { s with work := w }) hb hlen]
      exact ⟨w, rfl⟩
    · cases hr : written s.bitOperand 0 with
      | error j =>
        rw [execDecode_of_unwritten hb hle hr,
          execDecode_of_unwritten (s := { s with work := w }) hb hle hr]
        rfl
      | ok bs =>
        obtain ⟨hlen, hholds⟩ := holds_of_written hr
        rw [execDecode_of_holds hb hlen.symm hle hholds,
          execDecode_of_holds (s := { s with work := w }) hb hlen.symm hle hholds]
        exact ⟨_, rfl⟩
  · rw [execDecode_of_not_built hb, execDecode_of_not_built (s := { s with work := w }) hb]
    exact ⟨w, rfl⟩

theorem exec_work (i : Instr) (s : State) (w : Work) :
    SameButWork (exec i s) (exec i { s with work := w }) := by
  cases i with
  | nop => exact ⟨w, rfl⟩
  | build => exact execBuild_work s w
  | encode => exact execEncode_work s w
  | decode => exact execDecode_work s w

theorem readReg_work (s : State) (w : Work) (r : Reg) :
    readReg { s with work := w } r = readReg s r := by
  cases r <;> rfl

theorem readSym_work (s : State) (w : Work) (i : Nat) :
    (readSym { s with work := w } i).1 = (readSym s i).1 := by
  by_cases hi : i < s.cfg.nMax
  · cases hr : Memory.read s.sym i <;> simp [readSym, hi, hr, State.freeValue]
  · simp [readSym, hi]

theorem readBit_work (s : State) (w : Work) (j : Nat) :
    (readBit { s with work := w } j).1 = (readBit s j).1 := by
  cases hb : s.busy with
  | true => simp [readBit, hb, State.freeValue]
  | false =>
    by_cases hj : j < s.cfg.bMax
    · cases hr : Memory.read s.bit j <;> simp [readBit, hb, hj, hr, State.freeValue]
    · simp [readBit, hb, hj]

theorem readOut_work (s : State) (w : Work) (j : Nat) :
    (readOut { s with work := w } j).1 = (readOut s j).1 := by
  cases hb : s.busy with
  | true => simp [readOut, hb, State.freeValue]
  | false =>
    by_cases hj : j < s.cfg.oMax
    · cases hr : Memory.read s.out j <;> simp [readOut, hb, hj, hr, State.freeValue]
    · simp [readOut, hb, hj]

theorem busRead_work (s : State) (w : Work) (a : Word) :
    (busRead { s with work := w } a).1 = (busRead s a).1 := by
  unfold busRead
  cases regionOf a with
  | registers =>
    cases regOfIndex (indexField a) with
    | none => rfl
    | some r => exact readReg_work s w r
  | sym => exact readSym_work s w _
  | bit => exact readBit_work s w _
  | out => exact readOut_work s w _
  | ctLen | ctBits => cases hb : s.busy <;> simp only [State.busy_work, hb] <;> rfl
  | reserved => rfl

theorem writeReg_work (s : State) (w : Work) (v : Word) (r : Reg) :
    writeReg { s with work := w } v r = { writeReg s v r with work := w } := by
  cases r with
  | cmd | inLen | bitLen => cases hb : s.busy <;> simp only [writeReg, State.busy_work, hb] <;> rfl
  | status => cases hv : v.getLsbD 1 <;> simp only [writeReg, hv] <;> rfl
  | id | cfgSymw | cfgNmax | cfgBmax | ctrl | errCode | errInfo | encLen | outLen | nsym => rfl

theorem writeSym_work (s : State) (w : Work) (i : Nat) (v : Word) :
    writeSym { s with work := w } i v = { writeSym s i v with work := w } := by
  by_cases h : i < s.cfg.nMax ∧ s.busy = false
  · rw [writeSym, writeSym, if_pos h]
    exact if_pos h
  · rw [writeSym, writeSym, if_neg h]
    exact if_neg h

theorem writeBit_work (s : State) (w : Work) (j : Nat) (v : Word) :
    writeBit { s with work := w } j v = { writeBit s j v with work := w } := by
  by_cases h : j < s.cfg.bMax ∧ s.busy = false
  · rw [writeBit, writeBit, if_pos h]
    exact if_pos h
  · rw [writeBit, writeBit, if_neg h]
    exact if_neg h

theorem busWrite_work (s : State) (w : Work) (a v : Word) :
    busWrite { s with work := w } a v = { busWrite s a v with work := w } := by
  unfold busWrite
  cases regionOf a with
  | registers =>
    cases regOfIndex (indexField a) with
    | none => rfl
    | some r => exact writeReg_work s w v r
  | sym => exact writeSym_work s w _ v
  | bit => exact writeBit_work s w _ v
  | out | ctLen | ctBits | reserved => rfl

/-- Settles O55: neither a command nor an access reads the working state. -/
theorem transientStateIsUnobservable : Obligations.TransientStateIsUnobservable := by
  intro i s w
  have hexec := exec_work i s w
  refine ⟨fun t h => ?_, fun f h => ?_, busRead_work s w, busWrite_work s w⟩
  · rw [h] at hexec
    exact hexec
  · rw [h] at hexec
    exact hexec

end Sys2Proof.Machine
end

section
/-! The element memories and the code-table views at the port (R61 to R68, R72, R73): one lemma per
outcome of an access, and what an access leaves unchanged. -/

namespace Sys2Proof.Machine

/-! ### Which region an access reaches -/

theorem regionOf_of_one {a : Word} (h : regionField a = 1) : regionOf a = .sym := by
  simp [regionOf, h]

theorem regionOf_of_two {a : Word} (h : regionField a = 2) : regionOf a = .bit := by
  simp [regionOf, h]

theorem regionOf_of_three {a : Word} (h : regionField a = 3) : regionOf a = .out := by
  simp [regionOf, h]

theorem regionOf_of_four {a : Word} (h : regionField a = 4) : regionOf a = .ctLen := by
  simp [regionOf, h]

theorem regionOf_of_five {a : Word} (h : regionField a = 5) : regionOf a = .ctBits := by
  simp [regionOf, h]

theorem busRead_of_sym {a : Word} (h : regionOf a = .sym) (s : State) :
    busRead s a = readSym s (indexField a) := by
  rw [busRead, h]

theorem busRead_of_bit {a : Word} (h : regionOf a = .bit) (s : State) :
    busRead s a = readBit s (indexField a) := by
  rw [busRead, h]

theorem busRead_of_out {a : Word} (h : regionOf a = .out) (s : State) :
    busRead s a = readOut s (indexField a) := by
  rw [busRead, h]

theorem busRead_of_ctLen {a : Word} (h : regionOf a = .ctLen) {s : State} (hidle : s.ctl = .idle) :
    busRead s a = (ctLenWord s (indexField a), s) := by
  simp [busRead, h, (State.busy_eq_false_iff s).mpr hidle]

theorem busRead_of_ctBits {a : Word} (h : regionOf a = .ctBits) {s : State}
    (hidle : s.ctl = .idle) : busRead s a = (ctBitsWord s (indexField a), s) := by
  simp [busRead, h, (State.busy_eq_false_iff s).mpr hidle]

theorem busWrite_of_sym {a : Word} (h : regionOf a = .sym) (s : State) (v : Word) :
    busWrite s a v = writeSym s (indexField a) v := by
  rw [busWrite, h]

theorem busWrite_of_bit {a : Word} (h : regionOf a = .bit) (s : State) (v : Word) :
    busWrite s a v = writeBit s (indexField a) v := by
  rw [busWrite, h]

theorem busWrite_of_out {a : Word} (h : regionOf a = .out) (s : State) (v : Word) :
    busWrite s a v = s := by
  rw [busWrite, h]

theorem busWrite_of_ctLen {a : Word} (h : regionOf a = .ctLen) (s : State) (v : Word) :
    busWrite s a v = s := by
  rw [busWrite, h]

theorem busWrite_of_ctBits {a : Word} (h : regionOf a = .ctBits) (s : State) (v : Word) :
    busWrite s a v = s := by
  rw [busWrite, h]

/-! ### Elements in words -/

theorem wordOfSymbol_toNat (x : Symbol) : (wordOfSymbol x).toNat = x.toNat :=
  BitVec.toNat_setWidth_of_le (by decide)

theorem symbolOfWord_toNat {c : Config} (hc : c.wf = true) (v : Word) :
    (symbolOfWord c v).toNat = v.toNat % 2 ^ c.symW := by
  obtain ⟨hk, -⟩ := Config.wf_bounds hc
  have hlt : v.toNat % c.kMax < c.kMax := Nat.mod_lt _ (Nat.two_pow_pos _)
  rw [symbolOfWord, BitVec.toNat_ofNat, Nat.mod_eq_of_lt (by omega), Config.kMax]

theorem wordOfBit_eq (b : Bool) : wordOfBit b = if b then 1 else 0 := by
  cases b <;> rfl

theorem wordOfBit_toNat_lt (b : Bool) : (wordOfBit b).toNat < 2 := by
  cases b <;> decide

/-! ### `SYM` -/

theorem readSym_of_some {s : State} {i : Nat} {x : Symbol} (hi : i < s.cfg.nMax)
    (hx : Memory.read s.sym i = some x) : readSym s i = (wordOfSymbol x, s) := by
  simp [readSym, hi, hx]

theorem readSym_of_none {s : State} {i : Nat} (hi : i < s.cfg.nMax)
    (hx : Memory.read s.sym i = none) :
    readSym s i = (wordOfSymbol (symbolOfWord s.cfg s.freeValue), s.drawn) := by
  simp [readSym, hi, hx]

theorem readSym_of_le {s : State} {i : Nat} (hi : s.cfg.nMax ≤ i) : readSym s i = (0, s) :=
  if_neg hi.not_gt

theorem writeSym_of_idle {s : State} {i : Nat} (hi : i < s.cfg.nMax) (hidle : s.ctl = .idle)
    (v : Word) : writeSym s i v = s.setSym i (symbolOfWord s.cfg v) :=
  if_pos ⟨hi, (State.busy_eq_false_iff s).mpr hidle⟩

theorem writeSym_of_not {s : State} {i : Nat} (h : ¬(i < s.cfg.nMax ∧ s.ctl = .idle)) (v : Word) :
    writeSym s i v = s :=
  if_neg (by rwa [State.busy_eq_false_iff])

/-- Settles O20: an access of region 1 is one of the cases of `readSym` and `writeSym`. -/
theorem symMemoryAccess : Obligations.SymMemoryAccess := by
  intro s a v hc hwf hregion
  have hsym : regionOf a = .sym := regionOf_of_one hregion
  rw [busRead_of_sym hsym, busWrite_of_sym hsym]
  refine ⟨fun hi hidle => ?_, fun h => writeSym_of_not h v, fun hi x hx => readSym_of_some hi hx,
    fun hi hx => ?_, fun hi => readSym_of_le hi⟩
  · have hw := writeSym_of_idle hi hidle v
    rw [indexField, hw]
    exact ⟨rfl, ⟨_, Memory.read_write_same _ hwf _ _, symbolOfWord_toNat hc v⟩,
      fun j hj => Memory.read_write_other _ hwf hj.symm _⟩
  · have hr := readSym_of_none hi hx
    rw [indexField, hr, wordOfSymbol_toNat]
    exact symbolOfWord_lt s.cfg _

/-! ### `BIT` -/

theorem readBit_of_some {s : State} {j : Nat} {b : Bool} (hidle : s.ctl = .idle)
    (hj : j < s.cfg.bMax) (hb : Memory.read s.bit j = some b) : readBit s j = (wordOfBit b, s) := by
  simp [readBit, (State.busy_eq_false_iff s).mpr hidle, hj, hb]

theorem readBit_of_none {s : State} {j : Nat} (hidle : s.ctl = .idle) (hj : j < s.cfg.bMax)
    (hb : Memory.read s.bit j = none) :
    readBit s j = (wordOfBit (bitOfWord s.freeValue), s.drawn) := by
  simp [readBit, (State.busy_eq_false_iff s).mpr hidle, hj, hb]

theorem readBit_of_le {s : State} {j : Nat} (hidle : s.ctl = .idle) (hj : s.cfg.bMax ≤ j) :
    readBit s j = (0, s) := by
  simp [readBit, (State.busy_eq_false_iff s).mpr hidle, hj.not_gt]

theorem writeBit_of_idle {s : State} {j : Nat} (hj : j < s.cfg.bMax) (hidle : s.ctl = .idle)
    (v : Word) : writeBit s j v = s.setBit j (bitOfWord v) :=
  if_pos ⟨hj, (State.busy_eq_false_iff s).mpr hidle⟩

theorem writeBit_of_not {s : State} {j : Nat} (h : ¬(j < s.cfg.bMax ∧ s.ctl = .idle)) (v : Word) :
    writeBit s j v = s :=
  if_neg (by rwa [State.busy_eq_false_iff])

/-- Settles O21: an access of region 2 is one of the cases of `readBit` and `writeBit`. -/
theorem bitMemoryAccess : Obligations.BitMemoryAccess := by
  intro s a v hwf hregion
  have hbit : regionOf a = .bit := regionOf_of_two hregion
  rw [busRead_of_bit hbit, busWrite_of_bit hbit]
  refine ⟨fun hj hidle => ?_, fun h => writeBit_of_not h v, fun hidle hj b hb => ?_,
    fun hidle hj hb => ?_, fun hidle hj => readBit_of_le hidle hj⟩
  · have hw := writeBit_of_idle hj hidle v
    rw [indexField, hw]
    exact ⟨rfl, Memory.read_write_same _ hwf _ _,
      fun k hk => Memory.read_write_other _ hwf hk.symm _⟩
  · rw [← wordOfBit_eq]
    exact readBit_of_some hidle hj hb
  · have hr := readBit_of_none hidle hj hb
    rw [indexField, hr]
    exact wordOfBit_toNat_lt _

/-! ### `OUT` -/

theorem readOut_of_some {s : State} {j : Nat} {x : Symbol} (hidle : s.ctl = .idle)
    (hj : j < s.cfg.oMax) (hx : Memory.read s.out j = some x) :
    readOut s j = (wordOfSymbol x, s) := by
  simp [readOut, (State.busy_eq_false_iff s).mpr hidle, hj, hx]

theorem readOut_of_none {s : State} {j : Nat} (hidle : s.ctl = .idle) (hj : j < s.cfg.oMax)
    (hx : Memory.read s.out j = none) :
    readOut s j = (wordOfSymbol (symbolOfWord s.cfg s.freeValue), s.drawn) := by
  simp [readOut, (State.busy_eq_false_iff s).mpr hidle, hj, hx]

theorem readOut_of_le {s : State} {j : Nat} (hidle : s.ctl = .idle) (hj : s.cfg.oMax ≤ j) :
    readOut s j = (0, s) := by
  simp [readOut, (State.busy_eq_false_iff s).mpr hidle, hj.not_gt]

/-- Settles O22: a read of region 3 is one of the cases of `readOut`. -/
theorem outMemoryIsReadOnly : Obligations.OutMemoryIsReadOnly := by
  intro s a v _ hregion
  have hout : regionOf a = .out := regionOf_of_three hregion
  rw [busRead_of_out hout]
  refine ⟨busWrite_of_out hout s v, fun hidle hj x hx => readOut_of_some hidle hj hx,
    fun hidle hj hx => ?_, fun hidle hj => readOut_of_le hidle hj⟩
  have hr := readOut_of_none hidle hj hx
  rw [indexField, hr, wordOfSymbol_toNat]
  exact symbolOfWord_lt s.cfg _

/-! ### The views of the code table -/

theorem ctLenWord_of_some {s : State} {i : Nat} {e : CodeEntry} (hi : i < s.cfg.kMax)
    (he : Memory.read s.ct i = some e) :
    ctLenWord s i = (1#32 <<< 31) ||| e.len.setWidth 32 := by
  simp only [ctLenWord, if_pos hi, he]

theorem ctLenWord_of_none {s : State} {i : Nat} (he : Memory.read s.ct i = none) :
    ctLenWord s i = 0 := by
  simp [ctLenWord, he]

theorem ctLenWord_of_le {s : State} {i : Nat} (hi : s.cfg.kMax ≤ i) : ctLenWord s i = 0 :=
  if_neg hi.not_gt

/-- Bit 31 stands above the 16 bits of `LEN`. -/
theorem validBit_or_len_toNat (len : BitVec 16) :
    ((1#32 <<< 31) ||| len.setWidth 32).toNat = 2 ^ 31 + len.toNat := by
  have hlen : len.toNat < 2 ^ 31 := by omega
  rw [BitVec.toNat_or, BitVec.toNat_setWidth_of_le (by decide)]
  exact (Nat.two_pow_add_eq_or_of_lt hlen 1).symm

theorem ctBitsSymbol_mul_add {c : Config} {x j : Nat} (hj : j < 2 ^ c.symW) :
    ctBitsSymbol c (x * 2 ^ c.symW + j) = x := by
  rw [ctBitsSymbol, Nat.shiftRight_eq_div_pow, Nat.mul_comm, Nat.mul_add_div (Nat.two_pow_pos _),
    Nat.div_eq_of_lt hj, Nat.add_zero]

theorem ctBitsPos_mul_add {c : Config} {x j : Nat} (hj : j < 2 ^ c.symW) :
    ctBitsPos c (x * 2 ^ c.symW + j) = j := by
  rw [ctBitsPos, Nat.and_two_pow_sub_one_eq_mod, Nat.mul_comm, Nat.mul_add_mod,
    Nat.mod_eq_of_lt hj]

theorem ctBitsWord_of_some {s : State} {x j : Nat} {e : CodeEntry} (hj : j < 2 ^ s.cfg.symW)
    (hx : x < s.cfg.kMax) (he : Memory.read s.ct x = some e) :
    ctBitsWord s (x * 2 ^ s.cfg.symW + j) =
      if j < e.len.toNat ∧ e.code.getLsbD j = true then 1 else 0 := by
  simp only [ctBitsWord, ctBitsSymbol_mul_add hj, ctBitsPos_mul_add hj, if_pos hx, he,
    wordOfBit_eq, ite_and]

theorem ctBitsWord_of_none {s : State} {x j : Nat} (hj : j < 2 ^ s.cfg.symW)
    (hx : x < s.cfg.kMax → Memory.read s.ct x = none) :
    ctBitsWord s (x * 2 ^ s.cfg.symW + j) = 0 := by
  rw [ctBitsWord, ctBitsSymbol_mul_add hj]
  by_cases h : x < s.cfg.kMax
  · simp [hx h]
  · exact if_neg h

/-- Every code position fits the low part of a `CT_BITS` index, and every index fits its 26 bits. -/
theorem Config.ctBits_addressable {c : Config} (hc : c.wf = true) :
    c.lMax < 2 ^ c.symW ∧ c.kMax * 2 ^ c.symW ≤ 2 ^ 24 := by
  obtain ⟨hk, -⟩ := Config.wf_bounds hc
  simp only [Config.wf, Bool.and_eq_true, decide_eq_true_eq] at hc
  have htwo : 2 ^ 1 ≤ 2 ^ c.symW := Nat.pow_le_pow_right (by decide) (by omega)
  refine ⟨?_, ?_⟩
  · rw [Config.lMax, Config.kMax]
    omega
  · have hmul : c.kMax * c.kMax ≤ 4096 * 4096 := Nat.mul_le_mul hk hk
    exact hmul

/-- Settles O23: an index of `CT_BITS` splits into a symbol and a position in one way. -/
theorem codeTableViews : Obligations.CodeTableViews := by
  intro s a v n hidle hn
  refine ⟨fun hregion => ?_, fun hregion => ?_, Config.ctBits_addressable⟩
  · have hlen : regionOf a = .ctLen := regionOf_of_four hregion
    rw [busRead_of_ctLen hlen hidle, show indexField a = n from hn.symm]
    refine ⟨busWrite_of_ctLen hlen s v, rfl, fun e hi he => ?_, fun _ he => ctLenWord_of_none he,
      fun hi => ctLenWord_of_le hi⟩
    rw [ctLenWord_of_some hi he, validBit_or_len_toNat]
  · have hbits : regionOf a = .ctBits := regionOf_of_five hregion
    rw [busRead_of_ctBits hbits hidle, show indexField a = n from hn.symm]
    refine ⟨busWrite_of_ctBits hbits s v, rfl, fun x j e hsplit hj hx he => ?_,
      fun x j hsplit hj hx => ?_⟩
    · rw [hsplit]
      exact ctBitsWord_of_some hj hx he
    · rw [hsplit]
      exact ctBitsWord_of_none hj hx

/-! ### Bits 1:0 of an address -/

theorem regionField_eq_extract (a : Word) :
    regionField a = (a.extractLsb' 2 30).extractLsb' 26 4 := by
  ext i hi
  have hlow : 26 + i < 30 := by omega
  simp [regionField, hlow, ← Nat.add_assoc]

theorem indexField_eq_extract (a : Word) :
    indexField a = ((a.extractLsb' 2 30).extractLsb' 0 26).toNat := by
  rw [indexField]
  congr 1
  ext i hi
  have hlow : i < 30 := by omega
  simp [hlow]

/-- Settles O24: both parts of an address lie in its bits 31:2, and an access uses nothing else of
it. -/
theorem addressLowBitsIgnored : Obligations.AddressLowBitsIgnored := by
  intro s a b v h
  have hregion : regionField a = regionField b := by
    rw [regionField_eq_extract, regionField_eq_extract, h]
  have hindex : indexField a = indexField b := by
    rw [indexField_eq_extract, indexField_eq_extract, h]
  simp only [busRead, busWrite, regionOf, hregion, hindex, and_self]

/-! ### Reads, and writes made twice -/

theorem Memory.write_write {α : Type} (m : Memory α) (i : Nat) (v : α) :
    Memory.write (Memory.write m i v) i v = Memory.write m i v := by
  induction m with
  | nil => simp [Memory.write]
  | cons c m ih =>
    obtain ⟨k, u⟩ := c
    rcases lt_trichotomy i k with h | rfl | h
    · simp [Memory.write, h]
    · simp [Memory.write]
    · simp [Memory.write, h.not_gt, h.ne', ih]

theorem writeSym_writeSym (s : State) (i : Nat) (v : Word) :
    writeSym (writeSym s i v) i v = writeSym s i v := by
  by_cases h : i < s.cfg.nMax ∧ s.ctl = .idle
  · rw [writeSym_of_idle h.1 h.2, writeSym_of_idle (s := s.setSym _ _) h.1 h.2]
    simp [State.setSym, Memory.write_write]
  · rw [writeSym_of_not h, writeSym_of_not h]

theorem writeBit_writeBit (s : State) (j : Nat) (v : Word) :
    writeBit (writeBit s j v) j v = writeBit s j v := by
  by_cases h : j < s.cfg.bMax ∧ s.ctl = .idle
  · rw [writeBit_of_idle h.1 h.2, writeBit_of_idle (s := s.setBit _ _) h.1 h.2]
    simp [State.setBit, Memory.write_write]
  · rw [writeBit_of_not h, writeBit_of_not h]

@[simp] theorem State.accept_busy (s : State) (w : Word) : (s.accept w).busy = true := rfl

@[simp] theorem State.setInLen_busy (s : State) (v : Word) : (s.setInLen v).busy = s.busy := rfl

@[simp] theorem State.setBitLen_busy (s : State) (v : Word) : (s.setBitLen v).busy = s.busy := rfl

@[simp] theorem State.setInLen_setInLen (s : State) (v w : Word) :
    (s.setInLen v).setInLen w = s.setInLen w := rfl

@[simp] theorem State.setBitLen_setBitLen (s : State) (v w : Word) :
    (s.setBitLen v).setBitLen w = s.setBitLen w := rfl

/-- The first write of `CMD` makes the core busy, and a busy core drops the second. -/
theorem writeReg_writeReg (s : State) (v : Word) (r : Reg) :
    writeReg (writeReg s v r) v r = writeReg s v r := by
  cases r with
  | cmd | inLen | bitLen => cases hb : s.busy <;> simp [writeReg, hb]
  | status => cases hv : v.getLsbD 1 <;> simp only [writeReg, hv] <;> rfl
  | id | cfgSymw | cfgNmax | cfgBmax | ctrl | errCode | errInfo | encLen | outLen | nsym => rfl

theorem busWrite_busWrite (s : State) (a v : Word) :
    busWrite (busWrite s a v) a v = busWrite s a v := by
  unfold busWrite
  cases regionOf a with
  | registers =>
    cases regOfIndex (indexField a) with
    | none => rfl
    | some r => exact writeReg_writeReg s v r
  | sym => exact writeSym_writeSym s _ v
  | bit => exact writeBit_writeBit s _ v
  | out | ctLen | ctBits | reserved => rfl

/-- Settles O25: a read draws a free value or nothing, and every write is idempotent. -/
theorem readsAndRepeatedWritesChangeNothing :
    Obligations.ReadsAndRepeatedWritesChangeNothing := by
  intro s a v
  refine ⟨?_, busWrite_busWrite s a v⟩
  rcases busRead_state s a with e | e
  · exact ⟨s.draws, e⟩
  · exact ⟨s.draws + 1, e⟩

end Sys2Proof.Machine
end

section
/-! Command words (R90 to R94): which words select a command, and why every other one is illegal. -/

namespace Sys2Proof.Machine

@[simp] theorem decodeCmd_encode (i : Instr) : decodeCmd (encode i) = .ok i := by
  cases i with
  | nop => exact Laws.Encoding.nop.2.2.2
  | build => exact Laws.Encoding.build.2.2.2
  | encode => exact Laws.Encoding.encode.2.2.2
  | decode => exact Laws.Encoding.decode.2.2.2

theorem decodeCmd_eq_ok_iff (w : Word) (i : Instr) : decodeCmd w = .ok i ↔ w = encode i :=
  ⟨eq_encode_of_decodeCmd, fun h => h ▸ decodeCmd_encode i⟩

/-- The two fields of R90 make up the word. -/
theorem eq_encode_iff (w : Word) (i : Instr) :
    w = encode i ↔ rsvdField w = 0 ∧ opcField w = opcodeOf i := by
  constructor
  · rintro rfl
    cases i <;> decide
  · rintro ⟨hrsvd, hopc⟩
    rw [← rsvdField_append_opcField w, hrsvd, hopc, encode]

theorem exists_opcodeOf_eq_iff (o : BitVec 4) : (∃ i, opcodeOf i = o) ↔ o.toNat ≤ 3 := by
  constructor
  · rintro ⟨i, rfl⟩
    cases i <;> decide
  · intro h
    have hcases : o = 0 ∨ o = 1 ∨ o = 2 ∨ o = 3 := by bv_omega
    rcases hcases with rfl | rfl | rfl | rfl
    exacts [⟨.nop, rfl⟩, ⟨.build, rfl⟩, ⟨.encode, rfl⟩, ⟨.decode, rfl⟩]

theorem decodeCmd_of_rsvdField_ne_zero {w : Word} (h : rsvdField w ≠ 0) :
    decodeCmd w = .error .reservedBits := if_pos h

theorem decodeCmd_of_three_lt_opcField {w : Word} (hrsvd : rsvdField w = 0)
    (hopc : 3 < (opcField w).toNat) : decodeCmd w = .error .reservedOpcode := by
  obtain ⟨k, hk⟩ := Nat.exists_eq_add_of_le' (show 4 ≤ (opcField w).toNat from hopc)
  rw [decodeCmd, if_neg (not_not.mpr hrsvd), hk]
  rfl

theorem decodeCmd_eq_error_iff (w : Word) :
    (∃ e, decodeCmd w = .error e) ↔ rsvdField w ≠ 0 ∨ 3 < (opcField w).toNat := by
  by_cases hrsvd : rsvdField w = 0
  · rcases lt_or_ge 3 (opcField w).toNat with hopc | hopc
    · exact iff_of_true ⟨_, decodeCmd_of_three_lt_opcField hrsvd hopc⟩ (.inr hopc)
    · obtain ⟨i, hi⟩ := (exists_opcodeOf_eq_iff _).mpr hopc
      have hok : decodeCmd w = .ok i :=
        (decodeCmd_eq_ok_iff w i).mpr ((eq_encode_iff w i).mpr ⟨hrsvd, hi.symm⟩)
      simp [hok, hrsvd, hopc]
  · exact iff_of_true ⟨_, decodeCmd_of_rsvdField_ne_zero hrsvd⟩ (.inl hrsvd)

/-- Settles O1: a word decodes to a command exactly when it is the command's word, and the fields of
that word are the rows of R92. -/
theorem commandWordSelectsItsCommand : Obligations.CommandWordSelectsItsCommand := by
  intro w
  refine ⟨fun i => ?_, decodeCmd_eq_error_iff w⟩
  rw [decodeCmd_eq_ok_iff, eq_encode_iff]
  cases i <;> simp [rsvdField, opcField, opcodeOf]

/-- Settles O2: `decodeCmd` and `encode` are inverse to each other. -/
theorem decodeReadsBackEncode : Obligations.DecodeReadsBackEncode :=
  ⟨decodeCmd_encode, fun _ _ => eq_encode_of_decodeCmd⟩

/-- Settles O3: the first four words are those of the commands, and the others have a reserved opcode
or reserved bits. -/
theorem opcodeTableWordsDecode : Obligations.OpcodeTableWordsDecode :=
  ⟨decodeCmd_encode .nop, decodeCmd_encode .build, decodeCmd_encode .encode, decodeCmd_encode .decode,
    decodeCmd_of_three_lt_opcField (by decide) (by decide),
    decodeCmd_of_three_lt_opcField (by decide) (by decide),
    decodeCmd_of_rsvdField_ne_zero (by decide), decodeCmd_of_rsvdField_ne_zero (by decide)⟩

end Sys2Proof.Machine
end

section
/-! `LOADSYM` (R97, R98): where the address of an element leads, what a pending write of a literal is
to an idle machine, and the run of consecutive `WRSYM`. -/

namespace Sys2Proof.Machine

/-! ### Symbols at the port -/

theorem regionField_elementAddr (r : BitVec 4) (i : Nat) : regionField (elementAddr r i) = r :=
  (BitVec.extractLsb'_append_eq_of_le (xhi := r ++ BitVec.ofNat 26 i) (by decide)).trans
    BitVec.extractLsb'_append_eq_left

theorem indexField_elementAddr (r : BitVec 4) {i : Nat} (hi : i < 2 ^ 26) :
    indexField (elementAddr r i) = i := by
  have hfield : (elementAddr r i).extractLsb' 2 26 = BitVec.ofNat 26 i :=
    (BitVec.extractLsb'_append_eq_of_le (xhi := r ++ BitVec.ofNat 26 i) (by decide)).trans
      BitVec.extractLsb'_append_eq_right
  rw [indexField, hfield, toNat_ofNat_of_lt hi le_rfl]

/-- A symbol of the configured width passes through a word unchanged (R64). -/
theorem symbolOfWord_wordOfSymbol {c : Config} {x : Symbol} (hx : x.toNat < c.kMax) :
    symbolOfWord c (wordOfSymbol x) = x := by
  rw [symbolOfWord, wordOfSymbol_toNat, Nat.mod_eq_of_lt hx, BitVec.ofNat_toNat, BitVec.setWidth_eq]

theorem busWrite_elementAddr_sym {s : State} {i : Nat} {x : Symbol} (hc : s.cfg.wf = true)
    (hidle : s.ctl = .idle) (hi : i < s.cfg.nMax) (hx : x.toNat < s.cfg.kMax) :
    busWrite s (elementAddr 1 i) (wordOfSymbol x) = s.setSym i x := by
  obtain ⟨-, -, -, hn, -, -⟩ := Config.wf_bounds hc
  rw [busWrite_of_sym (regionOf_of_one (regionField_elementAddr 1 i)),
    indexField_elementAddr 1 (hi.trans_le hn), writeSym_of_idle hi hidle,
    symbolOfWord_wordOfSymbol hx]

/-! ### Steps of an idle machine -/

theorem run_succ_of_next {M : Host.Core} {s t : M.State} (h : M.step s = .next t) (k : Nat) :
    M.run (k + 1) s = M.run k t := by
  simp [Host.Core.run, h]

theorem step_of_write {s : State} {a v : Word} {ops : List HostOp} (hidle : s.ctl = .idle)
    (h : s.host = .write a (.lit v) :: ops) : step s = .next (busWrite s a v).popHost := by
  rw [step_of_idle hidle]
  simp [hostStep, h, evalVal]

theorem step_of_wrsym {s : State} {i : Nat} {x : Symbol} {ops : List HostOp}
    (hc : s.cfg.wf = true) (hidle : s.ctl = .idle) (hi : i < s.cfg.nMax)
    (hx : x.toNat < s.cfg.kMax) (h : s.host = wrsymOp i x :: ops) :
    step s = .next { s with sym := Memory.write s.sym i x, host := ops } := by
  rw [step_of_write hidle h, busWrite_elementAddr_sym hc hidle hi hx]
  simp [State.popHost, State.setSym, h]

theorem step_of_wr_inLen {s : State} {v : Word} {ops : List HostOp} (hidle : s.ctl = .idle)
    (h : s.host = .write (Reg.offset .inLen) (.lit v) :: ops) :
    step s = .next { s with inLen := v, host := ops } := by
  rw [step_of_write hidle h, busWrite_offset, writeReg, (State.busy_eq_false_iff s).mpr hidle]
  simp [State.popHost, State.setInLen, h]

/-- Consecutive `WRSYM` of an idle machine's host write a sequence of `SYM`, one step for each. -/
theorem run_wrsymOps {s : State} {xs : List Symbol} {i : Nat} {ops : List HostOp}
    (hc : s.cfg.wf = true) (hidle : s.ctl = .idle) (hlen : i + xs.length ≤ s.cfg.nMax)
    (hxs : ∀ x ∈ xs, x.toNat < s.cfg.kMax) (h : s.host = wrsymOps i xs ++ ops) (k : Nat) :
    core.run (xs.length + k) s =
      core.run k { s with sym := Memory.writeSeq s.sym i xs, host := ops } := by
  induction xs generalizing s i with
  | nil =>
    obtain rfl : s.host = ops := h
    rw [List.length_nil, Nat.zero_add]
    rfl
  | cons x xs ih =>
    obtain ⟨hx, hxs⟩ := List.forall_mem_cons.mp hxs
    rw [List.length_cons] at hlen
    rw [List.length_cons, Nat.add_right_comm]
    have hstep := step_of_wrsym hc hidle (by omega) hx h
    have hrest : i + 1 + xs.length ≤ s.cfg.nMax := by omega
    exact (run_succ_of_next (M := core) hstep _).trans (ih hc hidle hrest hxs rfl)

theorem run_loadsym {s : State} {xs : List Symbol} {ops : List HostOp} (hc : s.cfg.wf = true)
    (hidle : s.ctl = .idle) (hlen : xs.length ≤ s.cfg.nMax) (hxs : ∀ x ∈ xs, x.toNat < s.cfg.kMax)
    (h : s.host = expandStmt (.loadsym xs) ++ ops) :
    core.run (xs.length + 1) s = .next
      { s with
        sym := Memory.writeSeq s.sym 0 xs
        inLen := BitVec.ofNat 32 xs.length
        host := ops } := by
  rw [expandStmt, List.append_assoc] at h
  refine (run_wrsymOps hc hidle (by omega) hxs h 1).trans
    (run_succ_of_next (M := core) (step_of_wr_inLen ?_ ?_) 0)
  exacts [hidle, rfl]

/-- Settles O28: the `WRSYM` steps write the symbols from `SYM[0]` on, and the last step writes their
number, which fits `IN_LEN`. -/
theorem loadsymLoadsTheOperand : Obligations.LoadsymLoadsTheOperand := by
  intro s xs rest hidle hwf hc hstmt hlen hhost
  obtain ⟨-, -, -, hn, -, -⟩ := Config.wf_bounds hc
  obtain ⟨-, hxs⟩ : xs.length ≤ 2 ^ 26 ∧ ∀ x ∈ xs, x.toNat < s.cfg.kMax := by
    simpa [HostStmt.wf, symbolOk] using hstmt
  exact ⟨_, run_loadsym hc hidle hlen hxs hhost, rfl,
    toNat_ofNat_of_lt (k := 27) (by omega) (by decide),
    Memory.holds_writeSeq s.sym hwf xs, Memory.read_writeSeq_beyond s.sym hwf xs⟩

end Sys2Proof.Machine
end

section
/-! How a command comes out (R113, R114): it completes, or stops at an element of its operand that was
never written (D25). -/

namespace Sys2Proof.Machine

/-- What stops a command: an element within the operand it reads that holds no value. -/
inductive ReadsUnwritten (s : State) : Instr → Fault → Prop
  | build (k : Nat) : k < s.nIn → Memory.read s.sym k = none →
      ReadsUnwritten s .build (.unwrittenSym k)
  | encode (k : Nat) : k < s.nIn → Memory.read s.sym k = none →
      ReadsUnwritten s .encode (.unwrittenSym k)
  | decode (k : Nat) : k < s.nBits → Memory.read s.bit k = none →
      ReadsUnwritten s .decode (.unwrittenBit k)

theorem ReadsUnwritten.not_operandsWritten {s : State} {i : Instr} {f : Fault}
    (h : ReadsUnwritten s i f) : ¬ s.operandsWritten i := by
  intro hw
  cases h with
  | build k hk hnone | encode k hk hnone | decode k hk hnone => simpa [hnone] using hw k hk

theorem exec_next_or_readsUnwritten (i : Instr) (s : State) :
    (∃ t, exec i s = .next t) ∨ ∃ f, exec i s = .fault f ∧ ReadsUnwritten s i f := by
  cases i with
  | nop => exact .inl ⟨_, execNop_eq s⟩
  | build =>
    rcases execBuild_cases s with ⟨-, e⟩ | ⟨-, k, hk, hnone, e⟩ | ⟨-, xs, -, -, e⟩
    · exact .inl ⟨_, e⟩
    · exact .inr ⟨_, e, .build k hk hnone⟩
    · exact .inl ⟨_, e⟩
  | encode =>
    rcases execEncode_cases s with ⟨-, e⟩ | ⟨-, -, e⟩ | ⟨-, -, k, hk, hnone, e⟩ |
      ⟨-, -, ys, code, info, -, -, -, -, e, -⟩
    · exact .inl ⟨_, e⟩
    · exact .inl ⟨_, e⟩
    · exact .inr ⟨_, e, .encode k hk hnone⟩
    · exact .inl ⟨_, e⟩
  | decode =>
    rcases execDecode_cases s with ⟨-, e⟩ | ⟨-, -, e⟩ | ⟨-, -, k, hk, hnone, e⟩ |
      ⟨-, -, bs, -, -, d, -, ⟨-, e⟩ | ⟨-, e⟩⟩
    · exact .inl ⟨_, e⟩
    · exact .inl ⟨_, e⟩
    · exact .inr ⟨_, e, .decode k hk hnone⟩
    · exact .inl ⟨_, e⟩
    · exact .inl ⟨_, e⟩

/-- Settles O9: a command has the two outcomes, and written operands rule out the second. -/
theorem everyCommandCompletes : Obligations.EveryCommandCompletes := by
  intro i s
  rcases exec_next_or_readsUnwritten i s with ⟨t, e⟩ | ⟨f, e, hf⟩
  · obtain ⟨hidle, hdone, -⟩ := exec_next e
    refine ⟨fun _ => ⟨t, e, hidle, hdone⟩, fun f hf => ?_, fun r => by simp [e]⟩
    cases e.symm.trans hf
  · refine ⟨fun hw => absurd hw hf.not_operandsWritten, fun g hg => ?_, fun r => by simp [e]⟩
    cases e.symm.trans hg
    cases hf with
    | build k hk hnone => exact .inl ⟨k, rfl, .inl rfl, hk, hnone⟩
    | encode k hk hnone => exact .inl ⟨k, rfl, .inr rfl, hk, hnone⟩
    | decode k hk hnone => exact .inr ⟨k, rfl, rfl, hk, hnone⟩

end Sys2Proof.Machine
end

section
/-! A running command ends (R114, R260): every step that is not the core's uses up a turn. -/

namespace Sys2Proof.Machine

/-- At most `n` steps lead to an idle core, or to a fault. -/
def EndsWithin (n : Nat) (s : State) : Prop :=
  ∃ k, k ≤ n ∧
    ((∃ t, core.run k s = .next t ∧ t.ctl = .idle) ∨ ∃ f, core.run k s = .fault f)

theorem endsWithin_of_idle {s : State} (h : s.ctl = .idle) (n : Nat) : EndsWithin n s :=
  ⟨0, Nat.zero_le n, .inl ⟨s, rfl, h⟩⟩

theorem endsWithin_of_step_fault {s : State} {f : Fault} (h : step s = .fault f) (n : Nat) :
    EndsWithin (n + 1) s := by
  have hrun : core.run 1 s = .fault f := by simp [Host.Core.run, core, h]
  exact ⟨1, Nat.le_add_left 1 n, .inr ⟨f, hrun⟩⟩

theorem EndsWithin.of_step {s t : State} {n : Nat} (h : step s = .next t) (ht : EndsWithin n t) :
    EndsWithin (n + 1) s := by
  obtain ⟨k, hk, hrun⟩ := ht
  rw [← run_succ_of_next (M := core) h k] at hrun
  exact ⟨k + 1, Nat.succ_le_succ hk, hrun⟩

theorem turns_hostKeeps (ts : List Agent) : HostKeeps (fun t => t.turns = ts) where
  setIrqEn _ _ h := h
  accept _ _ h := h
  ack _ h := h
  setInLen _ _ _ h := h
  setBitLen _ _ _ h := h
  setSym _ _ _ _ h := h
  setBit _ _ _ _ h := h
  setVar _ _ _ h := h
  drawn _ h := h
  popHost _ h := h

theorem hostStep_turns (s : State) : (hostStep s).turns = s.turns :=
  hostStep_keeps (turns_hostKeeps s.turns) rfl fun _ => rfl

/-- A busy machine whose host moves next spends a turn. -/
theorem State.turns_of_host_moves {s : State} {sn : Snapshot} (hbusy : s.ctl = .busy sn)
    (hhost : s.nextAgent = .host) : ∃ ts, s.turns = .host :: ts := by
  rw [← List.head?_eq_some_iff]
  by_contra hturn
  have hcore : s.nextAgent = .core := (State.nextAgent_eq_core_iff s).mpr
    ⟨(State.busy_eq_true_iff s).mpr ⟨sn, hbusy⟩, .inl hturn⟩
  cases hhost.symm.trans hcore

/-- A step of a busy machine ends the command, or is the host's and spends one of its turns. -/
theorem step_of_busy {s : State} {sn : Snapshot} (hbusy : s.ctl = .busy sn) :
    (∃ t, step s = .next t ∧ t.ctl = .idle) ∨ (∃ f, step s = .fault f) ∨
    ∃ t ts, step s = .next t ∧ s.turns = .host :: ts ∧ t.turns = ts := by
  rcases step_cases s with ⟨-, i, -, -, -, e⟩ | ⟨-, -, -, -, -, e⟩ | ⟨hhost, e⟩
  · rcases exec_next_or_readsUnwritten i s.popTurn with ⟨t, e'⟩ | ⟨f, e', -⟩
    · obtain ⟨hidle, -⟩ := exec_next e'
      exact .inl ⟨t, e.trans e', hidle⟩
    · exact .inr (.inl ⟨f, e.trans e'⟩)
  · exact .inl ⟨_, e, rfl⟩
  · obtain ⟨ts, hts⟩ := State.turns_of_host_moves hbusy hhost
    refine .inr (.inr ⟨_, ts, e, hts, ?_⟩)
    rw [hostStep_turns, State.popTurn_of_busy hbusy, hts, List.tail_cons]

/-- What remains to show of a step is where the host spends its turn. -/
theorem endsWithin_succ {s : State} {n : Nat}
    (hhost : ∀ t ts, step s = .next t → s.turns = .host :: ts → t.turns = ts →
      EndsWithin n t) :
    EndsWithin (n + 1) s := by
  cases hctl : s.ctl with
  | idle => exact endsWithin_of_idle hctl _
  | busy sn =>
    rcases step_of_busy hctl with ⟨t, e, hidle⟩ | ⟨f, e⟩ | ⟨t, ts, e, hts, ht⟩
    · exact .of_step e (endsWithin_of_idle hidle n)
    · exact endsWithin_of_step_fault e n
    · exact .of_step e (hhost t ts e hts ht)

theorem endsWithin_turns (ts : List Agent) {s : State} (hts : s.turns = ts) :
    EndsWithin (ts.length + 1) s := by
  induction ts generalizing s with
  | nil => exact endsWithin_succ fun _ _ _ hcons _ => by cases hts.symm.trans hcons
  | cons a ts ih =>
    refine endsWithin_succ fun t ts' _ hcons ht => ?_
    cases hts.symm.trans hcons
    exact ih ht

/-- Settles O10, by induction on the turns. -/
theorem runningCommandEnds : Obligations.RunningCommandEnds :=
  fun _ _ _ => endsWithin_turns _ rfl

end Sys2Proof.Machine
end

section
/-! The lifecycle of a command word (R110 to R118): its acceptance, and the core's move that runs
it. -/

namespace Sys2Proof.Machine

/-! ### Writes of `CMD` -/

theorem writeCmd_of_busy {s : State} {sn : Snapshot} (h : s.ctl = .busy sn) (w : Word) :
    busWrite s 0x14 w = s := by
  rw [show busWrite s 0x14 w = writeReg s w .cmd from busWrite_offset s .cmd w, writeReg,
    if_pos ((State.busy_eq_true_iff s).mpr ⟨sn, h⟩)]

/-- `CMD` is the register of word index 5 (R27). -/
theorem busWrite_eq_busWrite_cmd {a : Word} (hregion : regionField a = 0)
    (hindex : a.extractLsb' 2 26 = 5) (s : State) (w : Word) :
    busWrite s a w = busWrite s 0x14 w := by
  have hi : indexField a = indexField 0x14 := congrArg BitVec.toNat hindex
  have hr : regionOf a = regionOf 0x14 := regionOf_of_zero hregion
  rw [busWrite, busWrite, hr, hi]

/-- Settles O4: an idle core accepts the word, a busy one drops it. -/
theorem commandWriteIsAcceptedWhenIdle : Obligations.CommandWriteIsAcceptedWhenIdle := by
  intro s a w hregion hindex
  rw [busWrite_eq_busWrite_cmd hregion hindex]
  exact ⟨fun hidle => writeCmd_of_idle hidle w, fun sn hbusy => writeCmd_of_busy hbusy w⟩

/-! ### The core's move -/

theorem step_of_core_turn {s : State} {sn : Snapshot} (hbusy : s.ctl = .busy sn)
    (hturn : s.host = [] ∨ s.turns.head? ≠ some .host) :
    step s = coreStep { s with turns := s.turns.tail } := by
  have hcore : s.nextAgent = .core := (State.nextAgent_eq_core_iff s).mpr
    ⟨(State.busy_eq_true_iff s).mpr ⟨sn, hbusy⟩, hturn.symm⟩
  rw [step, hcore, State.popTurn_of_busy hbusy]

theorem coreStep_of_command {s : State} {sn : Snapshot} {i : Instr} (hbusy : s.ctl = .busy sn)
    (hdec : decodeCmd sn.cmd = .ok i) : coreStep s = exec i s := by
  simp [coreStep, hbusy, hdec]

theorem coreStep_of_illegal {s : State} {sn : Snapshot} {e : IllegalWord}
    (hbusy : s.ctl = .busy sn) (hdec : decodeCmd sn.cmd = .error e) :
    coreStep s = .next (s.complete .illegalCmd 0) := by
  simp [coreStep, hbusy, hdec, execIllegal_eq]

/-- Settles O5: with the turn the core moves, and runs the command the snapshot's word selects. -/
theorem stepRunsDecodedCommand : Obligations.StepRunsDecodedCommand := by
  intro s sn i hbusy hturn hdec
  rw [step_of_core_turn hbusy hturn]
  exact coreStep_of_command hbusy hdec

/-- Right after its acceptance the core runs the word, when the host has no turn. -/
theorem step_of_accepted {s : State} (hidle : s.ctl = .idle) (w : Word) :
    step { busWrite s 0x14 w with turns := [] } = coreStep { s.accept w with turns := [] } := by
  rw [writeCmd_of_idle hidle]
  exact step_of_core_turn (s := { s.accept w with turns := [] }) rfl (.inr (by simp))

/-! ### What the port then shows -/

theorem busRead_errCode (s : State) : (busRead s 0x1C).1 = s.errCodeWord :=
  congrArg Prod.fst (busRead_offset s .errCode)

theorem busRead_status (s : State) : (busRead s 0x18).1 = s.statusWord :=
  congrArg Prod.fst (busRead_offset s .status)

theorem errCodeWord_complete (s : State) (code : ErrCode) (info : Nat) :
    (s.complete code info).errCodeWord = (0 : BitVec 28) ++ code.code := rfl

theorem err_complete (s : State) (code : ErrCode) (info : Nat) :
    (s.complete code info).err = decide (code ≠ .none) := by
  rw [Bool.eq_iff_iff, State.err_eq_true_iff, State.complete_errCode, decide_eq_true_iff]

/-- Of a machine that is not built, `DONE` and perhaps `ERR` are left. -/
theorem statusWord_complete {s : State} (hbuilt : s.built = false) (code : ErrCode) (info : Nat) :
    (s.complete code info).statusWord = if code = .none then 2 else 6 := by
  have hbusy : (s.complete code info).busy = false := rfl
  rw [State.statusWord, hbusy, err_complete, State.complete_built, State.complete_done, hbuilt]
  cases code <;> decide

/-! ### Illegal words and `NOP` -/

/-- Settles O7: the decoder refuses the word, so that the core's move is the completion alone. -/
theorem illegalWordEndsWithIllegalCmd : Obligations.IllegalWordEndsWithIllegalCmd := by
  intro s w hidle hillegal
  obtain ⟨e, hdec⟩ := (decodeCmd_eq_error_iff w).mpr hillegal
  have hstep := (step_of_accepted hidle w).trans (coreStep_of_illegal rfl hdec)
  refine ⟨_, hstep, rfl, ?_, rfl, rfl, fun hbuilt => ?_⟩
  · rw [busRead_errCode, errCodeWord_complete]
    decide
  · exact (busRead_status _).trans (statusWord_complete hbuilt .illegalCmd 0)

/-- Settles O8: `NOP` is its completion, also when it is the first command after reset. -/
theorem nopOnlyCompletes : Obligations.NopOnlyCompletes := by
  have hdec : decodeCmd 0 = .ok .nop := decodeCmd_encode .nop
  have hstep := (step_of_accepted (s := State.reset) rfl 0).trans (coreStep_of_command rfl hdec)
  refine ⟨execNop_eq, _, hstep.trans (execNop_eq _), ?_, ?_⟩
  · exact (busRead_status _).trans (statusWord_complete rfl .none 0)
  · rw [busRead_errCode, errCodeWord_complete]
    decide

end Sys2Proof.Machine
end

section
/-! The merging over a queue kept in order is the merging of the rules over a queue in any order
(R135, R136): each is read off the other one merge at a time, since the order determines the two
nodes. -/

namespace Sys2Proof.Machine

theorem Node.precedes_asymm {a b : Node} (h : a.precedes b) : ¬ b.precedes a := by
  unfold Node.precedes at *
  omega

/-- The node that precedes all others does not depend on the order the queue is listed in. -/
theorem eq_of_perm_of_precedes {a b : Node} {q r : List Node} (hp : (a :: q).Perm (b :: r))
    (ha : ∀ c ∈ q, a.precedes c) (hb : ∀ c ∈ r, b.precedes c) : a = b ∧ q.Perm r := by
  have heq : a = b := by
    by_contra hne
    have har : a ∈ r := (List.mem_cons.mp (hp.mem_iff.mp List.mem_cons_self)).resolve_left hne
    have hbq : b ∈ q :=
      (List.mem_cons.mp (hp.mem_iff.mpr List.mem_cons_self)).resolve_left (Ne.symm hne)
    exact Node.precedes_asymm (ha b hbq) (hb a har)
  subst heq
  exact ⟨rfl, (List.perm_cons a).mp hp⟩

/-! ### The rules -/

/-- The rules see the queue as a set: its order does not matter. -/
theorem Merges.perm {next : Nat} {q q' : List Node} {n : Node} (h : Merges next q n)
    (hp : q.Perm q') : Merges next q' n := by
  cases h with
  | root =>
    rw [← List.singleton_perm.mp hp]
    exact .root next n
  | merge _ _ r a b _ hq hab hbr hm => exact .merge next q' r a b n (hp.symm.trans hq) hab hbr hm

theorem merges_singleton_iff {next : Nat} {m n : Node} : Merges next [m] n ↔ m = n := by
  constructor
  · intro h
    cases h with
    | root => rfl
    | merge _ _ r a b _ hq => simpa using hq.length_eq
  · rintro rfl
    exact .root next m

/-- On a queue in the order of R135 the rules take its first two nodes. -/
theorem merges_cons_cons_iff {next : Nat} {a b n : Node} {q : List Node}
    (ho : (a :: b :: q).Pairwise Node.precedes) :
    Merges next (a :: b :: q) n ↔ Merges (next + 1) (mergeNode a b next :: q) n := by
  obtain ⟨ha, ho'⟩ := List.pairwise_cons.mp ho
  have hb := (List.pairwise_cons.mp ho').1
  constructor
  · intro h
    cases h with
    | merge _ _ r c d _ hq hcd hdr hm =>
      have hc : ∀ e ∈ d :: r, c.precedes e := by
        simp only [List.mem_cons, forall_eq_or_imp]
        exact ⟨hcd, fun e he => Node.precedes_trans hcd (hdr e he)⟩
      obtain ⟨rfl, hq'⟩ := eq_of_perm_of_precedes hq ha hc
      obtain ⟨rfl, hr⟩ := eq_of_perm_of_precedes hq' hb hdr
      exact hm.perm (hr.symm.cons _)
  · exact .merge next _ q a b n (List.Perm.refl _) (ha b List.mem_cons_self) hb

/-! ### The merge loop -/

/-- With fuel for every merge, the merge loop ends in a root exactly when the rules reach it. -/
theorem mergeLoop_eq_singleton_iff {fuel next : Nat} {q : List Node} {n : Node}
    (h : QueueOk next q) (hne : q ≠ []) (hf : q.length ≤ fuel + 1) :
    mergeLoop fuel next q = [n] ↔ Merges next q n := by
  induction fuel generalizing next q with
  | zero =>
    obtain ⟨m, rfl⟩ := List.length_eq_one_iff.mp (mergeLoop_length 0 next q hne hf)
    simp [mergeLoop, merges_singleton_iff]
  | succ fuel ih =>
    match q, h, hf with
    | [m], _, _ => simp [mergeLoop, merges_singleton_iff]
    | a :: b :: q, h, hf =>
      have hp := enqueue_perm (mergeNode a b next) q
      have hlen : (enqueue (mergeNode a b next) q).length ≤ fuel + 1 := by simpa using hf
      have hne' : enqueue (mergeNode a b next) q ≠ [] := fun h0 => by simp [h0] at hp
      rw [mergeLoop, ih h.merge hne' hlen, merges_cons_cons_iff h.ordered]
      exact ⟨fun hm => hm.perm hp, fun hm => hm.perm hp.symm⟩

theorem mergeTree_eq_singleton_iff {fs : List FreqEntry} (hne : fs ≠ []) (n : Node) :
    mergeTree fs = [n] ↔ Merges fs.length (leavesFrom 0 fs) n := by
  have hp := initialQueue_perm fs
  have hlen : (initialQueue fs).length = fs.length := by simpa using hp.length_eq
  have hq : initialQueue fs ≠ [] := by
    rw [← List.length_pos_iff, hlen, List.length_pos_iff]
    exact hne
  rw [mergeTree, mergeLoop_eq_singleton_iff (initialQueue_ok fs) hq (by omega)]
  exact ⟨fun hm => hm.perm hp, fun hm => hm.perm hp.symm⟩

/-- Settles O41: `mergeTree` ends in exactly the roots the rules reach, and it is a function. -/
theorem mergeRemovesTheTwoLeastNodes : Obligations.MergeRemovesTheTwoLeastNodes := by
  intro fs hne
  obtain ⟨root, hroot, -, -⟩ := mergeTree_spec fs hne
  refine ⟨root, hroot, (mergeTree_eq_singleton_iff hne root).mp hroot, fun other hother => ?_⟩
  have := (mergeTree_eq_singleton_iff hne other).mpr hother
  rw [hroot] at this
  exact (List.cons.inj this).1.symm

end Sys2Proof.Machine
end

section
/-! The frequency list (R132, R133) and the one tree over its entries (R137). -/

namespace Sys2Proof.Machine

/-! ### The frequency list -/

/-- Settles O38: the sort is stable, and it starts from the order of first occurrence. -/
theorem frequencyListIsSortedCount : Obligations.FrequencyListIsSortedCount := by
  intro xs
  refine ⟨fun f hf => mem_countSymbols.mp hf,
    fun x hx => ⟨⟨x, xs.count x⟩, mem_countSymbols.mpr ⟨hx, rfl⟩, rfl⟩, ?_⟩
  have hne : (countSymbols xs).Pairwise (fun e f => e.sym ≠ f.sym) :=
    List.pairwise_map.mp (nodup_countSymbols_syms xs)
  have hfirst : ((distinct xs).map (fun x => (⟨x, xs.count x⟩ : FreqEntry))).Pairwise
      (fun e f => xs.idxOf e.sym < xs.idxOf f.sym) :=
    List.pairwise_map.mpr (distinct_firstOccurrence xs)
  exact hne.and (sortFreq_ordered _ _ hfirst)

theorem sum_map_distinct {M : Type} [AddCommMonoid M] (xs : List Symbol) (g : Symbol → M) :
    ((distinct xs).map g).sum = ∑ x ∈ xs.toFinset, g x := by
  have hset : (distinct xs).toFinset = xs.toFinset := by
    ext x
    simp
  rw [← hset, List.sum_toFinset _ (nodup_distinct xs)]

theorem sum_map_countSymbols {M : Type} [AddCommMonoid M] (xs : List Symbol) (g : FreqEntry → M) :
    ((countSymbols xs).map g).sum = ((distinct xs).map (fun x => g ⟨x, xs.count x⟩)).sum := by
  rw [((countSymbols_perm xs).map g).sum_eq, List.map_map]
  rfl

/-- A sum over a sequence takes each distinct symbol's value as often as the symbol occurs. -/
theorem sum_map_eq_sum_distinct (xs : List Symbol) (f : Symbol → Nat) :
    (xs.map f).sum = ((distinct xs).map (fun x => xs.count x * f x)).sum := by
  rw [sum_map_distinct, Finset.sum_list_map_count]
  rfl

theorem sum_counts (xs : List Symbol) :
    ((countSymbols xs).map FreqEntry.count).sum = xs.length := by
  rw [sum_map_countSymbols]
  simpa using (sum_map_eq_sum_distinct xs (fun _ => 1)).symm

theorem countSymbols_eq_nil_iff (xs : List Symbol) : countSymbols xs = [] ↔ xs = [] := by
  rw [← List.length_eq_zero_iff, length_countSymbols, length_distinct, Finset.card_eq_zero,
    List.toFinset_eq_empty_iff]

/-- Settles O39: the entries are the distinct symbols with their numbers of occurrences. -/
theorem frequenciesPartitionTheInput : Obligations.FrequenciesPartitionTheInput := by
  intro xs n hn
  refine ⟨fun f hf => ?_, sum_counts xs, ?_, countSymbols_eq_nil_iff xs⟩
  · obtain ⟨hmem, hcount⟩ := mem_countSymbols.mp hf
    rw [hcount]
    exact List.count_pos_iff.mpr hmem
  · rw [length_countSymbols]
    exact le_min (length_distinct xs ▸ List.toFinset_card_le xs) (distinct_length_le hn)

/-! ### The tree -/

/-- Settles O40: the size follows from the number of leaves, the weight from the sum of counts. -/
theorem mergeEndsInOneTree : Obligations.MergeEndsInOneTree := by
  intro xs hk
  have hne : countSymbols xs ≠ [] := fun h0 => by
    rw [(countSymbols_eq_nil_iff xs).mp h0] at hk
    simp at hk
  obtain ⟨root, hroot, hweighted, hleaves⟩ := mergeTree_spec _ hne
  refine ⟨root, hroot, hleaves, ?_, hweighted, ?_⟩
  · have hlen : root.leaves.length = xs.toFinset.card := by
      simpa [length_distinct] using hleaves.length_eq
    have := root.size_eq
    omega
  · rw [Node.weight_eq_sum hweighted, (hleaves.map Prod.snd).sum_eq, List.map_map]
    exact sum_counts xs

end Sys2Proof.Machine
end

section
/-! The code of `BUILD` is optimal (R140): the lengths of a `PrefixCode` have a Kraft sum of at most
1, and no such lengths cost less than the merged tree. -/

namespace Sys2Proof.Machine

/-! ### Prefix codes -/

/-- Words none of which is empty or begins another are read back one by one from the front. -/
theorem uniquelyDecodable_of_prefixFree {S : Set Bits} (hne : [] ∉ S)
    (hS : ∀ u ∈ S, ∀ v ∈ S, u <+: v → u = v) : InformationTheory.UniquelyDecodable S := by
  intro us
  induction us with
  | nil =>
    intro vs _ hvs heq
    cases vs with
    | nil => rfl
    | cons v vs =>
      obtain ⟨rfl, -⟩ := List.append_eq_nil_iff.mp heq.symm
      exact absurd (hvs _ List.mem_cons_self) hne
  | cons u us ih =>
    intro vs hus hvs heq
    obtain ⟨hu, hus⟩ := List.forall_mem_cons.mp hus
    cases vs with
    | nil =>
      obtain ⟨rfl, -⟩ := List.append_eq_nil_iff.mp heq
      exact absurd hu hne
    | cons v vs =>
      obtain ⟨hv, hvs'⟩ := List.forall_mem_cons.mp hvs
      rw [List.flatten_cons, List.flatten_cons] at heq
      have huv : u = v := by
        rcases List.prefix_or_prefix_of_prefix (List.prefix_append u us.flatten)
          (heq ▸ List.prefix_append v vs.flatten) with h | h
        · exact hS u hu v hv h
        · exact (hS v hv u hu h).symm
      subst huv
      rw [ih vs hus hvs' (List.append_cancel_left heq)]

/-- Kraft's inequality: the words of distinct symbols are distinct, and uniquely decodable. -/
theorem PrefixCode.kraft_le {xs : List Symbol} {code : Symbol → Bits} (h : PrefixCode xs code)
    (hne : ∀ x ∈ xs, code x ≠ []) :
    ∑ x ∈ xs.toFinset, (1 / 2 : ℚ) ^ (code x).length ≤ 1 := by
  have hud : InformationTheory.UniquelyDecodable
      ((xs.toFinset.image code : Finset Bits) : Set Bits) :=
    uniquelyDecodable_of_prefixFree (by simpa using hne) (by
      simp only [Finset.coe_image, Set.mem_image, Finset.mem_coe, List.mem_toFinset]
      rintro _ ⟨x, hx, rfl⟩ _ ⟨y, hy, rfl⟩ hxy
      rw [h x hx y hy hxy])
  have hinj : Set.InjOn code xs.toFinset := fun x hx y hy heq =>
    h x (by simpa using hx) y (by simpa using hy) (heq ▸ List.prefix_rfl)
  have hk := InformationTheory.kraft_mcmillan_inequality hud
  rw [Finset.sum_image hinj, Fintype.card_bool] at hk
  have hcast : ((∑ x ∈ xs.toFinset, (1 / 2 : ℚ) ^ (code x).length : ℚ) : ℝ) ≤ 1 := by
    push_cast at hk ⊢
    exact hk
  exact_mod_cast hcast

/-! ### The code of a `BUILD` -/

/-- What a sequence takes with the codes of its `BUILD`. -/
def buildCost (xs : List Symbol) : Nat :=
  ((buildCodes xs).map (fun c => xs.count c.1 * c.2.length)).sum

theorem weightedLength_eq_buildCost {xs : List Symbol} {code : Symbol → Bits}
    (h : ∀ c ∈ buildCodes xs, code c.1 = c.2) : weightedLength xs code = buildCost xs := by
  have hcodes := (buildCodes_spec xs).1.map (fun x => xs.count x * (code x).length)
  calc weightedLength xs code
      = ((distinct xs).map (fun x => xs.count x * (code x).length)).sum :=
        sum_map_eq_sum_distinct xs (fun x => (code x).length)
    _ = ((buildCodes xs).map (fun c => xs.count c.1 * (code c.1).length)).sum := by
        rw [← hcodes.sum_eq, List.map_map]
        rfl
    _ = buildCost xs := congrArg List.sum (List.map_congr_left fun c hc => by rw [h c hc])

theorem length_le_weightedLength {xs : List Symbol} {code : Symbol → Bits}
    (hne : ∀ x ∈ xs, code x ≠ []) : xs.length ≤ weightedLength xs code := by
  rw [weightedLength, ← List.length_map (f := fun x => (code x).length)]
  refine List.length_le_sum_of_one_le _ (fun n hn => ?_)
  obtain ⟨x, hx, rfl⟩ := List.mem_map.mp hn
  exact List.length_pos_of_ne_nil (hne x hx)

/-- The weighted path lengths of the tree are its cost, which no `PrefixCode` undercuts. -/
theorem paths_cost_le_weightedLength {xs : List Symbol} {root : Node} {code : Symbol → Bits}
    (hroot : mergeTree (countSymbols xs) = [root]) (hweighted : root.weighted)
    (hleaves : root.leaves.Perm ((countSymbols xs).map (fun f => (f.sym, f.count))))
    (h : PrefixCode xs code) (hne : ∀ x ∈ xs, code x ≠ []) :
    ((root.paths []).map (fun c => xs.count c.1 * c.2.length)).sum ≤ weightedLength xs code := by
  have hv : ∀ c ∈ root.leaves, xs.count c.1 = c.2 := fun c hc => by
    obtain ⟨f, hf, rfl⟩ := List.mem_map.mp (hleaves.mem_iff.mp hc)
    exact (mem_countSymbols.mp hf).2.symm
  have hkraft : ((countSymbols xs).map (fun e => (1 / 2 : ℚ) ^ (code e.sym).length)).sum ≤ 1 := by
    rw [sum_map_countSymbols, sum_map_distinct]
    exact h.kraft_le hne
  calc ((root.paths []).map (fun c => xs.count c.1 * c.2.length)).sum
      = root.cost := by simpa using Node.paths_cost hweighted xs.count hv []
    _ ≤ ((countSymbols xs).map (fun e => e.count * (code e.sym).length)).sum :=
        mergeTree_cost_le hroot (fun x => (code x).length) hkraft
    _ = weightedLength xs code := by
        rw [sum_map_countSymbols]
        exact (sum_map_eq_sum_distinct xs (fun x => (code x).length)).symm

theorem buildCost_le_weightedLength {xs : List Symbol} {code : Symbol → Bits}
    (h : PrefixCode xs code) (hne : ∀ x ∈ xs, code x ≠ []) :
    buildCost xs ≤ weightedLength xs code := by
  unfold buildCost
  rcases buildCodes_cases xs with ⟨-, hb⟩ | ⟨x, -, hb⟩ | ⟨root, -, hb, hweighted, hroot, hleaves⟩
  · simp [hb]
  · have hcount : xs.count x ≤ xs.length := List.count_le_length
    simpa [hb] using hcount.trans (length_le_weightedLength hne)
  · rw [hb]
    exact paths_cost_le_weightedLength hroot hweighted hleaves h hne

/-- Settles O43: the code table holds `buildCodes`, whose cost no `PrefixCode` undercuts. -/
theorem builtCodeIsOptimal : Obligations.BuiltCodeIsOptimal := by
  intro s t xs code hc hlen hle hholds hx hexec hprefix hne
  have ht : buildResult s xs = t := by
    simpa [exec, execBuild_of_holds hlen.symm hle hholds] using hexec
  subst ht
  rw [weightedLength_eq_buildCost fun c hmem => by
    rw [(buildResult_codeOf s xs (maxCodeLength_le hc hx) c.1 c.2).mpr hmem, Option.getD_some]]
  exact buildCost_le_weightedLength hprefix hne

end Sys2Proof.Machine
end

section
/-! The length check of `BUILD` (R131). -/

namespace Sys2Proof.Machine

/-- Settles O31: the check comes first, and its failure is the completion alone. -/
theorem buildLengthCheck : Obligations.BuildLengthCheck :=
  fun _ h => execBuild_of_length h

end Sys2Proof.Machine
end

section
/-! What every `BUILD` leaves (R150, R153 to R155, R157): the entries of its table are the codes of
`buildCodes`, which the operand alone determines. -/

namespace Sys2Proof.Machine

/-! ### The outcome and the entries -/

/-- A `BUILD` of an operand that is there has one outcome. -/
theorem eq_buildResult_of_exec {s t : State} {xs : List Symbol} (hlen : xs.length = s.nIn)
    (hle : s.nIn ≤ s.cfg.nMax) (hholds : Memory.holds s.sym xs) (h : exec .build s = .next t) :
    t = buildResult s xs := by
  cases (execBuild_of_holds hlen.symm hle hholds).symm.trans h
  rfl

/-- Past the length check a `BUILD` that ends with a next state has read its operand. -/
theorem exists_operand_of_exec_build {s t : State} (hle : s.nIn ≤ s.cfg.nMax)
    (h : exec .build s = .next t) :
    ∃ xs : List Symbol, xs.length = s.nIn ∧ Memory.holds s.sym xs ∧ t = buildResult s xs := by
  rcases execBuild_cases s with ⟨hlt, -⟩ | ⟨-, i, -, -, hfault⟩ | ⟨-, xs, hlen, hholds, -⟩
  · omega
  · cases hfault.symm.trans h
  · exact ⟨xs, hlen, hholds, eq_buildResult_of_exec hlen hle hholds h⟩

theorem buildResult_ctEntry (s : State) (xs : List Symbol) (x : Symbol) (e : CodeEntry) :
    (buildResult s xs).ctEntry x = some e ↔
      ∃ p, (x, p) ∈ buildCodes xs ∧ e = CodeEntry.ofPath p :=
  codeTable_read _ (buildCodes_nodup xs) x e

theorem buildResult_ctEntry_isSome (s : State) (xs : List Symbol) (x : Symbol) :
    ((buildResult s xs).ctEntry x).isSome = true ↔ x ∈ xs := by
  simp only [Option.isSome_iff_exists, buildResult_ctEntry, ← exists_buildCodes_iff]
  constructor
  · rintro ⟨-, p, hp, -⟩
    exact ⟨p, hp⟩
  · rintro ⟨p, hp⟩
    exact ⟨_, p, hp, rfl⟩

theorem buildResult_itLookup (s : State) (xs : List Symbol) (c : Bits) (x : Symbol) :
    itLookup (buildResult s xs).it c = some x ↔ (x, c) ∈ buildCodes xs :=
  inverseTable_lookup _ (buildCodes_spec xs).2.1 c x

/-- Settles O32: `buildResult` is the next state, and the symbols with an entry are those of
`buildCodes`. -/
theorem buildCompletes : Obligations.BuildCompletes := by
  intro s xs hc hlen hle hholds hx
  exact ⟨buildResult s xs, execBuild_of_holds hlen.symm hle hholds, buildResult_eq s xs,
    (buildResult_tables hc hx).nsymCount.trans (buildResult_ct_length s xs),
    buildResult_ctEntry_isSome s xs⟩

/-- Settles O42: both machines read one operand, and the tables of `buildResult` name no other part
of the state. -/
theorem buildForgetsEarlierTables : Obligations.BuildForgetsEarlierTables := by
  intro s s' t t' hn hle hle' hsym hexec hexec'
  obtain ⟨xs, hlen, hholds, rfl⟩ := exists_operand_of_exec_build hle hexec
  have hholds' : Memory.holds s'.sym xs := fun i hi =>
    (hsym i (hlen ▸ hi)).symm.trans (hholds i hi)
  obtain rfl := eq_buildResult_of_exec (hlen.trans hn) hle' hholds' hexec'
  exact ⟨rfl, rfl, rfl⟩

/-! ### One distinct symbol, and none -/

theorem distinct_eq_singleton {xs : List Symbol} {x : Symbol} (hne : xs ≠ [])
    (h : ∀ y ∈ xs, y = x) : distinct xs = [x] := by
  have hmem : ∀ y, y ∈ xs ↔ y = x := by
    obtain ⟨z, hz⟩ := List.exists_mem_of_ne_nil xs hne
    obtain rfl := h z hz
    exact fun y => ⟨h y, fun hy => hy ▸ hz⟩
  refine List.perm_singleton.mp
    ((List.perm_ext_iff_of_nodup (nodup_distinct xs) (List.nodup_singleton x)).mpr fun y => ?_)
  rw [mem_distinct, hmem, List.mem_singleton]

theorem buildCodes_of_distinct_singleton {xs : List Symbol} {x : Symbol} (h : distinct xs = [x]) :
    buildCodes xs = [(x, [false])] := by
  rcases buildCodes_cases xs with ⟨rfl, -⟩ | ⟨y, hy, hb⟩ | ⟨root, hk, -⟩
  · simp [distinct] at h
  · obtain rfl : x = y := by simpa [h] using hy
    exact hb
  · simp [h] at hk

/-- Settles O35: the codes are `[(x, "0")]`, or none. -/
theorem singleSymbolAndEmptyBuild : Obligations.SingleSymbolAndEmptyBuild := by
  intro s xs hlen hle hholds
  have hexec : exec .build s = .next (buildResult s xs) :=
    execBuild_of_holds hlen.symm hle hholds
  constructor
  · intro x hne hall
    have hd := distinct_eq_singleton hne hall
    have hb := buildCodes_of_distinct_singleton hd
    refine ⟨_, hexec, ?_, fun y hy => ?_, fun c y => ?_, ?_⟩
    · exact (buildResult_ctEntry s xs x _).mpr ⟨[false], by simp [hb], rfl⟩
    · refine Option.eq_none_iff_forall_ne_some.mpr fun e he => ?_
      obtain ⟨p, hp, -⟩ := (buildResult_ctEntry s xs y e).mp he
      simp [hb, hy] at hp
    · rw [buildResult_itLookup, hb, List.mem_singleton, Prod.mk.injEq, and_comm]
    · rw [buildResult_nsym, hd]
      rfl
  · rintro rfl
    exact ⟨_, hexec, fun _ => rfl, fun _ => rfl, rfl, rfl⟩

/-! ### The lengths of codes -/

/-- What an entry stores after a `BUILD` of symbols of the configured width. -/
theorem exists_code_of_ctEntry {s : State} {xs : List Symbol} (hc : s.cfg.wf = true)
    (hx : ∀ x ∈ xs, x.toNat < s.cfg.kMax) {x : Symbol} {e : CodeEntry}
    (h : (buildResult s xs).ctEntry x = some e) :
    ∃ p, (x, p) ∈ buildCodes xs ∧ e = CodeEntry.ofPath p ∧ e.len.toNat = p.length ∧
      p.length ≤ 4095 := by
  obtain ⟨p, hp, rfl⟩ := (buildResult_ctEntry s xs x e).mp h
  have hp' : p.length ≤ 4095 := ((buildCodes_spec xs).2.2 _ hp).2.trans (maxCodeLength_le hc hx)
  exact ⟨p, hp, rfl, CodeEntry.len_ofPath p hp', hp'⟩

/-- Settles O37: a code is at most one edge shorter than there are leaves, and there are at most
`K_MAX` symbols. -/
theorem codeLengthsAreBounded : Obligations.CodeLengthsAreBounded := by
  intro s t xs hc hlen hle hholds hx hexec x e he
  obtain rfl := eq_buildResult_of_exec hlen hle hholds hexec
  obtain ⟨p, hp, -, hep, -⟩ := exists_code_of_ctEntry hc hx he
  obtain ⟨h1, h2⟩ : 1 ≤ p.length ∧ p.length ≤ max 1 ((distinct xs).length - 1) :=
    (buildCodes_spec xs).2.2 _ hp
  have hk := distinct_length_le hx
  rw [length_distinct] at h2 hk
  have hL : max 1 (xs.toFinset.card - 1) ≤ s.cfg.lMax := max_le_max_left 1 (by omega)
  exact ⟨by omega, by omega, fun _ => by omega, fun _ => by omega⟩

end Sys2Proof.Machine
end

section
/-! The codes of a `BUILD` of at least two distinct symbols (R151, R152, R156): they are the paths of
the merged tree, and every path of edges from its root reaches one leaf. -/

namespace Sys2Proof.Machine

/-! ### The paths of a tree -/

/-- The paths listed below a node are those that lead from it to a leaf. -/
theorem Node.mem_paths_iff {n : Node} {p c : Bits} {x : Symbol} :
    (x, c) ∈ n.paths p ↔ ∃ q, c = p ++ q ∧ n.follow q = some x := by
  induction n generalizing p with
  | leaf y =>
    simp only [Node.paths, List.mem_singleton, Prod.mk.injEq]
    constructor
    · rintro ⟨rfl, rfl⟩
      exact ⟨[], (List.append_nil _).symm, rfl⟩
    · rintro ⟨_ | ⟨b, q⟩, rfl, hf⟩
      · exact ⟨(Option.some.inj hf).symm, List.append_nil p⟩
      · cases hf
  | internal l r _ _ ihl ihr =>
    simp only [Node.paths, List.mem_append, ihl, ihr, List.append_assoc, List.singleton_append]
    constructor
    · rintro (⟨q, rfl, hf⟩ | ⟨q, rfl, hf⟩)
      · exact ⟨false :: q, rfl, hf⟩
      · exact ⟨true :: q, rfl, hf⟩
    · rintro ⟨_ | ⟨_ | _, q⟩, rfl, hf⟩
      · cases hf
      · exact .inl ⟨q, rfl, hf⟩
      · exact .inr ⟨q, rfl, hf⟩

theorem Node.mem_paths_nil_iff {n : Node} {c : Bits} {x : Symbol} :
    (x, c) ∈ n.paths [] ↔ n.follow c = some x := by
  simp [Node.mem_paths_iff]

theorem buildCodes_of_two_le {xs : List Symbol} (hk : 2 ≤ xs.toFinset.card) :
    ∃ root, mergeTree (countSymbols xs) = [root] ∧ buildCodes xs = root.paths [] := by
  rw [← length_distinct] at hk
  rcases buildCodes_cases xs with ⟨rfl, -⟩ | ⟨x, hx, -⟩ | ⟨root, -, hb, -, hroot, -⟩
  · simp [distinct] at hk
  · simp [hx] at hk
  · exact ⟨root, hroot, hb⟩

/-- Settles O36: both tables hold the paths of the merged tree, and an entry's `CODE` has no digit
behind its path. -/
theorem codesAreTreePaths : Obligations.CodesAreTreePaths := by
  intro s t xs hc hlen hle hholds hx hk hexec
  obtain rfl := eq_buildResult_of_exec hlen hle hholds hexec
  obtain ⟨root, hroot, hb⟩ := buildCodes_of_two_le hk
  refine ⟨root, hroot, fun x c => ?_, fun x c => ?_, fun x e j he hj => ?_⟩
  · rw [buildResult_codeOf s xs (maxCodeLength_le hc hx), hb, Node.mem_paths_nil_iff]
  · rw [buildResult_itLookup, hb, Node.mem_paths_nil_iff]
  · obtain ⟨p, -, rfl, hep, hp⟩ := exists_code_of_ctEntry hc hx he
    rw [CodeEntry.code_ofPath p hp, List.getD_eq_default _ _ (hep ▸ hj)]

/-! ### The code is complete -/

/-- The Kraft sum of the codes is that of the paths from the root. -/
theorem kraft_eq_one {xs : List Symbol} {code : Symbol → Bits}
    (hcode : ∀ c ∈ buildCodes xs, code c.1 = c.2) (hk : 2 ≤ xs.toFinset.card) :
    ∑ x ∈ xs.toFinset, (1 / 2 : ℚ) ^ (code x).length = 1 := by
  obtain ⟨root, -, hb⟩ := buildCodes_of_two_le hk
  have hperm := (buildCodes_spec xs).1.map (fun x => (1 / 2 : ℚ) ^ (code x).length)
  calc ∑ x ∈ xs.toFinset, (1 / 2 : ℚ) ^ (code x).length
      = ((distinct xs).map (fun x => (1 / 2 : ℚ) ^ (code x).length)).sum :=
        (sum_map_distinct xs _).symm
    _ = ((buildCodes xs).map (fun c => (1 / 2 : ℚ) ^ (code c.1).length)).sum := by
        rw [← hperm.sum_eq, List.map_map]
        rfl
    _ = ((root.paths []).map (fun c => (1 / 2 : ℚ) ^ c.2.length)).sum := by
        rw [← hb]
        exact congrArg List.sum (List.map_congr_left fun c hc => by rw [hcode c hc])
    _ = 1 := by simpa using root.paths_kraft []

/-- A word begins an infinite sequence exactly when it begins any long enough piece of it. -/
theorem prefix_map_range_iff {f : Nat → Bool} {p : Bits} {n : Nat} (hn : p.length ≤ n) :
    p <+: (List.range n).map f ↔ ∀ j, j < p.length → p[j]? = some (f j) := by
  rw [List.prefix_iff_getElem?]
  refine forall₂_congr fun j hj => ?_
  have hjn : j < n := hj.trans_le hn
  simp [hj, hjn, eq_comm]

/-- Two codes that begin the same infinite sequence are codes of one symbol. -/
theorem TablesOk.eq_of_sequence {t : State} (h : TablesOk t) {f : Nat → Bool} {x y : Symbol}
    {p q : Bits} (hx : t.codeOf x = some p) (hy : t.codeOf y = some q)
    (hp : ∀ j, j < p.length → p[j]? = some (f j))
    (hq : ∀ j, j < q.length → q[j]? = some (f j)) : x = y := by
  have hp' := (prefix_map_range_iff (le_max_left p.length q.length)).mpr hp
  have hq' := (prefix_map_range_iff (le_max_right p.length q.length)).mpr hq
  rcases List.prefix_or_prefix_of_prefix hp' hq' with hpq | hqp
  · exact h.prefixFree x y p q hx hy hpq
  · exact (h.prefixFree y x q p hy hx hqp).symm

/-- Going down the edges an infinite sequence names ends at a leaf. -/
theorem Node.exists_path_of_sequence (n : Node) (f : Nat → Bool) :
    ∃ c ∈ n.paths [], ∀ j, j < c.2.length → c.2[j]? = some (f j) := by
  obtain ⟨c, hc, hp⟩ := n.paths_complete [] ((List.range n.leaves.length).map f) (by simp)
  have hlen : c.2.length ≤ n.leaves.length := by simpa using hp.length_le
  exact ⟨c, hc, (prefix_map_range_iff hlen).mp hp⟩

/-- Settles O34: the codes are the paths of a tree without a missing edge, and apart. -/
theorem builtCodeIsComplete : Obligations.BuiltCodeIsComplete := by
  intro s t xs hc hlen hle hholds hx hk hexec
  obtain rfl := eq_buildResult_of_exec hlen hle hholds hexec
  have htables : TablesOk (buildResult s xs) := buildResult_tables hc hx
  have hcode := buildResult_codeOf s xs (maxCodeLength_le hc hx)
  refine ⟨kraft_eq_one (fun c hmem => ?_) hk, fun f => ?_⟩
  · rw [(hcode c.1 c.2).mpr hmem, Option.getD_some]
  · obtain ⟨root, -, hb⟩ := buildCodes_of_two_le hk
    obtain ⟨⟨x, p⟩, hmem, hp⟩ := root.exists_path_of_sequence f
    have hxp := (hcode x p).mpr (hb ▸ hmem)
    refine ⟨x, ⟨p, hxp, hp⟩, ?_⟩
    rintro y ⟨q, hyq, hq⟩
    exact htables.eq_of_sequence hyq hxp hq hp

end Sys2Proof.Machine
end

section
/-! More frequent symbols have codes that are not longer (R158): exchanging two codes gives another
prefix code, and the built one is optimal. -/

namespace Sys2Proof.Machine

/-- The codes of a codec state are a prefix code of the symbols that have one. -/
theorem TablesOk.prefixCode {t : State} {xs : List Symbol} (h : TablesOk t) (hx : t.allCoded xs) :
    PrefixCode xs (fun x => (t.codeOf x).getD []) := by
  intro x hxs y hys hxy
  obtain ⟨p, hp⟩ := State.codeOf_of_isSome (hx x hxs)
  obtain ⟨q, hq⟩ := State.codeOf_of_isSome (hx y hys)
  simp only [hp, hq, Option.getD_some] at hxy
  exact h.prefixFree x y p q hp hq hxy

theorem TablesOk.code_ne_nil {t : State} {xs : List Symbol} (h : TablesOk t) (hx : t.allCoded xs)
    {x : Symbol} (hxs : x ∈ xs) : (t.codeOf x).getD [] ≠ [] := by
  obtain ⟨p, hp⟩ := State.codeOf_of_isSome (hx x hxs)
  rw [hp, Option.getD_some]
  exact List.ne_nil_of_length_pos (h.code_length hp).1

theorem swap_mem {xs : List Symbol} {x y z : Symbol} (hx : x ∈ xs) (hy : y ∈ xs) (hz : z ∈ xs) :
    Equiv.swap x y z ∈ xs := by
  rw [Equiv.swap_apply_def]
  split_ifs
  · exact hy
  · exact hx
  · exact hz

/-- Exchanging the codes of two symbols of the sequence keeps a prefix code. -/
theorem PrefixCode.swap {xs : List Symbol} {code : Symbol → Bits} (h : PrefixCode xs code)
    {x y : Symbol} (hx : x ∈ xs) (hy : y ∈ xs) :
    PrefixCode xs (fun z => code (Equiv.swap x y z)) :=
  fun _ hu _ hv huv => (Equiv.swap x y).injective
    (h _ (swap_mem hx hy hu) _ (swap_mem hx hy hv) huv)

/-- What exchanging two codes does to the number of bits a sequence takes. -/
theorem weightedLength_swap (xs : List Symbol) (code : Symbol → Bits) {x y : Symbol} (hne : x ≠ y) :
    weightedLength xs (fun z => code (Equiv.swap x y z)) +
        (xs.count x * (code x).length + xs.count y * (code y).length) =
      weightedLength xs code +
        (xs.count x * (code y).length + xs.count y * (code x).length) := by
  induction xs with
  | nil => simp [weightedLength]
  | cons z xs ih =>
    simp only [weightedLength, List.map_cons, List.sum_cons] at ih ⊢
    rcases eq_or_ne z x with rfl | hzx
    · simp only [Equiv.swap_apply_left, List.count_cons_self, List.count_cons_of_ne hne]
      linarith
    · rcases eq_or_ne z y with rfl | hzy
      · simp only [Equiv.swap_apply_right, List.count_cons_self, List.count_cons_of_ne hzx]
        linarith
      · simp only [Equiv.swap_apply_of_ne_of_ne hzx hzy, List.count_cons_of_ne hzx,
          List.count_cons_of_ne hzy]
        linarith

/-- In a code that no exchange of `x` and `y` improves, the more frequent one's is not longer. -/
theorem length_le_of_weightedLength_le_swap {xs : List Symbol} {code : Symbol → Bits} {x y : Symbol}
    (hcount : xs.count y < xs.count x)
    (h : weightedLength xs code ≤ weightedLength xs (fun z => code (Equiv.swap x y z))) :
    (code x).length ≤ (code y).length := by
  have hne : x ≠ y := fun heq => by simp [heq] at hcount
  have hswap := weightedLength_swap xs code hne
  by_contra hlt
  have hgain := mul_add_mul_lt_mul_add_mul hcount (not_le.mp hlt)
  omega

/-- Settles O44: were the code longer, the exchanged code would undercut the optimal one. -/
theorem moreFrequentSymbolsHaveShorterCodes : Obligations.MoreFrequentSymbolsHaveShorterCodes := by
  intro s t xs hc hlen hle hholds hx hexec x y c d hxc hyd hcount
  obtain rfl := eq_buildResult_of_exec hlen hle hholds hexec
  have htables : TablesOk (buildResult s xs) := buildResult_tables hc hx
  have hcoded : (buildResult s xs).allCoded xs := fun z =>
    (buildResult_ctEntry_isSome s xs z).mpr
  have hmem : ∀ z p, (buildResult s xs).codeOf z = some p → z ∈ xs := fun z p hz =>
    (exists_buildCodes_iff xs z).mp
      ⟨p, (buildResult_codeOf s xs (maxCodeLength_le hc hx) z p).mp hz⟩
  have hxs := hmem x c hxc
  have hys := hmem y d hyd
  have hopt := builtCodeIsOptimal s _ xs _ hc hlen hle hholds hx hexec
    ((htables.prefixCode hcoded).swap hxs hys)
    (fun z hz => htables.code_ne_nil hcoded (swap_mem hxs hys hz))
  simpa [hxc, hyd] using length_le_of_weightedLength_le_swap hcount hopt

end Sys2Proof.Machine
end

section
/-! The checks of the commands come before their data (R131, R171, R192, R216, R217). -/

namespace Sys2Proof.Machine

/-- Settles O45: the next state of each failed check is the bare completion. -/
theorem prechecksLeaveEverythingUnchanged : Obligations.PrechecksLeaveEverythingUnchanged := by
  intro s
  refine ⟨?_, execEncode_of_length, execDecode_of_length, execBuild_of_length⟩
  rintro hb i (rfl | rfl)
  · exact execEncode_of_not_built hb
  · exact execDecode_of_not_built hb

end Sys2Proof.Machine
end

section
/-! What `ENCODE` leaves of an operand that begins with symbols whose codes fit (R170 to R174, R213,
R218): the loop emits their codes and goes on with what follows them, the end or a bad symbol. -/

namespace Sys2Proof.Machine

/-! ### Encodings and operands -/

theorem State.encoding_append (s : State) (xs ys : List Symbol) :
    s.encoding (xs ++ ys) = s.encoding xs ++ s.encoding ys :=
  List.flatMap_append

theorem State.length_encoding (s : State) (xs : List Symbol) :
    (s.encoding xs).length = (xs.map (fun x => ((s.codeOf x).getD []).length)).sum :=
  List.length_flatMap

theorem State.encoding_singleton (s : State) (x : Symbol) :
    s.encoding [x] = (s.codeOf x).getD [] :=
  List.flatMap_singleton _ x

/-- The operand begins with the symbols that `SYM` holds, when there are no more than `n_in`. -/
theorem State.exists_symOperand_eq_append {s : State} {xs : List Symbol}
    (h : Memory.holds s.sym xs) (hn : xs.length ≤ s.nIn) :
    ∃ l, s.symOperand = xs.map some ++ l := by
  obtain ⟨k, hk⟩ := Nat.exists_eq_add_of_le hn
  refine ⟨((List.range k).map (xs.length + ·)).map (Memory.read s.sym), ?_⟩
  rw [← (Memory.seq_eq_iff s.sym xs).mpr h, State.symOperand, hk, Memory.seq, List.range_add,
    List.map_append, Memory.seq]

/-! ### The symbol loop -/

/-- Over coded symbols that fit the loop emits their codes, and then what it emits behind them. -/
theorem encodeLoop_encoding {s : State} {bMax : Nat} {ys : List Symbol} {l : List (Option Symbol)}
    {i pos : Nat} {r : Encoded} (hcoded : s.allCoded ys)
    (hfit : pos + (s.encoding ys).length ≤ bMax)
    (hr : encodeLoop bMax s.ct l (i + ys.length) (pos + (s.encoding ys).length) = .ok r) :
    encodeLoop bMax s.ct (ys.map some ++ l) i pos =
      .ok { r with bits := s.encoding ys ++ r.bits } := by
  induction ys generalizing i pos with
  | nil => exact hr
  | cons y ys ih =>
    obtain ⟨hy, hys⟩ := List.forall_mem_cons.mp hcoded
    obtain ⟨e, he⟩ := Option.isSome_iff_exists.mp hy
    have henc : s.encoding (y :: ys) = e.bits ++ s.encoding ys := by
      simp [State.encoding_cons, State.codeOf, he]
    have hlen : (s.encoding (y :: ys)).length = e.len.toNat + (s.encoding ys).length := by
      simp [henc]
    rw [hlen, ← Nat.add_assoc] at hfit hr
    rw [List.length_cons, Nat.add_comm ys.length, ← Nat.add_assoc] at hr
    have hread : Memory.read s.ct y.toNat = some e := he
    have hnot : ¬ pos + e.len.toNat > bMax := by omega
    simp [encodeLoop, hread, hnot, ih hys hfit hr, henc]

/-- At a symbol that is absent or does not fit the loop ends with that error and its index. -/
theorem encodeLoop_bad_symbol {s : State} {bMax pos : Nat} {x : Symbol}
    (h : s.ctEntry x = none ∨ bMax < pos + ((s.codeOf x).getD []).length)
    (l : List (Option Symbol)) (i : Nat) :
    encodeLoop bMax s.ct (some x :: l) i pos =
      .ok { bits := [], code := if s.ctEntry x = none then .unknownSymbol else .overflow,
            info := i } := by
  cases he : s.ctEntry x with
  | none =>
    have hread : Memory.read s.ct x.toNat = none := he
    simp [encodeLoop, hread]
  | some e =>
    have hread : Memory.read s.ct x.toNat = some e := he
    have hover : pos + e.len.toNat > bMax := by simpa [he, State.codeOf] using h
    simp [encodeLoop, hread, hover]

/-! ### The stored bits -/

/-- Bits that fit in `BIT` are stored from its start on, their number in `ENC_LEN`, and the rest of
`BIT` stays. -/
theorem storeEncoded_stores {s : State} {bits : Bits} (hc : s.cfg.wf = true)
    (hw : Memory.wf s.bit) (hfit : bits.length ≤ s.cfg.bMax) :
    (storeEncoded bits s).encLen.toNat = bits.length ∧
      Memory.holds (storeEncoded bits s).bit bits ∧
      ∀ j, bits.length ≤ j → Memory.read (storeEncoded bits s).bit j = Memory.read s.bit j := by
  obtain ⟨-, -, -, -, -, hb⟩ := Config.wf_bounds hc
  exact ⟨toNat_ofNat_of_lt (k := 27) (by omega) (by decide), Memory.holds_writeSeq s.bit hw bits,
    Memory.read_writeSeq_beyond s.bit hw bits⟩

/-! ### The command -/

/-- `ENCODE` of an operand that begins with coded symbols that fit stores their codes and completes
with what the loop meets behind them. -/
theorem execEncode_of_encoding {s : State} {ys : List Symbol} {l : List (Option Symbol)}
    {code : ErrCode} {info : Nat} (hb : s.built = true) (hle : s.nIn ≤ s.cfg.nMax)
    (hl : s.symOperand = ys.map some ++ l) (hcoded : s.allCoded ys)
    (hfit : (s.encoding ys).length ≤ s.cfg.bMax)
    (hend : encodeLoop s.cfg.bMax s.ct l ys.length (s.encoding ys).length =
      .ok { bits := [], code := code, info := info }) :
    execEncode s = .next ((storeEncoded (s.encoding ys) s).complete code info) := by
  rw [← Nat.zero_add ys.length, ← Nat.zero_add (s.encoding ys).length] at hend
  have hloop := encodeLoop_encoding hcoded (by omega) hend
  rw [← hl, List.append_nil] at hloop
  exact execEncode_of_ok hb hle hloop

/-- Settles O46: behind the operand the loop ends without an error. -/
theorem encodeConcatenatesCodes : Obligations.EncodeConcatenatesCodes := by
  intro s xs hc hw hb hlen hle hholds hcoded hfit
  obtain ⟨hencLen, hbits, hrest⟩ := storeEncoded_stores hc hw hfit
  have hoperand : s.symOperand = xs.map some ++ [] := by
    rw [State.symOperand_eq hlen.symm hholds, List.append_nil]
  exact ⟨_, execEncode_of_encoding hb hle hoperand hcoded hfit rfl, rfl, hencLen,
    hencLen.trans (s.length_encoding xs), hbits, hrest⟩

/-- Settles O47: the loop emits the codes of the symbols before and ends at the bad one. -/
theorem encodeStopsAtTheFirstBadSymbol : Obligations.EncodeStopsAtTheFirstBadSymbol := by
  intro s ys x hc hw hb hlt hle hholds hcoded hfit hbad
  obtain ⟨-, -, -, hn, -⟩ := Config.wf_bounds hc
  obtain ⟨hencLen, hbits, hrest⟩ := storeEncoded_stores hc hw hfit
  obtain ⟨l, hl⟩ := State.exists_symOperand_eq_append hholds (by simpa using hlt)
  rw [List.map_append, List.append_assoc] at hl
  rw [State.encoding_append, List.length_append, State.encoding_singleton] at hbad
  exact ⟨_, execEncode_of_encoding hb hle hl hcoded hfit (encodeLoop_bad_symbol hbad l _), rfl,
    toNat_ofNat_of_lt (k := 27) (by omega) (by decide), hencLen, hbits, hrest⟩

end Sys2Proof.Machine
end

section
/-! The bit loop of `DECODE` and what it leaves of its operand (R190 to R195): the symbols before the
candidate are the only ones whose codes come there, and no beginning of the candidate is a code. -/

namespace Sys2Proof.Machine

/-! ### The bit loop -/

/-- Without a match ahead the loop only lengthens its candidate. -/
theorem decodeLoop_of_no_match {it : List (Bits × Symbol)} {cand : Bits}
    (h : ∀ c, c ≠ [] → itLookup it (cand ++ c) = none) (bs : Bits) (i start : Nat) :
    decodeLoop it bs i cand start = { syms := [], cand := cand ++ bs, start := start } := by
  induction bs generalizing cand i with
  | nil => rw [decodeLoop, List.append_nil]
  | cons b bs ih =>
    have hnext : ∀ c, c ≠ [] → itLookup it (cand ++ [b] ++ c) = none := fun c _ => by
      rw [List.append_assoc]
      exact h _ (List.cons_ne_nil b c)
    rw [decodeLoop, h [b] (List.cons_ne_nil b []), ih hnext, List.append_assoc,
      List.singleton_append]

/-- The candidate left at the end has no beginning in the table, when the one at the start has none. -/
theorem decodeLoop_cand_unmatched {it : List (Bits × Symbol)} {cand : Bits}
    (h : ∀ c, c <+: cand → itLookup it c = none) (bs : Bits) (i start : Nat) :
    ∀ c, c <+: (decodeLoop it bs i cand start).cand → itLookup it c = none := by
  induction bs generalizing cand i start with
  | nil => exact h
  | cons b bs ih =>
    cases hl : itLookup it (cand ++ [b]) with
    | some x =>
      rw [decodeLoop, hl]
      refine ih (fun c hc => ?_) (i + 1) (i + 1)
      rw [List.prefix_nil.mp hc]
      exact h [] List.nil_prefix
    | none =>
      rw [decodeLoop, hl]
      refine ih (fun c hc => ?_) (i + 1) start
      rcases List.prefix_concat_iff.mp hc with rfl | hc
      · exact hl
      · exact h c hc

theorem decodeLoop_length_syms_le (it : List (Bits × Symbol)) (bs : Bits) :
    (decodeLoop it bs 0 [] 0).syms.length ≤ bs.length := by
  obtain ⟨-, -, -, -, hlen⟩ := decodeLoop_spec it bs 0 [] 0
  exact hlen

/-! ### Under legal tables -/

theorem TablesOk.length_of_itLookup {s : State} (h : TablesOk s) {c : Bits} {x : Symbol}
    (hx : itLookup s.it c = some x) : 1 ≤ c.length ∧ c.length ≤ s.cfg.lMax :=
  h.code_length ((h.inverse c x).mp hx)

/-- Settles O51: every extension of the candidate is longer than any code. -/
theorem longCandidateIsDead : Obligations.LongCandidateIsDead := by
  intro s bs cand i start h hlong
  have hdead : ∀ c, c ≠ [] → itLookup s.it (cand ++ c) = none := fun c hc => by
    refine Option.eq_none_iff_forall_ne_some.mpr fun x hx => ?_
    obtain ⟨-, hle⟩ := h.length_of_itLookup hx
    have hpos := List.length_pos_of_ne_nil hc
    rw [List.length_append] at hle
    omega
  rw [decodeLoop_of_no_match hdead]
  exact ⟨rfl, rfl, rfl⟩

/-- No beginning of what the loop leaves of any bits is a code. -/
theorem TablesOk.rest_unmatched {s : State} (h : TablesOk s) (bs : Bits) :
    ∀ c, c <+: (decodeLoop s.it bs 0 [] 0).cand → itLookup s.it c = none := by
  refine decodeLoop_cand_unmatched (fun c hc => ?_) bs 0 0
  refine Option.eq_none_iff_forall_ne_some.mpr fun x hx => ?_
  have hpos := (h.length_of_itLookup hx).1
  simp [List.prefix_nil.mp hc] at hpos

/-- Over the codes of `ts` the loop emits `ts` and leaves no candidate. -/
theorem TablesOk.decodeLoop_encoding_eq {s : State} (h : TablesOk s) {ts : List Symbol}
    (hts : s.allCoded ts) : decodeLoop s.it (s.encoding ts) 0 [] 0 =
      { syms := ts, cand := [], start := (s.encoding ts).length } := by
  simpa [decodeLoop] using h.decodeLoop_encoding ts hts [] 0

/-! ### The command -/

/-- Symbols that fit in `OUT` are stored from its start on, their number in `OUT_LEN`, and the rest of
`OUT` stays. -/
theorem storeDecoded_stores {s : State} {d : Decoded} (hc : s.cfg.wf = true)
    (hw : Memory.wf s.out) (hfit : d.syms.length ≤ s.cfg.bMax) :
    (storeDecoded d s).outLen.toNat = d.syms.length ∧
      Memory.holds (storeDecoded d s).out d.syms ∧
      ∀ j, d.syms.length ≤ j → Memory.read (storeDecoded d s).out j = Memory.read s.out j := by
  obtain ⟨-, -, -, -, -, hb⟩ := Config.wf_bounds hc
  exact ⟨toNat_ofNat_of_lt (k := 27) (by omega) (by decide), Memory.holds_writeSeq s.out hw d.syms,
    Memory.read_writeSeq_beyond s.out hw d.syms⟩

/-- `DECODE` of bits of which the loop leaves nothing. -/
theorem execDecode_of_cand_eq_nil {s : State} {bs : Bits} (hb : s.built = true)
    (hn : s.nBits = bs.length) (hle : s.nBits ≤ s.cfg.bMax) (hbits : Memory.holds s.bit bs)
    (hcand : (decodeLoop s.it bs 0 [] 0).cand = []) :
    execDecode s = .next ((storeDecoded (decodeLoop s.it bs 0 [] 0) s).complete .none 0) := by
  rw [execDecode_of_holds hb hn hle hbits, if_pos hcand, if_pos hcand]

/-- `DECODE` of bits of which the loop leaves something. -/
theorem execDecode_of_cand_ne_nil {s : State} {bs : Bits} (hb : s.built = true)
    (hn : s.nBits = bs.length) (hle : s.nBits ≤ s.cfg.bMax) (hbits : Memory.holds s.bit bs)
    (hcand : (decodeLoop s.it bs 0 [] 0).cand ≠ []) :
    execDecode s = .next ((storeDecoded (decodeLoop s.it bs 0 [] 0) s).complete .malformedCode
      (decodeLoop s.it bs 0 [] 0).start) := by
  rw [execDecode_of_holds hb hn hle hbits, if_neg hcand, if_neg hcand]

/-- Settles O48: over an encoding the loop emits its symbols and leaves nothing. -/
theorem decodeInvertsEncoding : Obligations.DecodeInvertsEncoding := by
  intro s ts hc h hw hb hts hlen hle hbits
  have hloop := h.decodeLoop_encoding_eq hts
  have hfit := decodeLoop_length_syms_le s.it (s.encoding ts)
  have hexec := execDecode_of_cand_eq_nil hb hlen.symm hle hbits (by rw [hloop])
  rw [hloop] at hfit hexec
  obtain ⟨hnum, hout, hrest⟩ := storeDecoded_stores hc hw (hfit.trans (hlen.trans_le hle))
  exact ⟨_, hexec, rfl, hnum, hout, hrest⟩

/-- Settles O49: without an error nothing is left, so the bits are the codes of the emitted symbols;
of any symbols with these codes the loop emits just them. -/
theorem decodeIsTheUniqueParse : Obligations.DecodeIsTheUniqueParse := by
  intro s t bs hc h hw hb hlen hle hbits hexec herr
  have hcand : (decodeLoop s.it bs 0 [] 0).cand = [] := by
    by_contra hne
    cases (execDecode_of_cand_ne_nil hb hlen.symm hle hbits hne).symm.trans hexec
    cases herr
  cases (execDecode_of_cand_eq_nil hb hlen.symm hle hbits hcand).symm.trans hexec
  obtain ⟨hcoded, hparse, -⟩ := h.decodeLoop_parse bs
  rw [hcand, List.append_nil] at hparse
  obtain ⟨hnum, hout, -⟩ := storeDecoded_stores hc hw
    ((decodeLoop_length_syms_le s.it bs).trans (hlen.trans_le hle))
  refine ⟨_, hcoded, hparse.symm, hnum, hout, fun us hus henc => ?_⟩
  rw [← henc, h.decodeLoop_encoding_eq hus]

/-- Settles O50: something is left, or the bits would be the codes of the emitted symbols; it begins
with no code and at `start`. -/
theorem decodeReportsMalformedInput : Obligations.DecodeReportsMalformedInput := by
  intro s bs hc h hw hb hlen hle hbits hno
  obtain ⟨hcoded, hparse, hstart⟩ := h.decodeLoop_parse bs
  have hcand : (decodeLoop s.it bs 0 [] 0).cand ≠ [] := fun hnil =>
    hno ⟨_, hcoded, by rwa [hnil, List.append_nil, eq_comm] at hparse⟩
  obtain ⟨hnum, hout, hrest⟩ := storeDecoded_stores hc hw
    ((decodeLoop_length_syms_le s.it bs).trans (hlen.trans_le hle))
  have hinfo : (decodeLoop s.it bs 0 [] 0).start < 2 ^ 27 := by
    obtain ⟨-, -, -, -, -, hmax⟩ := Config.wf_bounds hc
    have hsplit := congrArg List.length hparse
    rw [List.length_append] at hsplit
    omega
  exact ⟨_, _, _, execDecode_of_cand_ne_nil hb hlen.symm hle hbits hcand, rfl, hcoded, hparse, hcand,
    h.rest_unmatched bs, (toNat_ofNat_of_lt hinfo (by decide)).trans hstart, hnum, hout, hrest⟩

end Sys2Proof.Machine
end

section
/-! What the bit loop leaves of any bits after a `BUILD` (R196): the code of two or more symbols is
complete, so bits that begin with no code are the beginning of one. -/

namespace Sys2Proof.Machine

/-- Where every infinite sequence begins with a code, bits that begin with no code are the beginning
of one. -/
theorem TablesOk.exists_code_extending {t : State} (h : TablesOk t) {rest : Bits}
    (hcomplete : ∀ f : Nat → Bool, ∃ x p, t.codeOf x = some p ∧
      ∀ j, j < p.length → p[j]? = some (f j))
    (hrest : ∀ c, c <+: rest → itLookup t.it c = none) :
    ∃ x p, t.codeOf x = some p ∧ rest <+: p ∧ rest ≠ p := by
  obtain ⟨x, p, hx, hp⟩ := hcomplete (fun j => rest.getD j false)
  have hnot : ¬ p <+: rest := fun hpre => by
    cases (hrest p hpre).symm.trans ((h.inverse p x).mpr hx)
  have hp' := (prefix_map_range_iff (le_max_left p.length rest.length)).mpr hp
  have hrest' := (prefix_map_range_iff (p := rest) (f := fun j => rest.getD j false)
    (le_max_right p.length rest.length)).mpr (fun j hj => by simp [hj])
  refine ⟨x, p, hx, ?_, fun heq => hnot (heq ▸ List.prefix_rfl)⟩
  exact (List.prefix_or_prefix_of_prefix hp' hrest').resolve_left hnot

/-- Settles O52: with two symbols or more by completeness, else since the codes are `"0"` or none. -/
theorem malformedInputEndsInsideACode : Obligations.MalformedInputEndsInsideACode := by
  intro s t xs hc hlen hle hholds hx hexec
  have hbuilt := eq_buildResult_of_exec hlen hle hholds hexec
  have hlookup : ∀ c x, itLookup t.it c = some x → (x, c) ∈ buildCodes xs := fun c x h => by
    rwa [hbuilt, buildResult_itLookup] at h
  refine ⟨fun hk bs => ?_, fun h1 c hhead => ?_, fun hnil c => ?_⟩
  · have htables : TablesOk t := hbuilt ▸ buildResult_tables hc hx
    obtain ⟨-, hcomplete⟩ := builtCodeIsComplete s t xs hc hlen hle hholds hx hk hexec
    refine htables.exists_code_extending (fun f => ?_) (htables.rest_unmatched bs)
    obtain ⟨x, hcode, -⟩ := hcomplete f
    exact ⟨x, hcode⟩
  · refine Option.eq_none_iff_forall_ne_some.mpr fun x h => ?_
    rw [eq_of_mem_buildCodes_single ((length_distinct xs).trans h1) (hlookup c x h)] at hhead
    cases hhead
  · refine Option.eq_none_iff_forall_ne_some.mpr fun x h => ?_
    have hmem := (exists_buildCodes_iff xs x).mp ⟨c, hlookup c x h⟩
    simp [hnil] at hmem

end Sys2Proof.Machine
end

section
/-! The round trip (R197): what each of its states is to the next command, and that each command takes
an idle machine of one kind to one of the next. -/

namespace Sys2Proof.Machine

/-! ### The states of a round trip -/

/-- A legal idle machine whose `SYM` holds the symbols of `xs`, `IN_LEN` of them. -/
structure HoldsOperand (s : State) (xs : List Symbol) : Prop where
  inv : Inv s
  idle : s.ctl = .idle
  inLen : s.inLen.toNat = xs.length
  le : xs.length ≤ s.cfg.nMax
  sym : Memory.holds s.sym xs

/-- A legal idle machine after `BUILD`, with codes for `xs` that fit in `BIT`. -/
structure HasCodes (s : State) (xs : List Symbol) : Prop where
  inv : Inv s
  idle : s.ctl = .idle
  built : s.built = true
  coded : s.allCoded xs
  fits : (s.encoding xs).length ≤ s.cfg.bMax

/-- A machine with codes whose `BIT` holds the encoding of `xs`, `ENC_LEN` bits long. -/
structure HoldsEncoding (s : State) (xs : List Symbol) : Prop extends HasCodes s xs where
  encLen : s.encLen.toNat = (s.encoding xs).length
  bits : Memory.holds s.bit (s.encoding xs)

/-- An idle built machine whose last command ended without an error, with `xs` in `OUT`. -/
structure HoldsOutput (s : State) (xs : List Symbol) : Prop where
  idle : s.ctl = .idle
  built : s.built = true
  errCode : s.errCode = .none
  outLen : s.outLen.toNat = xs.length
  out : Memory.holds s.out xs

/-! ### The commands -/

theorem inv_accept {s : State} (h : Inv s) (w : Word) : Inv (s.accept w) :=
  inv_hostKeeps.accept s w h

theorem inv_of_exec {i : Instr} {s t : State} (h : Inv s) (hexec : exec i s = .next t) : Inv t :=
  completes_inv i s t h (exec_completes hexec)

theorem HoldsOperand.exec_build {s : State} {xs : List Symbol} (h : HoldsOperand s xs) (w : Word) :
    exec .build (s.accept w) = .next (buildResult (s.accept w) xs) :=
  execBuild_of_holds (s := s.accept w) h.inLen (h.inLen.trans_le h.le) h.sym

theorem HoldsOperand.after_build {s : State} {xs : List Symbol} (h : HoldsOperand s xs) (w : Word) :
    HoldsOperand (buildResult (s.accept w) xs) xs :=
  { h with
    inv := inv_of_exec (inv_accept h.inv w) (h.exec_build w)
    idle := rfl }

theorem HoldsOperand.hasCodes_after_build {s : State} {xs : List Symbol} (h : HoldsOperand s xs)
    (w : Word) (hfit : ((buildResult (s.accept w) xs).encoding xs).length ≤ s.cfg.bMax) :
    HasCodes (buildResult (s.accept w) xs) xs where
  inv := (h.after_build w).inv
  idle := rfl
  built := rfl
  coded := fun x => (buildResult_ctEntry_isSome _ xs x).mpr
  fits := hfit

/-- `ENCODE` of symbols with codes stores their encoding. -/
theorem HasCodes.exec_encode {s : State} {xs : List Symbol} (h : HasCodes s xs)
    (hop : HoldsOperand s xs) (w : Word) :
    ∃ t, exec .encode (s.accept w) = .next t ∧ t.errCode = .none ∧ HoldsEncoding t xs := by
  obtain ⟨hencLen, hbits, -⟩ :=
    storeEncoded_stores (s := s.accept w) h.inv.config h.inv.memories.bitWf h.fits
  have hoperand : (s.accept w).symOperand = xs.map some ++ [] := by
    rw [State.symOperand_eq (s := s.accept w) hop.inLen hop.sym, List.append_nil]
  have hexec := execEncode_of_encoding (s := s.accept w) h.built (hop.inLen.trans_le hop.le)
    hoperand h.coded h.fits rfl
  exact ⟨_, hexec, rfl,
    { h with
      inv := inv_of_exec (i := .encode) (inv_accept h.inv w) hexec
      idle := rfl
      encLen := hencLen
      bits := hbits }⟩

theorem HoldsEncoding.setBitLen {s : State} {xs : List Symbol} (h : HoldsEncoding s xs) (v : Word) :
    HoldsEncoding (s.setBitLen v) xs :=
  { h with inv := inv_hostKeeps.setBitLen s v h.idle h.inv }

/-- `DECODE` of as many bits as an `ENCODE` left gives its symbols back. -/
theorem HoldsEncoding.exec_decode {s : State} {xs : List Symbol} (h : HoldsEncoding s xs)
    (hbitLen : s.bitLen = s.encLen) (w : Word) :
    ∃ t, exec .decode (s.accept w) = .next t ∧ HoldsOutput t xs := by
  have hlen : (s.encoding xs).length = (s.accept w).nBits :=
    h.encLen.symm.trans (congrArg BitVec.toNat hbitLen.symm)
  have hinv := inv_accept h.inv w
  obtain ⟨t, hexec, ht, houtLen, hout, -⟩ := decodeInvertsEncoding (s.accept w) xs hinv.config
    hinv.tables hinv.memories.outWf h.built h.coded hlen (hlen.symm.trans_le h.fits) h.bits
  refine ⟨t, hexec, ?_, ?_, ?_, houtLen, hout⟩ <;> rw [ht]
  exact h.built

/-- The write of `BIT_LEN` at the port. -/
theorem writeBitLen_of_idle {s : State} (h : s.ctl = .idle) (v : Word) :
    busWrite s 0x28 v = s.setBitLen v := by
  rw [show busWrite s 0x28 v = writeReg s v .bitLen from busWrite_offset s .bitLen v, writeReg,
    (State.busy_eq_false_iff s).mpr h]
  rfl

/-- Settles O53: the three commands one after the other, the invariant kept by each. -/
theorem roundTrip : Obligations.RoundTrip := by
  intro s xs hinv hidle hin hle hsym
  have hop : HoldsOperand s xs := ⟨hinv, hidle, hin, hle, hsym⟩
  rw [writeCmd_of_idle hidle]
  refine ⟨_, hop.exec_build 1, rfl, fun hfit => ?_⟩
  obtain ⟨t2, hencode, herr, h2⟩ :=
    (hop.hasCodes_after_build 1 hfit).exec_encode (hop.after_build 1) 2
  obtain ⟨t3, hdecode, h3⟩ := (h2.setBitLen t2.encLen).exec_decode rfl 3
  refine ⟨t2, t3, ?_, herr, ?_, h3.errCode, h3.outLen, h3.out⟩
  · rw [writeCmd_of_idle (hop.after_build 1).idle, hencode]
  · rw [writeBitLen_of_idle h2.idle, writeCmd_of_idle (h2.setBitLen t2.encLen).idle, hdecode]

end Sys2Proof.Machine
end

section
/-! The round trip as a run of the host's program (R97, R98, R253): what each statement of the program
does to an idle machine whose commands complete before the host's next access. -/

namespace Sys2Proof.Machine

/-! ### Runs -/

theorem run_add_of_next {M : Host.Core} {s t : M.State} {m : Nat} (h : M.run m s = .next t)
    (n : Nat) : M.run (m + n) s = M.run n t := by
  induction m generalizing s with
  | zero =>
    cases h
    rw [Nat.zero_add]
  | succ m ih =>
    rw [Nat.add_right_comm]
    cases hs : M.step s with
    | next u =>
      rw [run_succ_of_next hs] at h ⊢
      exact ih h
    | fault | refused => simp [Host.Core.run, hs] at h

/-- Nothing but `ops` is pending, and no turn is the host's while a command runs. -/
structure Pending (s : State) (ops : List HostOp) : Prop where
  turns : s.turns = []
  host : s.host = ops

theorem Pending.popHost {s : State} {op : HostOp} {ops : List HostOp} (h : Pending s (op :: ops)) :
    Pending s.popHost ops :=
  ⟨h.turns, congrArg List.tail h.host⟩

/-! ### One step -/

theorem step_of_no_turns {s : State} {sn : Snapshot} {i : Instr} (hbusy : s.ctl = .busy sn)
    (hturns : s.turns = []) (hdec : decodeCmd sn.cmd = .ok i) : step s = exec i s := by
  have hsame : { s with turns := s.turns.tail } = s := by
    cases s
    cases hturns
    rfl
  rw [step_of_core_turn hbusy (.inr (by simp [hturns])), hsame, coreStep_of_command hbusy hdec]

theorem step_of_cmdw {s : State} {w : Word} {ops : List HostOp} (hidle : s.ctl = .idle)
    (hp : Pending s (cmdwOp w :: ops)) : step s = .next (s.popHost.accept w) := by
  rw [step_of_write hidle hp.host, show Reg.offset .cmd = 0x14 from rfl, writeCmd_of_idle hidle]
  rfl

theorem readInto_offset (s : State) (r : Reg) (n : Nat) :
    readInto s (Reg.offset r) n = s.setVar n (readReg s r) := by
  rw [readInto, busRead_offset]

theorem step_of_rd {s : State} {r : Reg} {n : Nat} {ops : List HostOp} (hidle : s.ctl = .idle)
    (hp : Pending s (.read (Reg.offset r) n :: ops)) :
    step s = .next (s.setVar n (readReg s r)).popHost := by
  simp [step_of_idle hidle, hostStep, hp.host, readInto_offset]

theorem step_of_poll {s : State} {n : Nat} {ops : List HostOp} (hidle : s.ctl = .idle)
    (hp : Pending s (.poll n :: ops)) :
    step s = .next (s.setVar n s.statusWord).popHost := by
  have hbit : s.statusWord.getLsbD 0 = false :=
    (statusWord_fields s).1.trans ((State.busy_eq_false_iff s).mpr hidle)
  simp only [step_of_idle hidle, hostStep, hp.host, readInto_offset, readReg, hbit,
    Bool.false_eq_true, if_false]

theorem step_of_wr_bitLen {s : State} {v : Word} {n : Nat} {ops : List HostOp}
    (hidle : s.ctl = .idle) (hv : Memory.read s.vars n = some v)
    (hp : Pending s (.write (Reg.offset .bitLen) (.var n) :: ops)) :
    step s = .next (s.setBitLen v).popHost := by
  simp only [step_of_idle hidle, hostStep, hp.host, evalVal, hv]
  rw [show Reg.offset .bitLen = 0x28 from rfl, writeBitLen_of_idle hidle]

/-! ### Statements -/

/-- `RUN` of a command that completes takes three steps. -/
theorem run_of_run {s t : State} {i : Instr} {n : Nat} {ops : List HostOp} (hidle : s.ctl = .idle)
    (hp : Pending s (expandStmt (.run i n) ++ ops))
    (hexec : exec i (s.popHost.accept (encode i)) = .next t) :
    core.run 3 s = .next (t.setVar n t.statusWord).popHost ∧
      Pending (t.setVar n t.statusWord).popHost ops := by
  obtain ⟨hidle', -, -, -, -, -, -, -, hhost, -, hturns, -⟩ := exec_next hexec
  have hcore : step (s.popHost.accept (encode i)) = .next t :=
    (step_of_no_turns (s := s.popHost.accept (encode i)) rfl hp.turns (decodeCmd_encode i)).trans hexec
  have hpoll : Pending t (.poll n :: ops) :=
    ⟨hturns.trans hp.turns, hhost.trans hp.popHost.host⟩
  refine ⟨?_, hpoll.turns, congrArg List.tail hpoll.host⟩
  exact (run_succ_of_next (M := core) (step_of_cmdw hidle hp) 2).trans
    ((run_succ_of_next (M := core) hcore 1).trans
      (run_succ_of_next (M := core) (step_of_poll hidle' hpoll) 0))

/-! ### The host's side -/

section

variable {s : State} {xs : List Symbol}

theorem HoldsOperand.popHost (h : HoldsOperand s xs) : HoldsOperand s.popHost xs :=
  { h with inv := inv_hostKeeps.popHost s h.inv }

theorem HoldsOperand.setVar (h : HoldsOperand s xs) (n : Nat) (v : Word) :
    HoldsOperand (s.setVar n v) xs :=
  { h with inv := inv_hostKeeps.setVar s n v h.inv }

theorem HasCodes.popHost (h : HasCodes s xs) : HasCodes s.popHost xs :=
  { h with inv := inv_hostKeeps.popHost s h.inv }

theorem HasCodes.setVar (h : HasCodes s xs) (n : Nat) (v : Word) : HasCodes (s.setVar n v) xs :=
  { h with inv := inv_hostKeeps.setVar s n v h.inv }

theorem HoldsEncoding.popHost (h : HoldsEncoding s xs) : HoldsEncoding s.popHost xs :=
  { h with toHasCodes := h.toHasCodes.popHost }

theorem HoldsEncoding.setVar (h : HoldsEncoding s xs) (n : Nat) (v : Word) :
    HoldsEncoding (s.setVar n v) xs :=
  { h with toHasCodes := h.toHasCodes.setVar n v }

/-! ### The program -/

variable {n : Nat} {ops : List HostOp}

theorem HoldsOperand.run_build (h : HoldsOperand s xs)
    (hp : Pending s (expandStmt (.run .build n) ++ ops))
    (hfit : ((buildResult (s.accept 1) xs).encoding xs).length ≤ s.cfg.bMax) :
    ∃ t, core.run 3 s = .next t ∧ Pending t ops ∧ HoldsOperand t xs ∧ HasCodes t xs := by
  obtain ⟨hrun, hp'⟩ := run_of_run h.idle hp (h.popHost.exec_build _)
  exact ⟨_, hrun, hp', ((h.popHost.after_build _).setVar n _).popHost,
    ((h.popHost.hasCodes_after_build _ hfit).setVar n _).popHost⟩

theorem HasCodes.run_encode (h : HasCodes s xs) (hop : HoldsOperand s xs)
    (hp : Pending s (expandStmt (.run .encode n) ++ ops)) :
    ∃ t, core.run 3 s = .next t ∧ Pending t ops ∧ HoldsEncoding t xs := by
  obtain ⟨t, hexec, -, ht⟩ := h.popHost.exec_encode hop.popHost (encode .encode)
  obtain ⟨hrun, hp'⟩ := run_of_run h.idle hp hexec
  exact ⟨_, hrun, hp', (ht.setVar n _).popHost⟩

/-- `RD ENC_LEN -> n; WR BIT_LEN, n`. -/
theorem HoldsEncoding.run_copy_encLen (h : HoldsEncoding s xs)
    (hp : Pending s (expandStmt (.rd .encLen n) ++ (expandStmt (.wr .bitLen (.var n)) ++ ops))) :
    ∃ t, core.run 2 s = .next t ∧ Pending t ops ∧ HoldsEncoding t xs ∧ t.bitLen = t.encLen := by
  have hp1 : Pending (s.setVar n s.encLen).popHost (expandStmt (.wr .bitLen (.var n)) ++ ops) :=
    ⟨hp.turns, hp.popHost.host⟩
  have h1 : HoldsEncoding (s.setVar n s.encLen).popHost xs := (h.setVar n s.encLen).popHost
  have hvar := Memory.read_write_same s.vars h.inv.memories.varsWf n s.encLen
  refine ⟨((s.setVar n s.encLen).popHost.setBitLen s.encLen).popHost, ?_,
    ⟨hp.turns, congrArg List.tail hp1.host⟩, (h1.setBitLen s.encLen).popHost, rfl⟩
  exact (run_succ_of_next (M := core) (step_of_rd h.idle hp) 1).trans
    (run_succ_of_next (M := core) (step_of_wr_bitLen h1.idle hvar hp1) 0)

theorem HoldsEncoding.run_decode (h : HoldsEncoding s xs) (hbitLen : s.bitLen = s.encLen)
    (hp : Pending s (expandStmt (.run .decode n) ++ ops)) :
    ∃ t, core.run 3 s = .next t ∧ Pending t ops ∧ HoldsOutput t xs := by
  obtain ⟨t, hexec, ht⟩ := h.popHost.exec_decode hbitLen (encode .decode)
  obtain ⟨hrun, hp'⟩ := run_of_run h.idle hp hexec
  exact ⟨_, hrun, hp', { ht with }⟩

end

/-- Settles O54: the run of the program is that of its statements one after the other. -/
theorem roundTripProgramRuns : Obligations.RoundTripProgramRuns := by
  intro s xs hinv hidle hin hle hsym hfit hturns hhost
  have hop : HoldsOperand s xs := ⟨hinv, hidle, hin, hle, hsym⟩
  rw [writeCmd_of_idle hidle] at hfit
  obtain ⟨t1, hrun1, hp1, hop1, h1⟩ := hop.run_build ⟨hturns, hhost⟩ (hfit _ (hop.exec_build 1))
  obtain ⟨t2, hrun2, hp2, h2⟩ := h1.run_encode hop1 hp1
  obtain ⟨t3, hrun3, hp3, h3, hbitLen⟩ := h2.run_copy_encLen hp2
  obtain ⟨t, hrun4, hp4, h4⟩ := h3.run_decode hbitLen hp3
  refine ⟨t, ?_, ⟨hp4.host, h4.idle⟩, h4.errCode, h4.built, h4.outLen, h4.out⟩
  calc core.run 11 s
      = core.run 8 t1 := run_add_of_next hrun1 8
    _ = core.run 5 t2 := run_add_of_next hrun2 5
    _ = core.run 3 t3 := run_add_of_next hrun3 3
    _ = .next t := hrun4

end Sys2Proof.Machine
end

section
/-! The interrupt wire (R220): it is the enable after what sets `DONE`, and falls with either of the
two bits it is made of. -/

namespace Sys2Proof.Machine

theorem State.irq_eq_true_iff (s : State) : s.irq = true ↔ s.done = true ∧ s.irqEn = true := by
  rw [State.irq, Bool.and_eq_true]

theorem State.irq_of_done {s : State} (h : s.done = true) : s.irq = s.irqEn := by
  rw [State.irq, h, Bool.true_and]

theorem State.irq_of_not_done {s : State} (h : s.done = false) : s.irq = false := by
  rw [State.irq, h, Bool.false_and]

theorem State.irq_of_not_irqEn {s : State} (h : s.irqEn = false) : s.irq = false := by
  rw [State.irq, h, Bool.and_false]

theorem irq_of_exec {i : Instr} {s t : State} (h : exec i s = .next t) : t.irq = s.irqEn := by
  obtain ⟨-, hdone, -, hirqEn, -⟩ := exec_next h
  exact (State.irq_of_done hdone).trans hirqEn

theorem irq_of_execIllegal {s t : State} (h : execIllegal s = .next t) : t.irq = s.irqEn := by
  rw [execIllegal_eq] at h
  cases h
  exact State.irq_of_done (State.complete_done s _ _)

/-- The write of `CTRL` at the port. -/
theorem writeCtrl_eq_setIrqEn (s : State) (v : Word) :
    busWrite s 0x10 v = s.setIrqEn (v.getLsbD 0) :=
  busWrite_offset s .ctrl v

/-- The write of `STATUS` at the port that acknowledges (R223). -/
theorem writeStatus_of_ack {v : Word} (h : v.getLsbD 1 = true) (s : State) :
    busWrite s 0x18 v = s.ack := by
  rw [show busWrite s 0x18 v = writeReg s v .status from busWrite_offset s .status v, writeReg,
    if_pos h]

/-- Settles O12: each completion sets `DONE`; each falling edge clears one of the two bits. -/
theorem interruptFollowsDoneAndEnable : Obligations.InterruptFollowsDoneAndEnable := by
  intro s
  refine ⟨s.irq_eq_true_iff, fun i t => irq_of_exec, fun t => irq_of_execIllegal,
    fun v hen hdone => ?_, fun v hack => ?_, fun w hidle => ?_, fun v hen => ?_, ?_⟩
  · rw [writeCtrl_eq_setIrqEn, hen]
    exact State.irq_of_done hdone
  · rw [writeStatus_of_ack hack]
    exact State.irq_of_not_done s.ack_done
  · rw [writeCmd_of_idle hidle]
    exact State.irq_of_not_done (s.accept_done w)
  · rw [writeCtrl_eq_setIrqEn, hen]
    exact State.irq_of_not_irqEn (s.setIrqEn_irqEn false)
  · exact State.irq_of_not_done s.resetInput_done

end Sys2Proof.Machine
end

section
/-! Commands issued back to back (R247): the host's write of `CMD` with the core idle, and with the core
still busy and the turn the host's. -/

namespace Sys2Proof.Machine

theorem step_of_write_cmd_of_idle {s : State} {w : Word} {ops : List HostOp} (hidle : s.ctl = .idle)
    (h : s.host = .write 0x14 (.lit w) :: ops) : step s = .next (s.popHost.accept w) := by
  rw [step_of_write hidle h, writeCmd_of_idle hidle]
  rfl

/-- A busy core drops the word; the host goes on and has spent a turn. -/
theorem step_of_write_cmd_of_host_turn {s : State} {sn : Snapshot} {w : Word} {ops : List HostOp}
    {ts : List Agent} (hbusy : s.ctl = .busy sn) (h : s.host = .write 0x14 (.lit w) :: ops)
    (hturns : s.turns = .host :: ts) : step s = .next s.popTurn.popHost := by
  have hdrop : busWrite s.popTurn 0x14 w = s.popTurn :=
    writeCmd_of_busy ((State.popTurn_ctl s).trans hbusy) w
  rw [step_of_nextAgent_host (State.nextAgent_of_host_turn hbusy h hturns)]
  simp only [hostStep, State.popTurn_host, h, evalVal, hdrop]

/-- The second word comes too early: the `NOP` is still running. -/
theorem run_back_to_back_of_host_turn {s : State} {w : Word} (hidle : s.ctl = .idle)
    (hhost : s.host = [.write 0x14 (.lit 0), .write 0x14 (.lit w)]) (hturns : s.turns = [.host]) :
    core.run 2 s = .next (s.popHost.accept 0).popTurn.popHost := by
  have hrest : (s.popHost.accept 0).host = [.write 0x14 (.lit w)] := congrArg List.tail hhost
  have hdropped := step_of_write_cmd_of_host_turn (s := s.popHost.accept 0) rfl hrest hturns
  exact (run_succ_of_next (M := core) (step_of_write_cmd_of_idle hidle hhost) 1).trans
    (run_succ_of_next (M := core) hdropped 0)

/-- The second word comes when the `NOP` has completed. -/
theorem run_back_to_back_of_no_turns {s : State} {w : Word} (hidle : s.ctl = .idle)
    (hhost : s.host = [.write 0x14 (.lit 0), .write 0x14 (.lit w)]) (hturns : s.turns = []) :
    core.run 3 s = .next (((s.popHost.accept 0).complete .none 0).popHost.accept w) := by
  have hnop : step (s.popHost.accept 0) = .next ((s.popHost.accept 0).complete .none 0) :=
    (step_of_no_turns (s := s.popHost.accept 0) rfl hturns (decodeCmd_encode .nop)).trans
      (execNop_eq _)
  have hrest : ((s.popHost.accept 0).complete .none 0).host = [.write 0x14 (.lit w)] :=
    congrArg List.tail hhost
  exact (run_succ_of_next (M := core) (step_of_write_cmd_of_idle hidle hhost) 2).trans
    ((run_succ_of_next (M := core) hnop 1).trans
      (run_succ_of_next (M := core) (step_of_write_cmd_of_idle rfl hrest) 0))

/-- Settles O11: with the turn the host's, its second write meets the accepted `NOP` still running;
with no turn, the `NOP` completes between the two acceptances. -/
theorem backToBackCommandsBothOutcomes : Obligations.BackToBackCommandsBothOutcomes := by
  intro s w hidle hhost
  have hdone : s.host.tail.tail = [] := by rw [hhost]; rfl
  exact ⟨⟨_, _, run_back_to_back_of_host_turn (s := { s with turns := [.host] }) hidle hhost rfl,
      hdone, rfl, rfl, rfl⟩,
    ⟨_, _, run_back_to_back_of_no_turns (s := { s with turns := [] }) hidle hhost rfl,
      hdone, rfl, rfl, rfl⟩⟩

end Sys2Proof.Machine
end

section
/-! Accesses while a command runs (R245, R246): reads of the memories a command may write give free
values, and the writes that would disturb it are dropped. -/

namespace Sys2Proof.Machine

/-! ### Reads -/

theorem readBit_of_busy {s : State} (h : s.busy = true) (j : Nat) :
    readBit s j = (s.freeValue, s.drawn) := if_pos h

theorem readOut_of_busy {s : State} (h : s.busy = true) (j : Nat) :
    readOut s j = (s.freeValue, s.drawn) := if_pos h

/-- Regions 2 to 5 are `BIT`, `OUT`, `CT_LEN` and `CT_BITS` (R62). -/
theorem busRead_of_busy {s : State} {a : Word} (h : s.busy = true)
    (hlow : 2 ≤ (regionField a).toNat) (hhigh : (regionField a).toNat ≤ 5) :
    busRead s a = (s.freeValue, s.drawn) := by
  have hregion : regionField a = 2 ∨ regionField a = 3 ∨ regionField a = 4 ∨ regionField a = 5 := by
    bv_omega
  rcases hregion with h2 | h3 | h4 | h5
  · rw [busRead_of_bit (regionOf_of_two h2), readBit_of_busy h]
  · rw [busRead_of_out (regionOf_of_three h3), readOut_of_busy h]
  · simp [busRead, regionOf_of_four h4, h]
  · simp [busRead, regionOf_of_five h5, h]

theorem busRead_errCode_of_eq {s : State} {e : ErrCode} (h : s.errCode = e) :
    busRead s 0x1C = ((0 : BitVec 28) ++ e.code, s) := by
  rw [← h]
  exact busRead_offset s .errCode

/-- Settles O26: regions 2 to 5 are free while busy, `SYM` never is, and a register reads what it
holds. -/
theorem readsWhileBusy : Obligations.ReadsWhileBusy := by
  constructor
  · intro s sn a hbusy
    refine ⟨busRead_of_busy ((State.busy_eq_true_iff s).mpr ⟨sn, hbusy⟩), fun x hregion hi hx => ?_⟩
    exact (busRead_of_sym (regionOf_of_one hregion) s).trans (readSym_of_some hi hx)
  · intro s
    exact ⟨busRead_offset s .cmd, busRead_errCode_of_eq, busRead_errCode_of_eq,
      busRead_errCode_of_eq, busRead_errCode_of_eq, busRead_errCode_of_eq, busRead_errCode_of_eq,
      busRead_errCode_of_eq, busRead_offset s .errInfo, busRead_offset s .inLen,
      busRead_offset s .bitLen, busRead_offset s .encLen, busRead_offset s .outLen,
      busRead_offset s .nsym⟩

/-! ### Writes -/

/-- A write to any address of a register, whatever its bits 1:0. -/
theorem busWrite_eq_writeReg {a : Word} {r : Reg} (hregion : regionField a = 0)
    (hindex : a.extractLsb' 2 26 = (Reg.offset r).extractLsb' 2 26) (s : State) (v : Word) :
    busWrite s a v = writeReg s v r := by
  have hi : indexField a = indexField (Reg.offset r) := congrArg BitVec.toNat hindex
  have hr : regionOf a = regionOf (Reg.offset r) := by
    rw [regionOf_of_zero hregion]
    cases r <;> rfl
  rw [← busWrite_offset, busWrite, busWrite, hr, hi]

theorem writeSym_of_busy {s : State} (h : s.busy = true) (i : Nat) (v : Word) :
    writeSym s i v = s := if_neg (by simp [h])

theorem writeBit_of_busy {s : State} (h : s.busy = true) (j : Nat) (v : Word) :
    writeBit s j v = s := if_neg (by simp [h])

/-- Settles O27: these registers and memories are written only while the core is idle; `CTRL` and
`STATUS` at all times. -/
theorem writesWhileBusyAreDropped : Obligations.WritesWhileBusyAreDropped := by
  intro s sn a v hctl
  have hbusy : s.busy = true := (State.busy_eq_true_iff s).mpr ⟨sn, hctl⟩
  refine ⟨fun hregion hindex => ?_, fun hregion => ?_, fun hregion hindex => ?_,
    fun hregion hindex hack => ?_⟩
  · rcases hindex with hindex | hindex | hindex
    · exact (busWrite_eq_writeReg (r := .inLen) hregion hindex s v).trans (if_pos hbusy)
    · exact (busWrite_eq_writeReg (r := .bitLen) hregion hindex s v).trans (if_pos hbusy)
    · exact (busWrite_eq_writeReg (r := .cmd) hregion hindex s v).trans (if_pos hbusy)
  · rcases hregion with hregion | hregion
    · rw [busWrite_of_sym (regionOf_of_one hregion), writeSym_of_busy hbusy]
    · rw [busWrite_of_bit (regionOf_of_two hregion), writeBit_of_busy hbusy]
  · exact busWrite_eq_writeReg (r := .ctrl) hregion hindex s v
  · exact (busWrite_eq_writeReg (r := .status) hregion hindex s v).trans (if_pos hack)

end Sys2Proof.Machine
end

section
/-! What starts a command (R110, R242): of all a host can do to an idle core, only a write of `CMD`
makes it busy. -/

namespace Sys2Proof.Machine

/-! ### The controller after an access -/

theorem writeReg_ctl_of_ne_cmd {r : Reg} (h : r ≠ .cmd) (s : State) (v : Word) :
    (writeReg s v r).ctl = s.ctl := by
  cases r with
  | cmd => exact absurd rfl h
  | inLen | bitLen => cases hb : s.busy <;> simp [writeReg, hb]
  | status => simp only [writeReg]; split <;> rfl
  | id | cfgSymw | cfgNmax | cfgBmax | ctrl | errCode | errInfo | encLen | outLen | nsym => rfl

theorem writeSym_ctl (s : State) (i : Nat) (v : Word) : (writeSym s i v).ctl = s.ctl := by
  unfold writeSym
  split <;> rfl

theorem writeBit_ctl (s : State) (j : Nat) (v : Word) : (writeBit s j v).ctl = s.ctl := by
  unfold writeBit
  split <;> rfl

theorem ctl_of_drawnOrNot {s s' : State} (h : s' = s ∨ s' = s.drawn) : s'.ctl = s.ctl := by
  rcases h with rfl | rfl <;> rfl

theorem readInto_ctl (s : State) (a : Word) (n : Nat) : (readInto s a n).ctl = s.ctl := by
  rw [readInto, State.setVar_ctl, ctl_of_drawnOrNot (busRead_state s a)]

/-! ### Which write makes the core busy -/

theorem regionField_of_registers {a : Word} (h : regionOf a = .registers) : regionField a = 0 := by
  unfold regionOf at h
  split at h
  case h_1 hzero => exact BitVec.eq_of_toNat_eq hzero
  all_goals cases h

theorem eq_five_of_regOfIndex_cmd {n : Nat} (h : regOfIndex n = some .cmd) : n = 5 := by
  unfold regOfIndex at h
  split at h <;> simp_all

/-- The address is that of `CMD` (R27), whatever its bits 1:0. -/
theorem cmd_address_of_busWrite_starts {s : State} {a v : Word} (hidle : s.ctl = .idle)
    (h : (busWrite s a v).ctl ≠ .idle) : regionField a = 0 ∧ a.extractLsb' 2 26 = 5 := by
  rw [← hidle] at h
  cases hr : regionOf a with
  | registers =>
    refine ⟨regionField_of_registers hr, BitVec.eq_of_toNat_eq (eq_five_of_regOfIndex_cmd ?_)⟩
    cases hi : regOfIndex (indexField a) with
    | none => simp [busWrite, hr, hi] at h
    | some r =>
      simp only [busWrite, hr, hi] at h
      exact hi.trans (congrArg some (not_imp_comm.mp (fun hne => writeReg_ctl_of_ne_cmd hne s v) h))
  | sym => exact absurd (by rw [busWrite_of_sym hr, writeSym_ctl]) h
  | bit => exact absurd (by rw [busWrite_of_bit hr, writeBit_ctl]) h
  | out => exact absurd (by rw [busWrite_of_out hr]) h
  | ctLen => exact absurd (by rw [busWrite_of_ctLen hr]) h
  | ctBits => exact absurd (by rw [busWrite_of_ctBits hr]) h
  | reserved => exact absurd (by rw [busWrite, hr]) h

/-- Every host step but a write leaves an idle core idle. -/
theorem hostStep_starts {s : State} (hidle : s.ctl = .idle) (h : (hostStep s).ctl ≠ .idle) :
    ∃ a v ops, s.host = .write a v :: ops ∧
      (busWrite (evalVal s v).2 a (evalVal s v).1).ctl ≠ .idle := by
  unfold hostStep at h
  split at h
  · exact absurd hidle h
  · rename_i a v ops hhost
    exact ⟨a, v, ops, hhost, h⟩
  · rw [State.popHost_ctl, readInto_ctl] at h
    exact absurd hidle h
  · split at h <;> simp [readInto_ctl, hidle] at h
  · split at h <;> exact absurd hidle h
  · exact absurd rfl h

/-- Settles O30: an idle machine's step is the host's, and the step after reset that of a host with
nothing pending. -/
theorem resetStateIsIdle : Obligations.ResetStateIsIdle := by
  constructor
  · intro s t hidle hstep hstart
    cases (step_of_idle hidle).symm.trans hstep
    obtain ⟨a, v, ops, hhost, hbusy⟩ := hostStep_starts hidle hstart
    have hread : (evalVal s v).2.ctl = .idle := (ctl_of_drawnOrNot (evalVal_state s v)).trans hidle
    exact ⟨a, v, ops, hhost, cmd_address_of_busWrite_starts hread hbusy⟩
  · intro c
    have hstep : step (State.resetWith c) = .next (State.resetWith c) := by
      rw [step_of_idle rfl, hostStep_of_no_pending rfl]
    exact ⟨rfl, rfl, rfl, rfl, rfl, rfl, rfl, rfl, hstep⟩

end Sys2Proof.Machine
end
